-- ==== Sys2Proof/Word.lean ====
section
/-! DEFINITION. The word type of the block: every bus access, every command word and every random
word is 32 bits wide (00_scope.md R6, `LIMB`). -/

namespace Sys2Proof

/-- One 32-bit word: a command word, a limb, a control register, a random word. -/
abbrev Word := BitVec 32

/-- One byte, for the host's Transcoder only (46_host_procedures.md R250). -/
abbrev Byte := BitVec 8

end Sys2Proof
end

