-- ==== Sys2Proof/Config.lean ====
section
/-! DEFINITION. What an implementation of the block fixes (00_scope.md R6) and the one value the
spec leaves free. The width `W` is not here: it is the field `limbs` of the state
(log 1, DESIGN CHOICE, safe). -/

namespace Sys2Proof.Config

/-- Bits per limb and per bus word (00_scope.md R6, `LIMB`). -/
def limbBits : Nat := 32

/-- `L = W / 32` for the spec's default width `W = 2048` (00_scope.md R6). -/
def defaultLimbs : Nat := 64

/-- The least and the largest `L` (00_scope.md R6: `64 ≤ W ≤ 32768`). -/
def minLimbs : Nat := 2
def maxLimbs : Nat := 1024


/-- DESIGN CHOICE (log 7). Safe. Where the platform puts the block: `BASE` in units of the
register space. The spec gives no default and no rule depends on it (93 V2). -/
opaque baseUnits : Nat

/-- `BASE`, a multiple of `0x20000` (00_scope.md R6). -/
def base : Nat := 0x20000 * baseUnits

/-- DESIGN CHOICE (log 4). Safe. The free value of 70_reset_and_hazards.md R311: how far the
engine had got with drawing words when a reset abandoned its command. It is applied to a counter
of the state and then bounded by what the command's rule would have consumed. -/
opaque abandonedWords : Nat → Nat

end Sys2Proof.Config
end

