-- ==== Sys2Proof/Syntax.lean ====
section
/-! DEFINITION. The fourteen commands (30_encoding.md R105), the pseudo-instructions (R121) and
the assembler notation (R120). -/

namespace Sys2Proof

/-- The number of a big-integer register, `R0` to `R15` (10_state.md R21). -/
abbrev Reg := Fin 16

/-- One constructor per row of spec/opcode_table.json. The arguments stand in the order of the
assembler notation (30_encoding.md R120): destinations, sources, modulus. -/
inductive Instr where
  /-- R130 -/
  | nop
  /-- R132 -/
  | add (rd ra rb : Reg)
  /-- R134 -/
  | sub (rd ra rb : Reg)
  /-- R136 -/
  | cmp (ra rb : Reg)
  /-- R138 -/
  | mul (rd ra rb : Reg)
  /-- R151: `ra` the high half, `rb` the low half, `rc` the modulus -/
  | bred (rd ra rb rc : Reg)
  /-- R154 -/
  | montmul (rd ra rb rc : Reg)
  /-- R156 -/
  | montin (rd ra rc : Reg)
  /-- R157 -/
  | montout (rd ra rc : Reg)
  /-- R190: `ra` the base, `rb` the exponent, `rc` the modulus -/
  | modexp (rd ra rb rc : Reg)
  /-- R171: `rd` receives `g`, `rx` receives `x`, `ry` receives `y` -/
  | xgcd (rd rx ry ra rb : Reg)
  /-- R175 -/
  | modinv (rd ra rc : Reg)
  /-- R206 -/
  | mrtest (ra : Reg)
  /-- R221 -/
  | genprime (rd : Reg)
  deriving DecidableEq, Repr

namespace Instr

/-! The pseudo-instructions of 30_encoding.md R121: assembler expansions. -/

/-- `DBL rd, ra` -/
def dbl (rd ra : Reg) : Instr := .add rd ra ra

/-- `SQR rd, ra` -/
def sqr (rd ra : Reg) : Instr := .mul rd ra ra

/-- `MONTSQR rd, ra, rc` -/
def montsqr (rd ra rc : Reg) : Instr := .montmul rd ra ra rc

/-- `MODRED rd, ra, rc`, with `rz` a register the program has loaded with 0 -/
def modred (rz rd ra rc : Reg) : Instr := .bred rd rz ra rc

/-- `GCD rd, ra, rb`, with `rx`, `ry` scratch registers -/
def gcd (rx ry rd ra rb : Reg) : Instr := .xgcd rd rx ry ra rb

/-- The mnemonic of spec/opcode_table.json. -/
def mnemonic : Instr → String
  | .nop => "NOP"
  | .add _ _ _ => "ADD"
  | .sub _ _ _ => "SUB"
  | .cmp _ _ => "CMP"
  | .mul _ _ _ => "MUL"
  | .bred _ _ _ _ => "BRED"
  | .montmul _ _ _ _ => "MONTMUL"
  | .montin _ _ _ => "MONTIN"
  | .montout _ _ _ => "MONTOUT"
  | .modexp _ _ _ _ => "MODEXP"
  | .xgcd _ _ _ _ _ => "XGCD"
  | .modinv _ _ _ => "MODINV"
  | .mrtest _ => "MRTEST"
  | .genprime _ => "GENPRIME"

/-- The operands in the order of 30_encoding.md R120. -/
def operands : Instr → List Reg
  | .nop => []
  | .add rd ra rb => [rd, ra, rb]
  | .sub rd ra rb => [rd, ra, rb]
  | .cmp ra rb => [ra, rb]
  | .mul rd ra rb => [rd, ra, rb]
  | .bred rd ra rb rc => [rd, ra, rb, rc]
  | .montmul rd ra rb rc => [rd, ra, rb, rc]
  | .montin rd ra rc => [rd, ra, rc]
  | .montout rd ra rc => [rd, ra, rc]
  | .modexp rd ra rb rc => [rd, ra, rb, rc]
  | .xgcd rd rx ry ra rb => [rd, rx, ry, ra, rb]
  | .modinv rd ra rc => [rd, ra, rc]
  | .mrtest ra => [ra]
  | .genprime rd => [rd]

/-- The registers a command writes when it succeeds (10_state.md R24). -/
def dests : Instr → List Reg
  | .nop => []
  | .add rd _ _ => [rd]
  | .sub rd _ _ => [rd]
  | .cmp _ _ => []
  | .mul rd _ _ => [rd]
  | .bred rd _ _ _ => [rd]
  | .montmul rd _ _ _ => [rd]
  | .montin rd _ _ => [rd]
  | .montout rd _ _ => [rd]
  | .modexp rd _ _ _ => [rd]
  | .xgcd rd rx ry _ _ => [rd, rx, ry]
  | .modinv rd _ _ => [rd]
  | .mrtest _ => []
  | .genprime rd => [rd]

/-- A command as the assembler writes it: `ADD R3, R1, R2` (30_encoding.md R120). -/
def asm (i : Instr) : String :=
  match i.operands with
  | [] => i.mnemonic
  | rs => i.mnemonic ++ " " ++ ", ".intercalate (rs.map fun r => "R" ++ toString r.val)

end Instr

end Sys2Proof
end

