-- ==== Sys2Proof/Machine/State.lean ====
section
/-! DEFINITION. The state of the block (10_state.md R20), the events that act on it (00_scope.md
R7), the reasons a step can stop, and the state after reset (10_state.md R48). -/

namespace Sys2Proof.Machine

/-- A big-integer register (10_state.md R21): an unsigned magnitude of `W` bits and a sign bit.
The bound `mag < 2^W` is part of the invariant `State.Inv` of Safety.lean
(log 6, DESIGN CHOICE, safe). -/
structure BigReg where
  mag : Nat
  neg : Bool
  deriving DecidableEq, Repr

/-- One access at the host port (20_memory.md R62, R63). The address is a word index of 15 bits,
the port's `h_addr` (10_state.md R50), so a misaligned, sub-word or out-of-range access cannot be
written (20_memory.md R66). -/
inductive HostAccess where
  | read (addr : BitVec 15)
  | write (addr : BitVec 15) (data : Word)
  deriving DecidableEq, Repr

/-- DESIGN CHOICE (log 2). Safe. What happens next, and which agent does it (00_scope.md R7). -/
inductive Event where
  /-- one host access -/
  | host (access : HostAccess)
  /-- the engine's turn: it completes the command in flight, if there is one (10_state.md R45) -/
  | engine
  /-- the random source has one more word ready (20_memory.md R80) -/
  | source (word : Word)
  /-- `rst` is 1 for one clock edge, with the access presented meanwhile
  (70_reset_and_hazards.md R310) -/
  | reset (presented : Option HostAccess)
  deriving DecidableEq, Repr

/-- The error kinds the block raises (60_exceptions.md R271). -/
inductive ErrKind where
  | invalidParameter
  | noInverseExists
  | illegalCommand
  | overflow
  deriving DecidableEq, Repr

/-- The whole state (10_state.md R20), the parameter `L`, and the model's own fields. -/
structure State where
  /-- `L = W / 32` (00_scope.md R6); no step changes it (log 1, DESIGN CHOICE, safe) -/
  limbs : Nat
  /-- `R0` to `R15` (10_state.md R21) -/
  regs : Vector BigReg 16
  /-- the flags of `STATUS` (10_state.md R28) -/
  busy : Bool
  done : Bool
  err : Bool
  rej : Bool
  prime : Bool
  z : Bool
  lt : Bool
  /-- `IE` (10_state.md R37) -/
  doneIe : Bool
  errIe : Bool
  /-- `ERRCODE` (10_state.md R38) and `ERRCMD` (R39) -/
  errcode : BitVec 8
  errcmd : Word
  /-- the last accepted command word (10_state.md R40) -/
  cmdreg : Word
  /-- `MRK` (10_state.md R41) and `PBITS` (R42) -/
  mrk : BitVec 16
  pbits : BitVec 16
  /-- MODEL'S OWN (log 3, DESIGN CHOICE, safe): words the random source has ready, the next one
  first -/
  rng : List Word
  /-- MODEL'S OWN (log 4, DESIGN CHOICE, safe): the counter the free value
  `Config.abandonedWords` is applied to -/
  abandons : Nat
  /-- the port `h_rdata` (10_state.md R50; log 5, DESIGN CHOICE, safe but for its reset value): the
  word the last host read returned -/
  rdata : Word
  /-- MODEL'S OWN (log 2, DESIGN CHOICE, safe): what happens next, in order -/
  script : List Event
  deriving DecidableEq, Repr

/-- Why a step can stop. The spec's rules are total (93 Part 1b), so no state of a machine of the
spec stops. -/
inductive Fault where
  /-- Raised by `step` alone, on a state whose `limbs` is no width of 00_scope.md R6 (`W` a
  multiple of 32 with `64 ≤ W ≤ 32768`): such a state is no machine of the spec. Safe. -/
  | illegalWidth
  deriving DecidableEq, Repr

/-- Why a command can be refused. Every command of the opcode table has its meaning, so nothing
raises this. -/
inductive Refusal where
  /-- Raised by `exec` for a command that has no meaning yet: by none at present. Safe. -/
  | notModelled (mnemonic : String)
  deriving DecidableEq, Repr

/-- The state after reset (10_state.md R48). The parameter is the spec's default `W = 2048`; the
model's own fields are empty or zero (log 10, DESIGN CHOICE, unsafe). -/
def State.reset : State where
  limbs := Config.defaultLimbs
  regs := Vector.replicate 16 ⟨0, false⟩
  busy := false
  done := false
  err := false
  rej := false
  prime := false
  z := false
  lt := false
  doneIe := false
  errIe := false
  errcode := 0#8
  errcmd := 0#32
  cmdreg := 0#32
  mrk := 40#16
  pbits := 0#16
  rng := []
  abandons := 0
  rdata := 0#32
  script := []

end Sys2Proof.Machine
end

