-- ==== Sys2Proof/Machine/Ops.lean ====
section
/-! DEFINITION. The named operations over the registers and the command life cycle: reading and
writing a big-integer register (10_state.md R22, R23), accepting a command (R44), ending one with
success (R45) or with an error (60_exceptions.md R272), and leaving the error state (R279). -/

namespace Sys2Proof.Machine

/-- `W`, the bits of one magnitude (00_scope.md R6). -/
def State.width (s : State) : Nat := Config.limbBits * s.limbs

/-- `val(r)` (10_state.md R22). -/
def BigReg.val (b : BigReg) : Int :=
  if b.mag = 0 then 0 else if b.neg then -(b.mag : Int) else (b.mag : Int)

/-- `val(r)` of a register of the state (10_state.md R22). -/
def State.val (s : State) (r : Reg) : Int := s.regs[r].val

/-- The register that holds `v` after `wr` (10_state.md R23): never negative zero. -/
def BigReg.ofInt (v : Int) : BigReg := ⟨v.natAbs, decide (v < 0)⟩

/-- `wr(r, v)` (10_state.md R23). -/
def State.wr (s : State) (r : Reg) (v : Int) : State :=
  { s with regs := s.regs.set r (BigReg.ofInt v) }

/-- `|v| < 2^W`, what `wr` requires (10_state.md R23, 40_addsub.md R131). -/
def State.fits (s : State) (v : Int) : Bool := decide (v.natAbs < 2 ^ s.width)

/-- The code of an error kind (60_exceptions.md R271). -/
def ErrKind.code : ErrKind → BitVec 8
  | .invalidParameter => 1#8
  | .noInverseExists => 2#8
  | .illegalCommand => 3#8
  | .overflow => 4#8

/-- `raise E`: the five assignments of 60_exceptions.md R272, nothing else. -/
def State.raise (s : State) (e : ErrKind) : State :=
  { s with errcode := e.code, errcmd := s.cmdreg, err := true, done := true, busy := false }

/-- The end of a successful completion (10_state.md R45). -/
def State.succeed (s : State) : State := { s with busy := false, done := true }

/-- Leaving the error state: what clearing `STATUS.ERR` does (60_exceptions.md R279, 10_state.md
R28). A write that finds `ERR = 0` leaves `ERRCODE` and `ERRCMD` alone. -/
def State.clearErr (s : State) : State :=
  if s.err then { s with err := false, errcode := 0#8, errcmd := 0#32 } else s

/-- Accepting a command word (10_state.md R44). It does not decode. -/
def State.accept (s : State) (d : Word) : State :=
  { s with cmdreg := d, busy := true, done := false }

/-- A refused host access (10_state.md R32). -/
def State.reject (s : State) : State := { s with rej := true }

/-- What a command's rule comes to, on the state it is evaluated in: results to commit, an error,
or not yet, because the random source has not delivered the words it needs (20_memory.md R84). -/
inductive Verdict where
  | commit (s : State)
  | error (e : ErrKind)
  | wait
  deriving DecidableEq, Repr

/-- The completion step around a command's verdict (10_state.md R45): all results together, or an
error and no result. A command whose words are not there has no completion step yet: nothing
changes and it stays in flight (log 9, DESIGN CHOICE, safe). -/
def settle (s : State) : Verdict → Host.Outcome State Fault Refusal
  | .commit t => .next t.succeed
  | .error e => .next (s.raise e)
  | .wait => .next s

/-- Write a result that may be too wide (40_addsub.md R131). -/
def writeChecked (s : State) (rd : Reg) (v : Int) : Verdict :=
  if s.fits v then .commit (s.wr rd v) else .error .overflow

end Sys2Proof.Machine
end

