-- ==== Sys2Proof/Machine/Flags.lean ====
section
/-! DEFINITION. The flags: the words of `STATUS`, `IE` and `SIGN` as the host reads them, what
writing them does (10_state.md R28, R37, R43), the flag results of `CMP`, `MRTEST` and `GENPRIME`
(R34, R35), and the interrupt line (R49). No command reads a flag (R27). -/

namespace Sys2Proof.Machine

/-- A word with one bit. -/
def bitAt (b : Bool) (i : Nat) : Word := if b then BitVec.twoPow 32 i else 0#32

/-- `{25'b0, LT, Z, PRIME, REJ, ERR, DONE, BUSY}` (10_state.md R28, 20_memory.md R62). -/
def State.statusWord (s : State) : Word :=
  bitAt s.busy 0 ||| bitAt s.done 1 ||| bitAt s.err 2 ||| bitAt s.rej 3 ||| bitAt s.prime 4
    ||| bitAt s.z 5 ||| bitAt s.lt 6

/-- `{29'b0, ERR_IE, DONE_IE, 1'b0}` (10_state.md R37, 20_memory.md R62). -/
def State.ieWord (s : State) : Word := bitAt s.doneIe 1 ||| bitAt s.errIe 2

/-- `{16'b0, R[15].neg, ..., R[0].neg}` (10_state.md R43). -/
def State.signWord (s : State) : Word :=
  bitAt s.regs[0].neg 0 ||| bitAt s.regs[1].neg 1 ||| bitAt s.regs[2].neg 2
    ||| bitAt s.regs[3].neg 3 ||| bitAt s.regs[4].neg 4 ||| bitAt s.regs[5].neg 5
    ||| bitAt s.regs[6].neg 6 ||| bitAt s.regs[7].neg 7 ||| bitAt s.regs[8].neg 8
    ||| bitAt s.regs[9].neg 9 ||| bitAt s.regs[10].neg 10 ||| bitAt s.regs[11].neg 11
    ||| bitAt s.regs[12].neg 12 ||| bitAt s.regs[13].neg 13 ||| bitAt s.regs[14].neg 14
    ||| bitAt s.regs[15].neg 15

/-- A host write to `STATUS` (10_state.md R28): `DONE`, `ERR` and `REJ` are cleared by a 1; the
write that clears `ERR` clears `ERRCODE` and `ERRCMD` with it. -/
def State.w1c (s : State) (d : Word) : State :=
  let t := if d.getLsbD 2 then s.clearErr else s
  { t with done := t.done && !d.getLsbD 1, rej := t.rej && !d.getLsbD 3 }

/-- A host write to `IE` (10_state.md R37). -/
def State.writeIe (s : State) (d : Word) : State :=
  { s with doneIe := d.getLsbD 1, errIe := d.getLsbD 2 }

/-- A host write to `SIGN` (10_state.md R43): all sixteen signs, no magnitude. -/
def State.writeSigns (s : State) (d : Word) : State :=
  { s with regs := Vector.ofFn fun r : Fin 16 => { s.regs[r] with neg := d.getLsbD r.val } }

/-- The flags of `CMP` (10_state.md R35, 40_addsub.md R136). -/
def State.compareFlags (s : State) (a b : Int) : State :=
  { s with z := decide (a = b), lt := decide (a < b) }

/-- The verdict flag (10_state.md R34). -/
def State.setPrime (s : State) (b : Bool) : State := { s with prime := b }

/-- The interrupt line (10_state.md R49, 60_exceptions.md R280). -/
def State.irq (s : State) : Bool := (s.done && s.doneIe) || (s.err && s.errIe)

end Sys2Proof.Machine
end

