-- ==== Sys2Proof/Machine/AddSub.lean ====
section
/-! DEFINITION. The adder/subtractor's commands (40_addsub.md): `NOP`, `ADD`, `SUB`, `CMP`,
`MUL`. -/

namespace Sys2Proof.Machine

/-- R130: nothing but the life cycle. -/
def execNop (s : State) : Host.Outcome State Fault Refusal :=
  settle s (.commit s)

/-- R132 -/
def execAdd (rd ra rb : Reg) (s : State) : Host.Outcome State Fault Refusal :=
  settle s (writeChecked s rd (s.val ra + s.val rb))

/-- R134 -/
def execSub (rd ra rb : Reg) (s : State) : Host.Outcome State Fault Refusal :=
  settle s (writeChecked s rd (s.val ra - s.val rb))

/-- R136 -/
def execCmp (ra rb : Reg) (s : State) : Host.Outcome State Fault Refusal :=
  settle s (.commit (s.compareFlags (s.val ra) (s.val rb)))

/-- R138 -/
def execMul (rd ra rb : Reg) (s : State) : Host.Outcome State Fault Refusal :=
  settle s (writeChecked s rd (s.val ra * s.val rb))

end Sys2Proof.Machine
end

