-- ==== Sys2Proof/Machine/Arith.lean ====
section
/-! DEFINITION. The arithmetic functions the commands compute: `bitlen` (00_scope.md R8), the
extended Euclidean algorithm (42_xgcd.md R170), Montgomery's product (41_reduction.md R153) and
square-and-multiply (43_modexp.md R191). All on exact integers (40_addsub.md R131). -/

namespace Sys2Proof.Machine

/-- The number of bits of `v`; `bitlen 0 = 0` (00_scope.md R8). -/
def bitlen (v : Nat) : Nat := if v = 0 then 0 else v.log2 + 1

/-- The recursion of 42_xgcd.md R170, with a bound on its depth (log 13, DEDUCED, safe). -/
def xgcdFuel : Nat → Nat → Nat → Nat × Int × Int
  | 0, a, _ => (a, 1, 0)
  | fuel + 1, a, b =>
    if b = 0 then (a, 1, 0)
    else
      let t := xgcdFuel fuel b (a % b)
      (t.1, t.2.2, t.2.1 - ((a / b : Nat) : Int) * t.2.2)

/-- `XGcd(a, b)`, that is `(g, x, y)` with `a·x + b·y = g` (42_xgcd.md R170). The second argument
falls at each call, so `b + 1` calls are enough (lemma `xgcdFuel_enough` of Laws/Arith.lean). -/
def xgcd (a b : Nat) : Nat × Int × Int := xgcdFuel (b + 1) a b

/-- `x mod m` for an inverse `x` of `a` that the Euclid unit finds (42_xgcd.md R175). -/
def inverseMod (a m : Nat) : Nat := ((xgcd a m).2.1 % (m : Int)).toNat

/-- `Rinv(N)`, the inverse of the Montgomery radix `R = 2^W` modulo an odd `N`
(41_reduction.md R153); 0 for `N = 1`. -/
def rinv (width n : Nat) : Nat := inverseMod (2 ^ width % n) n

/-- The Montgomery product `a · b · Rinv(N) mod N` (41_reduction.md R153, R154). -/
def montMul (width a b n : Nat) : Nat := a * b * rinv width n % n

/-- Into Montgomery form (41_reduction.md R156). -/
def montIn (width a n : Nat) : Nat := a * 2 ^ width % n

/-- Out of Montgomery form (41_reduction.md R157). -/
def montOut (width a n : Nat) : Nat := a * rinv width n % n

/-- The loop of 43_modexp.md R191 over the bits `i - 1` down to 0 of the exponent. -/
def modExpLoop (b e m : Nat) : Nat → Nat → Nat
  | 0, r => r
  | i + 1, r =>
    let sq := r * r % m
    modExpLoop b e m i (if e.testBit i then sq * b % m else sq)

/-- `ModExp(b, e, m)` (43_modexp.md R191). -/
def modExp (b e m : Nat) : Nat :=
  if m = 1 then 0 else modExpLoop (b % m) e m (bitlen e) 1

end Sys2Proof.Machine
end

