-- ==== Sys2Proof/Machine/Operands.lean ====
section
/-! DEFINITION. The operand domains: every cause of `InvalidParameter` (60_exceptions.md R273),
and the limbs a register is loaded and read by (20_memory.md R64, R65). -/

namespace Sys2Proof.Machine

/-- `val(ra)`, `val(rb)` not negative and a modulus of at least 1: `BRED` and `MODEXP`. -/
def reduceDomain (a b n : Int) : Bool := decide (0 ≤ a ∧ 0 ≤ b ∧ 1 ≤ n)

/-- A Montgomery modulus: at least 1 and odd. -/
def montModulus (n : Int) : Bool := decide (1 ≤ n ∧ n % 2 = 1)

/-- A reduced Montgomery factor. -/
def reduced (a n : Int) : Bool := decide (0 ≤ a ∧ a < n)

/-- `BRED rd, ra, rb, rc` -/
def bredDomain (hi lo n : Int) : Bool := reduceDomain hi lo n

/-- `MONTMUL rd, ra, rb, rc` -/
def montmulDomain (a b n : Int) : Bool := montModulus n && reduced a n && reduced b n

/-- `MONTIN rd, ra, rc` -/
def montinDomain (a n : Int) : Bool := montModulus n && decide (0 ≤ a)

/-- `MONTOUT rd, ra, rc` -/
def montoutDomain (a n : Int) : Bool := montModulus n && reduced a n

/-- `MODEXP rd, ra, rb, rc` -/
def modexpDomain (b e m : Int) : Bool := reduceDomain b e m

/-- `XGCD rd, rx, ry, ra, rb` -/
def xgcdDomain (a b : Int) : Bool := decide (0 ≤ a ∧ 0 ≤ b)

/-- `MODINV rd, ra, rc` -/
def modinvDomain (a m : Int) : Bool := decide (0 ≤ a ∧ 1 ≤ m)

/-- `GENPRIME rd` -/
def genprimeDomain (bits width : Nat) : Bool := decide (2 ≤ bits ∧ bits ≤ width)

/-- Limb `i` of a magnitude: bits `32 i + 31` down to `32 i` (20_memory.md R64, R65). -/
def limbOf (mag i : Nat) : Word := BitVec.ofNat 32 (mag / 2 ^ (32 * i))

/-- A magnitude with limb `i` replaced and every other limb kept (10_state.md R25). -/
def setLimb (mag i : Nat) (d : Word) : Nat :=
  mag / 2 ^ (32 * (i + 1)) * 2 ^ (32 * (i + 1)) + d.toNat * 2 ^ (32 * i) + mag % 2 ^ (32 * i)

end Sys2Proof.Machine
end

