-- ==== Sys2Proof/WellFormed.lean ====
section
/-! DEFINITION. Which commands are legal (30_encoding.md R104): any register may stand in any
field (10_state.md R24), but the three destinations of `XGCD` must be pairwise distinct. -/

namespace Sys2Proof

/-- Pairwise distinct destinations (30_encoding.md R104, 42_xgcd.md R171). -/
def distinctDests (rd rx ry : Reg) : Bool :=
  rd != rx && rd != ry && rx != ry

/-- The commands that have an encoding. -/
def Instr.wf : Instr → Bool
  | .nop => true
  | .add _ _ _ => true
  | .sub _ _ _ => true
  | .cmp _ _ => true
  | .mul _ _ _ => true
  | .bred _ _ _ _ => true
  | .montmul _ _ _ _ => true
  | .montin _ _ _ => true
  | .montout _ _ _ => true
  | .modexp _ _ _ _ => true
  | .xgcd rd rx ry _ _ => distinctDests rd rx ry
  | .modinv _ _ _ => true
  | .mrtest _ => true
  | .genprime _ => true

end Sys2Proof
end

