-- ==== Sys2Proof/Machine/Euclid.lean ====
section
/-! DEFINITION. The extended Euclidean GCD unit's commands (42_xgcd.md): `XGCD`, `MODINV`. -/

namespace Sys2Proof.Machine

/-- R171: all three results together; none can overflow (R172). Equal destinations are an illegal
word, found before the operands are looked at (30_encoding.md R104, 60_exceptions.md R277): the
decoder never gives such an `XGCD`, and its meaning is that same error. -/
def execXgcd (rd rx ry ra rb : Reg) (s : State) : Host.Outcome State Fault Refusal :=
  settle s <|
    if distinctDests rd rx ry then
      if xgcdDomain (s.val ra) (s.val rb) then
        let t := xgcd (s.val ra).toNat (s.val rb).toNat
        .commit (((s.wr rd (t.1 : Nat)).wr rx t.2.1).wr ry t.2.2)
      else .error .invalidParameter
    else .error .illegalCommand

/-- R175: the domain check comes before the gcd's (60_exceptions.md R277). -/
def execModinv (rd ra rc : Reg) (s : State) : Host.Outcome State Fault Refusal :=
  settle s <|
    if modinvDomain (s.val ra) (s.val rc) then
      if (xgcd (s.val ra).toNat (s.val rc).toNat).1 = 1 then
        .commit (s.wr rd (inverseMod (s.val ra).toNat (s.val rc).toNat : Nat))
      else .error .noInverseExists
    else .error .invalidParameter

end Sys2Proof.Machine
end

