-- ==== Sys2Proof/Machine/Exponent.lean ====
section
/-! DEFINITION. The modular exponentiation engine's command (43_modexp.md): `MODEXP`. -/

namespace Sys2Proof.Machine

/-- R190 -/
def execModexp (rd ra rb rc : Reg) (s : State) : Host.Outcome State Fault Refusal :=
  settle s <|
    if modexpDomain (s.val ra) (s.val rb) (s.val rc) then
      .commit (s.wr rd (modExp (s.val ra).toNat (s.val rb).toNat (s.val rc).toNat : Nat))
    else .error .invalidParameter

end Sys2Proof.Machine
end

