-- ==== Sys2Proof/Machine/Random.lean ====
section
/-! DEFINITION. Draws from the random source (20_memory.md R80 to R82). A draw takes the words
that are ready, in order, and gives its result with the words left over; it gives `none` where the
words run out, and then nothing is consumed (log 3, DESIGN CHOICE, safe). -/

namespace Sys2Proof.Machine

/-- A draw: its result and the words left, or `none` where more words are needed. -/
abbrev Draw (α : Type) := Option (α × List Word)

/-- `RandWord()` (20_memory.md R80). -/
def randWord : List Word → Draw Word
  | [] => none
  | w :: ws => some (w, ws)

/-- How many words `RandBits(n)` takes (20_memory.md R81). -/
def wordsFor (n : Nat) : Nat := (n + 31) / 32

/-- The integer of some words, the first drawn least significant (20_memory.md R81). -/
def wordsValue : List Word → Nat
  | [] => 0
  | w :: ws => w.toNat + 2 ^ 32 * wordsValue ws

/-- `RandBits(n)` (20_memory.md R81). -/
def randBits (n : Nat) (ws : List Word) : Draw Nat :=
  if ws.length < wordsFor n then none
  else some (wordsValue (ws.take (wordsFor n)) % 2 ^ n, ws.drop (wordsFor n))

/-- The rejection loop of `RandRange` (20_memory.md R82). Each pass takes a word or more, so
passes beyond the number of words at hand cannot happen (log 13, DEDUCED, safe). -/
def randRangeLoop (lo span nb : Nat) : Nat → List Word → Draw Nat
  | 0, _ => none
  | fuel + 1, ws =>
    match randBits nb ws with
    | none => none
    | some (v, rest) =>
      if v < span then some (lo + v, rest) else randRangeLoop lo span nb fuel rest

/-- `RandRange(lo, hi)`, for `lo ≤ hi` (20_memory.md R82). -/
def randRange (lo hi : Nat) (ws : List Word) : Draw Nat :=
  if hi - lo + 1 = 1 then some (lo, ws)
  else randRangeLoop lo (hi - lo + 1) (bitlen (hi - lo)) (ws.length + 1) ws

end Sys2Proof.Machine
end

