-- ==== Sys2Proof/Machine/MillerRabin.lean ====
section
/-! DEFINITION. The functions of the primality kernel (44_primality.md R200 to R207) and of the
prime generator (45_primegen.md R221), as draws. -/

namespace Sys2Proof.Machine

/-- `SMALL`, the primes up to 29 (00_scope.md R6, 44_primality.md R201). -/
def smallPrimes : List Nat := [2, 3, 5, 7, 11, 13, 17, 19, 23, 29]

/-- The sieve (44_primality.md R202): decided by the first small prime that divides `n`, or not
decided. -/
def sieve (n : Nat) : Option Bool :=
  (smallPrimes.find? fun p => n % p == 0).map fun p => n == p

/-- The loop of 44_primality.md R203, with a bound on its passes (log 13, DEDUCED, safe). -/
def halve : Nat → Nat → Nat → Nat × Nat
  | 0, d, s => (s, d)
  | fuel + 1, d, s => if d % 2 = 0 then halve fuel (d / 2) (s + 1) else (s, d)

/-- `(s, d)` with `n - 1 = 2^s · d` and `d` odd (44_primality.md R203). -/
def decompose (n : Nat) : Nat × Nat := halve (bitlen (n - 1)) (n - 1) 0

/-- The squarings of a round: does `x`, squared up to `k` times, reach `n - 1`
(44_primality.md R204)? -/
def squarings (n : Nat) : Nat → Nat → Bool
  | 0, _ => false
  | k + 1, x =>
    let y := x * x % n
    if y = n - 1 then true else squarings n k y

/-- A round with the base `a` given: `true` for pass (44_primality.md R204). -/
def roundPasses (n s d a : Nat) : Bool :=
  let x := modExp a d n
  if x = 1 ∨ x = n - 1 then true else squarings n (s - 1) x

/-- One round (44_primality.md R204). -/
def mrRound (n s d : Nat) (ws : List Word) : Draw Bool :=
  match randRange 2 (n - 2) ws with
  | none => none
  | some (a, rest) => some (roundPasses n s d a, rest)

/-- `k` rounds, stopping at the first that fails (44_primality.md R205, R207). -/
def mrRounds (n s d : Nat) : Nat → List Word → Draw Bool
  | 0, ws => some (true, ws)
  | k + 1, ws =>
    match mrRound n s d ws with
    | none => none
    | some (false, rest) => some (false, rest)
    | some (true, rest) => mrRounds n s d k rest

/-- `MillerRabin(n, k)` (44_primality.md R207). -/
def millerRabin (n : Int) (k : Nat) (ws : List Word) : Draw Bool :=
  if n < 2 then some (false, ws)
  else
    match sieve n.toNat with
    | some verdict => some (verdict, ws)
    | none => mrRounds n.toNat (decompose n.toNat).1 (decompose n.toNat).2 k ws

/-- A candidate: the drawn bits with the top bit and bit 0 forced (45_primegen.md R221). -/
def candidate (bits drawn : Nat) : Nat := drawn ||| 2 ^ (bits - 1) ||| 1

/-- The generator's loop (45_primegen.md R221). Each candidate takes a word or more, so candidates
beyond the number of words at hand cannot happen (log 13, DEDUCED, safe). It ends by an accepted
candidate only (R224). -/
def genPrimeLoop (bits k : Nat) : Nat → List Word → Draw Nat
  | 0, _ => none
  | fuel + 1, ws =>
    match randBits bits ws with
    | none => none
    | some (drawn, rest) =>
      match millerRabin (candidate bits drawn : Nat) k rest with
      | none => none
      | some (true, rest') => some (candidate bits drawn, rest')
      | some (false, rest') => genPrimeLoop bits k fuel rest'

/-- The accepted candidate and the words left (45_primegen.md R221, R223), for `bits ≥ 2`. -/
def genPrime (bits k : Nat) (ws : List Word) : Draw Nat :=
  genPrimeLoop bits k (ws.length + 1) ws

end Sys2Proof.Machine
end

