-- ==== Sys2Proof/Machine/Primality.lean ====
section
/-! DEFINITION. The commands that draw random words: `MRTEST` (44_primality.md R206) and
`GENPRIME` (45_primegen.md R221), and how many words they take. -/

namespace Sys2Proof.Machine

/-- What `MRTEST ra` draws in a state (44_primality.md R206); `MRK` cannot have changed since
accept (10_state.md R45). -/
def State.testDraw (s : State) (ra : Reg) : Draw Bool := millerRabin (s.val ra) s.mrk.toNat s.rng

/-- What `GENPRIME` draws in a state (45_primegen.md R221). -/
def State.primeDraw (s : State) : Draw Nat := genPrime s.pbits.toNat s.mrk.toNat s.rng

/-- R206: the verdict goes to `PRIME`; no register is written and nothing is raised. -/
def execMrtest (ra : Reg) (s : State) : Host.Outcome State Fault Refusal :=
  settle s <|
    match s.testDraw ra with
    | none => .wait
    | some (verdict, rest) => .commit ({ s with rng := rest }.setPrime verdict)

/-- R221: the parameter check comes before any draw. -/
def execGenprime (rd : Reg) (s : State) : Host.Outcome State Fault Refusal :=
  settle s <|
    if genprimeDomain s.pbits.toNat s.width then
      match s.primeDraw with
      | none => .wait
      | some (c, rest) => .commit (({ s with rng := rest }.wr rd (c : Nat)).setPrime true)
    else .error .invalidParameter

/-- The words a draw took, or all that are ready where it needs more. -/
def drawTaken {α : Type} (ws : List Word) : Draw α → Nat
  | none => ws.length
  | some (_, rest) => ws.length - rest.length

/-- How many of the ready words a command takes, at most, before it completes: what
70_reset_and_hazards.md R311 bounds the words of an abandoned command by. -/
def drawBound (i : Instr) (s : State) : Nat :=
  match i with
  | .mrtest ra => drawTaken s.rng (s.testDraw ra)
  | .genprime _ =>
    if genprimeDomain s.pbits.toNat s.width then drawTaken s.rng s.primeDraw else 0
  | .nop => 0
  | .add _ _ _ => 0
  | .sub _ _ _ => 0
  | .cmp _ _ => 0
  | .mul _ _ _ => 0
  | .bred _ _ _ _ => 0
  | .montmul _ _ _ _ => 0
  | .montin _ _ _ => 0
  | .montout _ _ _ => 0
  | .modexp _ _ _ _ => 0
  | .xgcd _ _ _ _ _ => 0
  | .modinv _ _ _ => 0

/-- Is a command waiting for words that are not there (20_memory.md R84)? -/
def waits (i : Instr) (s : State) : Bool :=
  match i with
  | .mrtest ra => (s.testDraw ra).isNone
  | .genprime _ => genprimeDomain s.pbits.toNat s.width && s.primeDraw.isNone
  | .nop => false
  | .add _ _ _ => false
  | .sub _ _ _ => false
  | .cmp _ _ => false
  | .mul _ _ _ => false
  | .bred _ _ _ _ => false
  | .montmul _ _ _ _ => false
  | .montin _ _ _ => false
  | .montout _ _ _ => false
  | .modexp _ _ _ _ => false
  | .xgcd _ _ _ _ _ => false
  | .modinv _ _ _ => false

/-- Does a command need a random word, offered or not, before it can complete (20_memory.md R80)? -/
def needsWords (i : Instr) (s : State) : Bool := waits i s || decide (0 < drawBound i s)

end Sys2Proof.Machine
end

