-- ==== Sys2Proof/Machine/Reduction.lean ====
section
/-! DEFINITION. The reducers' commands (41_reduction.md): `BRED`, `MONTMUL`, `MONTIN`,
`MONTOUT`. Their results are below the modulus, so none can overflow. -/

namespace Sys2Proof.Machine

/-- R151 -/
def execBred (rd ra rb rc : Reg) (s : State) : Host.Outcome State Fault Refusal :=
  settle s <|
    if bredDomain (s.val ra) (s.val rb) (s.val rc) then
      .commit (s.wr rd ((s.val ra * 2 ^ s.width + s.val rb) % s.val rc))
    else .error .invalidParameter

/-- R154 -/
def execMontmul (rd ra rb rc : Reg) (s : State) : Host.Outcome State Fault Refusal :=
  settle s <|
    if montmulDomain (s.val ra) (s.val rb) (s.val rc) then
      .commit (s.wr rd
        (montMul s.width (s.val ra).toNat (s.val rb).toNat (s.val rc).toNat : Nat))
    else .error .invalidParameter

/-- R156 -/
def execMontin (rd ra rc : Reg) (s : State) : Host.Outcome State Fault Refusal :=
  settle s <|
    if montinDomain (s.val ra) (s.val rc) then
      .commit (s.wr rd (montIn s.width (s.val ra).toNat (s.val rc).toNat : Nat))
    else .error .invalidParameter

/-- R157 -/
def execMontout (rd ra rc : Reg) (s : State) : Host.Outcome State Fault Refusal :=
  settle s <|
    if montoutDomain (s.val ra) (s.val rc) then
      .commit (s.wr rd (montOut s.width (s.val ra).toNat (s.val rc).toNat : Nat))
    else .error .invalidParameter

end Sys2Proof.Machine
end

