-- ==== Sys2Proof/Machine/Dispatch.lean ====
section
/-! DEFINITION. One arm per command: the completion step of a decoded command (10_state.md R45). -/

namespace Sys2Proof.Machine

/-- The completion of the command `i` in the state `s`. -/
def exec (i : Instr) (s : State) : Host.Outcome State Fault Refusal :=
  match i with
  | .nop => Sys2Proof.Machine.execNop s
  | .add rd ra rb => Sys2Proof.Machine.execAdd rd ra rb s
  | .sub rd ra rb => Sys2Proof.Machine.execSub rd ra rb s
  | .cmp ra rb => Sys2Proof.Machine.execCmp ra rb s
  | .mul rd ra rb => Sys2Proof.Machine.execMul rd ra rb s
  | .bred rd ra rb rc => Sys2Proof.Machine.execBred rd ra rb rc s
  | .montmul rd ra rb rc => Sys2Proof.Machine.execMontmul rd ra rb rc s
  | .montin rd ra rc => Sys2Proof.Machine.execMontin rd ra rc s
  | .montout rd ra rc => Sys2Proof.Machine.execMontout rd ra rc s
  | .modexp rd ra rb rc => Sys2Proof.Machine.execModexp rd ra rb rc s
  | .xgcd rd rx ry ra rb => Sys2Proof.Machine.execXgcd rd rx ry ra rb s
  | .modinv rd ra rc => Sys2Proof.Machine.execModinv rd ra rc s
  | .mrtest ra => Sys2Proof.Machine.execMrtest ra s
  | .genprime rd => Sys2Proof.Machine.execGenprime rd s

end Sys2Proof.Machine
end

