-- ==== Sys2Proof/Decode.lean ====
section
/-! DEFINITION. The command word (30_encoding.md R101), the formats and the opcode map (R102,
R105), the decoder (R104) and the encoder (R120). -/

namespace Sys2Proof

/-- The seven fields of a command word (30_encoding.md R101). -/
def opOf (w : Word) : BitVec 8 := w.extractLsb' 24 8
def rdOf (w : Word) : Reg := (w.extractLsb' 20 4).toFin
def raOf (w : Word) : Reg := (w.extractLsb' 16 4).toFin
def rbOf (w : Word) : Reg := (w.extractLsb' 12 4).toFin
def rcOf (w : Word) : Reg := (w.extractLsb' 8 4).toFin
def rxOf (w : Word) : Reg := (w.extractLsb' 4 4).toFin
def ryOf (w : Word) : Reg := (w.extractLsb' 0 4).toFin

/-- The eight formats (30_encoding.md R102). -/
inductive Format where
  | z | d | a | ab | dab | dac | dabc | dabxy
  deriving DecidableEq, Repr

/-- The bits a format fixes: the opcode and the fields it does not use (30_encoding.md R102). -/
def Format.mask : Format → Word
  | .z => 0xFFFFFFFF#32
  | .d => 0xFF0FFFFF#32
  | .a => 0xFFF0FFFF#32
  | .ab => 0xFFF00FFF#32
  | .dab => 0xFF000FFF#32
  | .dac => 0xFF00F0FF#32
  | .dabc => 0xFF0000FF#32
  | .dabxy => 0xFF000F00#32

/-- One row of the opcode map: its format, and the command read from the fields. -/
structure OpRow where
  format : Format
  build : Word → Instr

/-- The opcode map (30_encoding.md R105); `none` for the 242 values that are no command's. -/
def opRow (op : BitVec 8) : Option OpRow :=
  match op.toNat with
  | 0x00 => some ⟨.z, fun _ => .nop⟩
  | 0x01 => some ⟨.dab, fun w => .add (rdOf w) (raOf w) (rbOf w)⟩
  | 0x02 => some ⟨.dab, fun w => .sub (rdOf w) (raOf w) (rbOf w)⟩
  | 0x03 => some ⟨.ab, fun w => .cmp (raOf w) (rbOf w)⟩
  | 0x04 => some ⟨.dab, fun w => .mul (rdOf w) (raOf w) (rbOf w)⟩
  | 0x10 => some ⟨.dabc, fun w => .bred (rdOf w) (raOf w) (rbOf w) (rcOf w)⟩
  | 0x11 => some ⟨.dabc, fun w => .montmul (rdOf w) (raOf w) (rbOf w) (rcOf w)⟩
  | 0x12 => some ⟨.dac, fun w => .montin (rdOf w) (raOf w) (rcOf w)⟩
  | 0x13 => some ⟨.dac, fun w => .montout (rdOf w) (raOf w) (rcOf w)⟩
  | 0x20 => some ⟨.dabc, fun w => .modexp (rdOf w) (raOf w) (rbOf w) (rcOf w)⟩
  | 0x30 => some ⟨.dabxy, fun w => .xgcd (rdOf w) (rxOf w) (ryOf w) (raOf w) (rbOf w)⟩
  | 0x31 => some ⟨.dac, fun w => .modinv (rdOf w) (raOf w) (rcOf w)⟩
  | 0x40 => some ⟨.a, fun w => .mrtest (raOf w)⟩
  | 0x41 => some ⟨.d, fun w => .genprime (rdOf w)⟩
  | _ => none

/-- The three kinds of illegal word (30_encoding.md R106). Each raises `IllegalCommand`. -/
inductive DecodeError where
  /-- R106 item 1: the opcode is no command's -/
  | unknownOpcode
  /-- R106 item 2: a bit of a field the format does not use is 1 -/
  | unusedFieldNotZero
  /-- R106 item 3: `XGCD` with two equal destinations -/
  | equalDestinations
  deriving DecidableEq, Repr

/-- The opcode's own bits of a word: `match` of 30_encoding.md R105 for that opcode. -/
def matchWord (op : BitVec 8) : Word := op ++ 0#24

/-- `Decode(w)` of 30_encoding.md R104, its checks in the order written there. Total. -/
def decode (w : Word) : Except DecodeError Instr :=
  match opRow (opOf w) with
  | none => .error .unknownOpcode
  | some row =>
    if w &&& row.format.mask = matchWord (opOf w) then
      if (row.build w).wf then .ok (row.build w) else .error .equalDestinations
    else .error .unusedFieldNotZero

/-- `{op, rd, ra, rb, rc, rx, ry}` (30_encoding.md R101, R120). -/
def packWord (op : BitVec 8) (rd ra rb rc rx ry : Reg) : Word :=
  op ++ BitVec.ofFin (w := 4) rd ++ BitVec.ofFin (w := 4) ra ++ BitVec.ofFin (w := 4) rb
    ++ BitVec.ofFin (w := 4) rc ++ BitVec.ofFin (w := 4) rx ++ BitVec.ofFin (w := 4) ry

/-- The word of a command (30_encoding.md R120). -/
def encode : Instr → Word
  | .nop => packWord 0x00#8 0 0 0 0 0 0
  | .add rd ra rb => packWord 0x01#8 rd ra rb 0 0 0
  | .sub rd ra rb => packWord 0x02#8 rd ra rb 0 0 0
  | .cmp ra rb => packWord 0x03#8 0 ra rb 0 0 0
  | .mul rd ra rb => packWord 0x04#8 rd ra rb 0 0 0
  | .bred rd ra rb rc => packWord 0x10#8 rd ra rb rc 0 0
  | .montmul rd ra rb rc => packWord 0x11#8 rd ra rb rc 0 0
  | .montin rd ra rc => packWord 0x12#8 rd ra 0 rc 0 0
  | .montout rd ra rc => packWord 0x13#8 rd ra 0 rc 0 0
  | .modexp rd ra rb rc => packWord 0x20#8 rd ra rb rc 0 0
  | .xgcd rd rx ry ra rb => packWord 0x30#8 rd ra rb 0 rx ry
  | .modinv rd ra rc => packWord 0x31#8 rd ra 0 rc 0 0
  | .mrtest ra => packWord 0x40#8 0 ra 0 0 0 0
  | .genprime rd => packWord 0x41#8 rd 0 0 0 0 0

/-- The decoder on an opcode-table row's word: every command is one 32-bit word (30_encoding.md
R100), its bits numbered as the table numbers them. -/
def decodeTableWord (nbits w : Nat) : Option Instr :=
  if nbits ≤ 32 ∧ w < 2 ^ 32 then (decode (BitVec.ofNat 32 w)).toOption else none

end Sys2Proof
end

