-- ==== Sys2Proof/Machine/HostPort.lean ====
section
/-! DEFINITION. The register space (20_memory.md): the address map (R61, R64), the host's read
(R62) and write (R63), and the two resets (70_reset_and_hazards.md R310 to R312). -/

namespace Sys2Proof.Machine

/-- What stands at an address of the register space (20_memory.md R61). -/
inductive Loc where
  | id | cap | ctrl | status | ie | errcode | errcmd | cmd | mrk | pbits | sign
  | limb (r : Reg) (i : Nat)
  | reserved
  deriving DecidableEq, Repr

/-- The byte offset of a word index (20_memory.md R66). -/
def offsetOf (addr : BitVec 15) : Nat := 4 * addr.toNat

/-- The address on the platform's bus (20_memory.md R61). No rule depends on it. -/
def busAddress (addr : BitVec 15) : Nat := Config.base + offsetOf addr

/-- The address map of 20_memory.md R61, by byte offset, for registers of `limbs` limbs. -/
def locateOffset (limbs off : Nat) : Loc :=
  if off = 0x00000 then .id
  else if off = 0x00004 then .cap
  else if off = 0x00008 then .ctrl
  else if off = 0x0000C then .status
  else if off = 0x00010 then .ie
  else if off = 0x00014 then .errcode
  else if off = 0x00018 then .errcmd
  else if off = 0x0001C then .cmd
  else if off = 0x00020 then .mrk
  else if off = 0x00024 then .pbits
  else if off = 0x00028 then .sign
  else if off < 0x10000 then .reserved
  else if off % 0x1000 / 4 < limbs then
    .limb (Fin.ofNat 16 ((off - 0x10000) / 0x1000)) (off % 0x1000 / 4)
  else .reserved

/-- What an access of the port reaches. -/
def State.locate (s : State) (addr : BitVec 15) : Loc := locateOffset s.limbs (offsetOf addr)

/-- `ID` (10_state.md R33): the bytes "MONT". -/
def idWord : Word := 0x4D4F4E54#32

/-- `CAP` (10_state.md R33): `{rev = 1, nreg = 16, w = W mod 65536}`. -/
def State.capWord (s : State) : Word := 0x01#8 ++ 0x10#8 ++ BitVec.ofNat 16 s.width

/-- The word `HostRead` returns from a location (20_memory.md R62). -/
def State.readWord (s : State) : Loc → Word
  | .id => idWord
  | .cap => s.capWord
  | .ctrl => 0#32
  | .status => s.statusWord
  | .ie => s.ieWord
  | .errcode => s.errcode.setWidth 32
  | .errcmd => s.errcmd
  | .cmd => s.cmdreg
  | .mrk => s.mrk.setWidth 32
  | .pbits => s.pbits.setWidth 32
  | .sign => s.signWord
  | .limb r i => if s.busy then 0#32 else limbOf s.regs[r].mag i
  | .reserved => 0#32

/-- The one side effect a read has: a window read while busy sets `REJ` (20_memory.md R62). -/
def State.readEffect (s : State) : Loc → State
  | .id => s
  | .cap => s
  | .ctrl => s
  | .status => s
  | .ie => s
  | .errcode => s
  | .errcmd => s
  | .cmd => s
  | .mrk => s
  | .pbits => s
  | .sign => s
  | .limb _ _ => if s.busy then s.reject else s
  | .reserved => s

/-- `HostRead` (20_memory.md R62); its word is the port's `rdata` afterwards. -/
def hostRead (addr : BitVec 15) (s : State) : State :=
  { s.readEffect (s.locate addr) with rdata := s.readWord (s.locate addr) }

/-- The state reset leaves (10_state.md R48), in a machine whose width, random source, port and
surroundings go on (70_reset_and_hazards.md R311: the random source is not rewound). -/
def State.cleared (s : State) : State :=
  { State.reset with
    limbs := s.limbs, rng := s.rng, abandons := s.abandons, rdata := s.rdata, script := s.script }

/-- How many words the command in flight has to its account at most
(70_reset_and_hazards.md R311). -/
def State.inFlightBound (s : State) : Nat :=
  if s.busy then
    match decode s.cmdreg with
    | .ok i => drawBound i s
    | .error _ => 0
  else 0

/-- The random words an abandoned command had consumed are lost: any number up to its bound, a
free value (70_reset_and_hazards.md R311, 93 V8; log 4, DESIGN CHOICE, safe). -/
def State.loseWords (s : State) : State :=
  if s.inFlightBound = 0 then s
  else
    { s with
      rng := s.rng.drop (Config.abandonedWords s.abandons % (s.inFlightBound + 1))
      abandons := s.abandons + 1 }

/-- `SoftReset()` and the hard reset: the same state change (70_reset_and_hazards.md R310, R312). -/
def State.resetBlock (s : State) : State := s.loseWords.cleared

/-- A write that needs an idle block (10_state.md R32): `f` while idle, refused while busy. -/
def State.whenIdle (s : State) (t : State) : State := if s.busy then s.reject else t

/-- A host write of one limb: that limb only, not the sign (10_state.md R25). -/
def State.writeLimb (s : State) (r : Reg) (i : Nat) (d : Word) : State :=
  { s with regs := s.regs.set r { s.regs[r] with mag := setLimb s.regs[r].mag i d } }

/-- A write to `CMD` (10_state.md R44): accepted while `BUSY = 0` and `ERR = 0`, else refused. -/
def State.writeCmd (s : State) (d : Word) : State :=
  if !s.busy && !s.err then s.accept d else s.reject

/-- What `HostWrite` does at a location (20_memory.md R63). -/
def State.writeLoc (s : State) (d : Word) : Loc → State
  | .id => s
  | .cap => s
  | .ctrl => if d.getLsbD 0 then s.resetBlock else s
  | .status => s.w1c d
  | .ie => s.writeIe d
  | .errcode => s
  | .errcmd => s
  | .cmd => s.writeCmd d
  | .mrk => s.whenIdle { s with mrk := d.setWidth 16 }
  | .pbits => s.whenIdle { s with pbits := d.setWidth 16 }
  | .sign => s.whenIdle (s.writeSigns d)
  | .limb r i => s.whenIdle (s.writeLimb r i d)
  | .reserved => s

/-- `HostWrite` (20_memory.md R63). -/
def hostWrite (addr : BitVec 15) (d : Word) (s : State) : State := s.writeLoc d (s.locate addr)

/-- One host access (20_memory.md R62, R63). -/
def hostAccess (a : HostAccess) (s : State) : State :=
  match a with
  | .read addr => hostRead addr s
  | .write addr d => hostWrite addr d s

/-- The hard reset, with the access presented while `rst` is 1: it is ignored, and a read returns
0 (70_reset_and_hazards.md R310). -/
def hardReset (presented : Option HostAccess) (s : State) : State :=
  match presented with
  | some (.read _) => { s.resetBlock with rdata := 0#32 }
  | some (.write _ _) => s.resetBlock
  | none => s.resetBlock

end Sys2Proof.Machine
end

