-- ==== Sys2Proof/Machine/Engine.lean ====
section
/-! DEFINITION. The engine's completion step (10_state.md R45), the agents' turns (00_scope.md
R7), and the placing of a command where the next step completes it. -/

namespace Sys2Proof.Machine

/-- The completion of the command in `CMDREG` (10_state.md R45): decode (30_encoding.md R104),
then its rule; an illegal word raises `IllegalCommand` and nothing else (R106). -/
def completeCommand (s : State) : Host.Outcome State Fault Refusal :=
  match decode s.cmdreg with
  | .ok i => exec i s
  | .error _ => .next (s.raise .illegalCommand)

/-- The engine's turn: the completion while `BUSY = 1`; an idle block does nothing
(10_state.md R45, 60_exceptions.md R289). -/
def engineTurn (s : State) : Host.Outcome State Fault Refusal :=
  if s.busy then completeCommand s else .next s

/-- What one event does. -/
def happens (e : Event) (s : State) : Host.Outcome State Fault Refusal :=
  match e with
  | .host a => .next (hostAccess a s)
  | .engine => engineTurn s
  | .source w => .next { s with rng := s.rng ++ [w] }
  | .reset presented => .next (hardReset presented s)

/-- The next event of the script, or the engine's turn where nothing is scheduled
(log 2, DESIGN CHOICE, safe). -/
def turn (s : State) : Host.Outcome State Fault Refusal :=
  match s.script with
  | [] => engineTurn s
  | e :: rest => happens e { s with script := rest }

/-- The widths of 00_scope.md R6: `64 ≤ W ≤ 32768`, a multiple of 32. -/
def State.legalWidth (s : State) : Bool :=
  decide (Config.minLimbs ≤ s.limbs ∧ s.limbs ≤ Config.maxLimbs)

/-- One step of the machine. -/
def stepBlock (s : State) : Host.Outcome State Fault Refusal :=
  if s.legalWidth then turn s else .fault .illegalWidth

/-- The state right after a command word was accepted, with the engine to move
(log 8, DESIGN CHOICE, safe). -/
def placeCommand (s : State) (d : Word) : State :=
  { s.accept d with script := .engine :: s.script }

/-- `rng_req` (10_state.md R50, "the engine wants a random word"). DESIGN CHOICE (log 17). Safe. The
rule does not say whether it is high while enough words are offered already: here it is high for as
long as the command in flight needs a word to complete, offered or not, so a step that consumes
words finds it high. -/
def State.rngReq (s : State) : Bool :=
  s.busy &&
    match decode s.cmdreg with
    | .ok i => needsWords i s
    | .error _ => false

end Sys2Proof.Machine
end

