-- ==== Sys2Proof/Machine/Step.lean ====
section
/-! DEFINITION. One step of the machine, and the placing of an opcode-table word. -/

namespace Sys2Proof.Machine

/-- One step: the next event, of whichever agent (20_memory.md R71). -/
def step (s : State) : Host.Outcome State Fault Refusal := stepBlock s

/-- The state in which the command word `w` has just been accepted and the engine moves next
(log 8, DESIGN CHOICE, safe). Every command is one 32-bit word (30_encoding.md R100). -/
def State.withFetchWord (s : State) (_nbits w : Nat) : State :=
  placeCommand s (BitVec.ofNat 32 w)

end Sys2Proof.Machine
end

