-- ==== Sys2Proof/Machine/HostScript.lean ====
section
/-! DEFINITION. The host's software over the block's accesses: the pseudo-operations `LDR` and
`RDR` (20_memory.md R74), `Run(C)` and `WAIT` (46_host_procedures.md R230, 30_encoding.md R122),
and the script notation (R122). It is software, not hardware (46 R230; log 12, DESIGN CHOICE):
it changes the block only by `hostRead`, `hostWrite` and the engine's turns. -/

namespace Sys2Proof.Machine

/-- The word index of a byte offset (20_memory.md R61, R66). -/
def wordIndex (off : Nat) : BitVec 15 := BitVec.ofNat 15 (off / 4)

/-- The byte offset of limb `i` of register `r` (20_memory.md R64). -/
def limbOffset (r : Reg) (i : Nat) : Nat := 0x10000 + 0x1000 * r.val + 4 * i

/-- The limb writes of `LDR`, limbs `i` on, `n` of them (20_memory.md R74). -/
def loadLimbs (r : Reg) (mag : Nat) : Nat → Nat → State → State
  | 0, _, s => s
  | n + 1, i, s =>
    loadLimbs r mag n (i + 1) (hostWrite (wordIndex (limbOffset r i)) (limbOf mag i) s)

/-- `s with bit r set to b` (20_memory.md R74). -/
def putBit (w : Word) (r : Reg) (b : Bool) : Word :=
  (w &&& ~~~ BitVec.twoPow 32 r.val) ||| bitAt b r.val

/-- `LDR r, v` (20_memory.md R74), for `|v| < 2^W` on an idle block. -/
def loadReg (r : Reg) (v : Int) (s : State) : State :=
  let loaded := loadLimbs r v.natAbs s.limbs 0 s
  let seen := hostRead (wordIndex 0x28) loaded
  hostWrite (wordIndex 0x28) (putBit seen.rdata r (decide (v < 0))) seen

/-- The limb reads of `RDR`, limbs `i` on, `n` of them: their sum and the state after. -/
def readLimbs (r : Reg) : Nat → Nat → State → Nat × State
  | 0, _, s => (0, s)
  | n + 1, i, s =>
    let seen := hostRead (wordIndex (limbOffset r i)) s
    let more := readLimbs r n (i + 1) seen
    (seen.rdata.toNat * 2 ^ (32 * i) + more.1, more.2)

/-- `RDR r` (20_memory.md R74), on an idle block: the value it yields and the state after. -/
def readReg (r : Reg) (s : State) : Int × State :=
  let m := readLimbs r s.limbs 0 s
  let seen := hostRead (wordIndex 0x28) m.2
  (if m.1 = 0 then 0 else if seen.rdata.getLsbD r.val then -(m.1 : Int) else (m.1 : Int), seen)

/-- The engine's turn as the host sees it: the state after. -/
def afterTurn (s : State) : State :=
  match engineTurn s with
  | .next t => t
  | .fault _ => s
  | .refused _ => s

/-- `WAIT` (30_encoding.md R122): the engine completes what it can, then `STATUS` is read into
`rdata`. A command whose words are not there stays in flight. -/
def waitStatus (s : State) : State := hostRead (wordIndex 0x0C) (afterTurn s)

/-- A command line of a script: a write of its word to `CMD` (30_encoding.md R122). -/
def issue (i : Instr) (s : State) : State := hostWrite (wordIndex 0x1C) (encode i) s

/-- `ACK` (30_encoding.md R122): clears `DONE`, `ERR` and `REJ`. -/
def ack (s : State) : State := hostWrite (wordIndex 0x0C) 0x0000000E#32 s

/-- `SETK k` (30_encoding.md R122). -/
def setK (k : Word) (s : State) : State := hostWrite (wordIndex 0x20) k s

/-- `SETBITS b` (30_encoding.md R122). -/
def setBits (b : Word) (s : State) : State := hostWrite (wordIndex 0x24) b s

/-! The script notation (30_encoding.md R122). -/

/-- The host gives what it has read a name, and the name means that read until the host gives it to
another one, however often a loop goes round. -/
abbrev HostName := Nat

/-- What the host has read under its names: one entry a name. -/
abbrev Readings (α : Type) := List (HostName × α)

/-- Give a name to a reading. -/
def Readings.assign {α : Type} (x : HostName) (a : α) (l : Readings α) : Readings α :=
  (x, a) :: l.filter fun p => p.1 != x

/-- The reading a name means, if the host has given it. -/
def Readings.get {α : Type} (x : HostName) : Readings α → Option α
  | [] => none
  | p :: l => if p.1 = x then some p.2 else Readings.get x l

/-- A script's environment: the block, the `STATUS` words `WAIT` yielded, the values `RDR`
yielded. -/
structure ScriptEnv where
  block : State
  statuses : Readings Word
  yields : Readings Int
  deriving DecidableEq, Repr

/-- A value the host has: one `RDR` yielded, by its name, or a number. -/
inductive ScriptValue where
  | yielded (x : HostName)
  | number (v : Int)
  deriving DecidableEq, Repr

/-- The value meant; `none` where the host has read none of that name. -/
def ScriptValue.value (env : ScriptEnv) : ScriptValue → Option Int
  | .yielded x => env.yields.get x
  | .number v => some v

/-- A condition: bit `k` of the `STATUS` word `s`, or a comparison of values yielded by `RDR`, with
each other or with numbers. -/
inductive Cond where
  | statusBit (s : HostName) (k : Nat)
  | eq (a b : ScriptValue)
  | lt (a b : ScriptValue)
  | not (c : Cond)
  deriving DecidableEq, Repr

/-- A condition's truth. DESIGN CHOICE (log 12). Safe. It is `none` where it speaks of a value the
host has not read. -/
def Cond.holds (env : ScriptEnv) : Cond → Option Bool
  | .statusBit s k => (env.statuses.get s).map fun w => w.getLsbD k
  | .eq a b =>
    match a.value env, b.value env with
    | some u, some v => some (decide (u = v))
    | some _, none => none
    | none, _ => none
  | .lt a b =>
    match a.value env, b.value env with
    | some u, some v => some (decide (u < v))
    | some _, none => none
    | none, _ => none
  | .not c => (c.holds env).map fun t => !t

/-- The lines of a script (30_encoding.md R122). `RDR` and `WAIT` carry the name the host gives to
what they yield. -/
inductive Script where
  | skip
  | ldr (r : Reg) (v : ScriptValue)
  | rdr (r : Reg) (x : HostName)
  | setk (k : Word)
  | setbits (b : Word)
  | cmd (i : Instr)
  | wait (s : HostName)
  | ack
  | seq (a b : Script)
  | ifElse (c : Cond) (a b : Script)
  | whileDo (c : Cond) (a : Script)
  deriving DecidableEq, Repr

/-- A script's run with a bound on its nesting and its loops. DESIGN CHOICE (log 12). Safe. It ends
in `none` where a line's own requirement does not hold, which the spec gives no effect: an `LDR` or
an `RDR` while `BUSY = 1`, an `LDR` of a value that does not fit (both 20_memory.md R74), a
condition on a value the host has not read, or an `LDR` of one; and where a `WAIT` would wait for
ever or the bound is reached. -/
def Script.run : Nat → Script → ScriptEnv → Option ScriptEnv
  | 0, _, _ => none
  | _ + 1, .skip, env => some env
  | _ + 1, .ldr r v, env =>
    match v.value env with
    | none => none
    | some u =>
      if env.block.fits u && !env.block.busy then some { env with block := loadReg r u env.block }
      else none
  | _ + 1, .rdr r x, env =>
    if env.block.busy then none
    else
      let t := readReg r env.block
      some { env with block := t.2, yields := env.yields.assign x t.1 }
  | _ + 1, .setk k, env => some { env with block := setK k env.block }
  | _ + 1, .setbits b, env => some { env with block := setBits b env.block }
  | _ + 1, .cmd i, env => some { env with block := issue i env.block }
  | _ + 1, .wait s, env =>
    let t := waitStatus env.block
    if t.busy then none
    else some { env with block := t, statuses := env.statuses.assign s t.rdata }
  | _ + 1, .ack, env => some { env with block := Machine.ack env.block }
  | fuel + 1, .seq a b, env =>
    match Script.run fuel a env with
    | none => none
    | some env' => Script.run fuel b env'
  | fuel + 1, .ifElse c a b, env =>
    match c.holds env with
    | none => none
    | some true => Script.run fuel a env
    | some false => Script.run fuel b env
  | fuel + 1, .whileDo c a, env =>
    match c.holds env with
    | none => none
    | some false => some env
    | some true =>
      match Script.run fuel a env with
      | none => none
      | some env' => Script.run fuel (.whileDo c a) env'

/-! Procedures of the host (46_host_procedures.md): results, failures, and `Run(C)`. -/

/-- What the host's procedures work on: the block, and the host's own random words (46 R232). -/
structure Bench where
  block : State
  hostRng : List Word
  deriving DecidableEq, Repr

/-- A bench a procedure can start on: a block of the spec, idle and without an outstanding error
(10_state.md R21, R44; Safety.lean names the bound `RegsBounded`). -/
abbrev Bench.Ready (b : Bench) : Prop :=
  b.block.legalWidth = true ∧ b.block.busy = false ∧ b.block.err = false ∧
    ∀ r : Fin 16, b.block.regs[r].mag < 2 ^ (32 * b.block.limbs)

/-- The error kinds at the host's level (46 R261), and `notLoadable` for an `LDR` whose value does
not fit (20_memory.md R74; log 12, DESIGN CHOICE). -/
inductive HostFail where
  | invalidParameter
  | noInverseExists
  | illegalCommand
  | overflow
  | messageTooLarge
  | decodingError
  | notLoadable
  deriving DecidableEq, Repr

/-- How a procedure ends: with a result, with a failure, or never (46 R236, 45_primegen.md R224):
`hangs` says that the words at hand do not bring it to its end. -/
inductive Ran (α : Type) where
  | ok (a : α) (b : Bench)
  | failed (e : HostFail) (b : Bench)
  | hangs (b : Bench)
  deriving DecidableEq, Repr

/-- One procedure after another. -/
def Ran.andThen {α β : Type} (r : Ran α) (f : α → Bench → Ran β) : Ran β :=
  match r with
  | .ok a b => f a b
  | .failed e b => .failed e b
  | .hangs b => .hangs b

/-- The failure an `ERRCODE` word stands for (60_exceptions.md R271). -/
def failOfCode (code : Word) : HostFail :=
  if code = 1#32 then .invalidParameter
  else if code = 2#32 then .noInverseExists
  else if code = 3#32 then .illegalCommand
  else .overflow

/-- `LDR` as a procedure. On a busy block its accesses are refused as the block refuses them
(log 12). -/
def procLoad (r : Reg) (v : Int) (b : Bench) : Ran Unit :=
  if b.block.fits v then .ok () { b with block := loadReg r v b.block } else .failed .notLoadable b

/-- `RDR` as a procedure. -/
def procRead (r : Reg) (b : Bench) : Ran Int :=
  .ok (readReg r b.block).1 { b with block := (readReg r b.block).2 }

/-- `Run(C)` (46 R230): issue, `WAIT`; on `ERR = 1` read `ERRCODE`, `ACK` and fail with it. It
yields the `STATUS` word. -/
def procRun (i : Instr) (b : Bench) : Ran Word :=
  let t := waitStatus (issue i b.block)
  if t.rdata.getLsbD 0 then .hangs { b with block := t }
  else if t.rdata.getLsbD 2 then
    let u := hostRead (wordIndex 0x14) t
    .failed (failOfCode u.rdata) { b with block := ack u }
  else .ok t.rdata { b with block := t }

/-- `HostRandBits`, `HostRandRange` (46 R232): the draws of 20_memory.md R81, R82 over the host's
own words. -/
def procDraw (d : List Word → Draw Nat) (b : Bench) : Ran Nat :=
  match d b.hostRng with
  | none => .hangs b
  | some (v, rest) => .ok v { b with hostRng := rest }

end Sys2Proof.Machine
end

