-- ==== Sys2Proof/Machine/Transcoder.lean ====
section
/-! DEFINITION. The Transcoder and the Cipher Engine of the host (46_host_procedures.md R250 to
R258): bytes and integers, text and integers, encryption and decryption over the block. -/

namespace Sys2Proof.Machine

/-- `bytes_to_integer` (R250): big-endian, the first byte most significant. -/
def bytesToInteger (bs : List Byte) : Nat := bs.foldl (fun v b => 256 * v + b.toNat) 0

/-- `integer_to_bytes` (R251): minimal big-endian; zero gives the empty sequence. -/
def integerToBytes (v : Nat) : List Byte :=
  let len := (bitlen v + 7) / 8
  (List.range len).map fun j => BitVec.ofNat 8 (v / 256 ^ (len - 1 - j))

/-- PRESUMED (log 15). UTF-8 of one character (R252: the standard encoding). -/
def utf8Char (c : Char) : List Byte :=
  let n := c.toNat
  if n < 0x80 then [BitVec.ofNat 8 n]
  else if n < 0x800 then [BitVec.ofNat 8 (0xC0 + n / 0x40), BitVec.ofNat 8 (0x80 + n % 0x40)]
  else if n < 0x10000 then
    [BitVec.ofNat 8 (0xE0 + n / 0x1000), BitVec.ofNat 8 (0x80 + n / 0x40 % 0x40),
      BitVec.ofNat 8 (0x80 + n % 0x40)]
  else
    [BitVec.ofNat 8 (0xF0 + n / 0x40000), BitVec.ofNat 8 (0x80 + n / 0x1000 % 0x40),
      BitVec.ofNat 8 (0x80 + n / 0x40 % 0x40), BitVec.ofNat 8 (0x80 + n % 0x40)]

/-- The UTF-8 of a text. -/
def utf8 (text : List Char) : List Byte := text.flatMap utf8Char

/-- A continuation byte's six bits. -/
def continuation (b : Byte) : Option Nat :=
  if b.toNat / 0x40 = 2 then some (b.toNat % 0x40) else none

/-- A character from its number, where it is one and not below `least`: no surrogate, no number
above 0x10FFFF, no overlong form. -/
def charFrom (least n : Nat) : Option Char :=
  if n.isValidChar ∧ least ≤ n then some (Char.ofNat n) else none

/-- The first character of a byte sequence and the bytes after it (R253). -/
def utf8Head : List Byte → Option (Char × List Byte)
  | [] => none
  | b0 :: rest =>
    let n := b0.toNat
    if n < 0x80 then (charFrom 0 n).map fun c => (c, rest)
    else if n < 0xC0 then none
    else if n < 0xE0 then
      match rest with
      | b1 :: rest1 => do
        let c1 ← continuation b1
        let c ← charFrom 0x80 ((n - 0xC0) * 0x40 + c1)
        pure (c, rest1)
      | _ => none
    else if n < 0xF0 then
      match rest with
      | b1 :: b2 :: rest2 => do
        let c1 ← continuation b1
        let c2 ← continuation b2
        let c ← charFrom 0x800 ((n - 0xE0) * 0x1000 + c1 * 0x40 + c2)
        pure (c, rest2)
      | _ => none
    else if n < 0xF8 then
      match rest with
      | b1 :: b2 :: b3 :: rest3 => do
        let c1 ← continuation b1
        let c2 ← continuation b2
        let c3 ← continuation b3
        let c ← charFrom 0x10000 ((n - 0xF0) * 0x40000 + c1 * 0x1000 + c2 * 0x40 + c3)
        pure (c, rest3)
      | _ => none
    else none

/-- UTF-8 decoding with a bound on the number of characters. -/
def utf8DecodeFuel : Nat → List Byte → Option (List Char)
  | _, [] => some []
  | 0, _ :: _ => none
  | fuel + 1, b :: bs =>
    match utf8Head (b :: bs) with
    | none => none
    | some (c, rest) => (utf8DecodeFuel fuel rest).map fun cs => c :: cs

/-- The text of a byte sequence, where it is valid UTF-8 (R253). -/
def utf8Decode (bs : List Byte) : Option (List Char) := utf8DecodeFuel bs.length bs

/-- `encode_message(text, {n, e})` (R252). DESIGN CHOICE (log 18). Safe. The rule lets the test
`m ≥ n` be `CMP` on the block or a comparison on the host: here the host compares, so `Z` and `LT`
keep their values. -/
def encodeMessage (text : List Char) (n : Int) : Except HostFail Nat :=
  let m := bytesToInteger (utf8 text)
  if n ≤ (m : Int) then .error .messageTooLarge else .ok m

/-- `decode_message(v, {n, d})` (R253): the key is not used. -/
def decodeMessage (v : Nat) : Except HostFail (List Char) :=
  match utf8Decode (integerToBytes v) with
  | some text => .ok text
  | none => .error .decodingError

/-- `Run(MODEXP rd, ra, rb, rc)` on loaded operands: the common part of R255 and R256. -/
def procModexp (ra rb rc rd : Reg) (base exponent modulus : Int) (b : Bench) : Ran Int :=
  (procLoad ra base b).andThen fun _ b1 =>
  (procLoad rb exponent b1).andThen fun _ b2 =>
  (procLoad rc modulus b2).andThen fun _ b3 =>
  (procRun (.modexp rd ra rb rc) b3).andThen fun _ b4 =>
  procRead rd b4

/-- `encrypt_integer(m, e, n)` (R255), in registers of the host's choice. -/
def encryptInteger (ra rb rc rd : Reg) (m e n : Int) (b : Bench) : Ran Int :=
  if 0 < m ∧ m < n then procModexp ra rb rc rd m e n b else .failed .invalidParameter b

/-- `decrypt_integer(c, d, n)` (R256): no range check on `c`. -/
def decryptInteger (ra rb rc rd : Reg) (c d n : Int) (b : Bench) : Ran Int :=
  procModexp ra rb rc rd c d n b

/-- `encrypt_message(text, e, n)` (R257). -/
def encryptMessage (ra rb rc rd : Reg) (text : List Char) (e n : Int) (b : Bench) : Ran Int :=
  match encodeMessage text n with
  | .error f => .failed f b
  | .ok m => encryptInteger ra rb rc rd m e n b

/-- `decrypt_message(c, d, n)` (R257). -/
def decryptMessage (ra rb rc rd : Reg) (c d n : Int) (b : Bench) : Ran (List Char) :=
  (decryptInteger ra rb rc rd c d n b).andThen fun m b1 =>
    match decodeMessage m.toNat with
    | .error f => .failed f b1
    | .ok text => .ok text b1

end Sys2Proof.Machine
end

