-- ==== Sys2Proof/Machine/KeyPair.lean ====
section
/-! DEFINITION. The Exponent Selector and the KeyPair Factory of the host (46_host_procedures.md
R235 to R242), over the block's commands and the register convention of R240. -/

namespace Sys2Proof.Machine

/-- A KeyPair (R240, R241). -/
structure KeyPair where
  p : Int
  q : Int
  n : Int
  phi : Int
  e : Int
  d : Int
  deriving DecidableEq, Repr

/-- The views of R242; both share `n`. -/
structure PublicKey where
  n : Int
  e : Int
  deriving DecidableEq, Repr
structure PrivateKey where
  n : Int
  d : Int
  deriving DecidableEq, Repr

def KeyPair.publicKey (k : KeyPair) : PublicKey := ⟨k.n, k.e⟩
def KeyPair.privateKey (k : KeyPair) : PrivateKey := ⟨k.n, k.d⟩

/-- The invariants of R241 that do not speak of primality, with its exact forms. -/
def KeyPair.Numbers (primeBits : Nat) (k : KeyPair) : Prop :=
  k.p ≠ k.q ∧ 2 ^ (primeBits - 1) < k.p ∧ k.p < 2 ^ primeBits ∧
    2 ^ (primeBits - 1) < k.q ∧ k.q < 2 ^ primeBits ∧
    k.n = k.p * k.q ∧
    (bitlen k.n.toNat = 2 * primeBits - 1 ∨ bitlen k.n.toNat = 2 * primeBits) ∧
    k.phi = (k.p - 1) * (k.q - 1) ∧ 2 ^ (2 * primeBits - 2) ≤ k.phi ∧ 2 ^ 30 ≤ k.phi ∧
    2 ≤ k.e ∧ k.e < k.phi ∧ Int.gcd k.e k.phi = 1 ∧
    1 ≤ k.d ∧ k.d < k.phi ∧ k.e * k.d % k.phi = 1

/-- `p` and `q` passed the oracle with `rounds` rounds, one after the other on words of a stream:
no word of `p`'s test is one of `q`'s (R241, "independently"). -/
def KeyPair.OraclePassed (rounds : Nat) (stream : List Word) (k : KeyPair) : Prop :=
  ∃ wp restP wq restQ : List Word, wp <:+ stream ∧
    millerRabin k.p rounds wp = some (true, restP) ∧ wq <:+ restP ∧
    millerRabin k.q rounds wq = some (true, restQ)

/-- The invariants of a KeyPair (R241), of which the last is that `p` and `q` are probable primes:
they pass the oracle with at least 40 rounds. -/
def KeyPair.Inv (primeBits : Nat) (k : KeyPair) : Prop :=
  k.Numbers primeBits ∧ ∃ rounds ≥ 40, ∃ stream, k.OraclePassed rounds stream

/-- The gcd of an exponent and `phi` (in `R3`), on the block (R235): `e` in `R4`, the gcd in `R12`,
the coefficients in the scratch registers `R13`, `R14` (R240). -/
def gcdWithPhi (e : Int) (b : Bench) : Ran Int :=
  (procLoad 4 e b).andThen fun _ b1 =>
  (procRun (.xgcd 12 13 14 4 3) b1).andThen fun _ b2 =>
  procRead 12 b2

/-- A loop of draws until the exponent drawn is coprime to `phi` (R236), with a bound on its
passes: each pass that draws takes a word or more. -/
def selectLoop (draw : List Word → Draw Nat) : Nat → Bench → Ran Int
  | 0, b => .hangs b
  | fuel + 1, b =>
    (procDraw draw b).andThen fun e b1 =>
    (gcdWithPhi e b1).andThen fun g b2 =>
    if g = 1 then .ok e b2 else selectLoop draw fuel b2

/-- A draw mapped. -/
def drawMap (f : Nat → Nat) (d : List Word → Draw Nat) (ws : List Word) : Draw Nat :=
  match d ws with
  | none => none
  | some (v, rest) => some (f v, rest)

/-- `SelectRandom(phi, e_bits?)` (R236). -/
def selectRandom (phi : Nat) (eBits : Option Nat) (b : Bench) : Ran Int :=
  match eBits with
  | some k =>
    if k < 2 ∨ bitlen phi - 1 < k then .failed .invalidParameter b
    else selectLoop (drawMap (candidate k) (randBits k)) (b.hostRng.length + 1) b
  | none =>
    selectLoop (drawMap (fun j => 2 * j + 1) (randRange 1 (phi / 2 - 1))) (b.hostRng.length + 1) b

/-- `SelectFixed(phi, e_bits?)` (R235). -/
def selectFixed (phi : Nat) (eBits : Option Nat) (b : Bench) : Ran Int :=
  (gcdWithPhi 65537 b).andThen fun g b1 =>
    if g = 1 then .ok 65537 b1 else selectRandom phi eBits b1

/-- The second prime, drawn again while it equals the first (R240). -/
def secondPrime : Nat → Bench → Ran Unit
  | 0, b => .hangs b
  | fuel + 1, b =>
    (procRun (.genprime 1) b).andThen fun _ b1 =>
    (procRun (.cmp 1 0) b1).andThen fun status b2 =>
    if status.getLsbD 5 then secondPrime fuel b2 else .ok () b2

/-- `MRK` before the first prime is drawn: kept, or set to the rounds given (R240). -/
def setRounds (rounds : Option Word) (s : State) : State :=
  match rounds with
  | none => s
  | some k => setK k s

/-- `generate_keypair(prime_bits, use_random_e, e_bits?)` (R240). The host keeps `MRK` or sets it
to `rounds`; that the rounds are 40 or more is the host's discipline, and no check of the
procedure's. -/
def generateKeypair (primeBits : Nat) (useRandomE : Bool) (eBits : Option Nat)
    (rounds : Option Word) (b : Bench) : Ran KeyPair :=
  if primeBits < 16 ∨ b.block.width < 2 * primeBits then .failed .invalidParameter b
  else
    (procRun (.genprime 0) { b with
      block := setRounds rounds (setBits (BitVec.ofNat 32 primeBits) b.block) }).andThen fun _ b1 =>
    (secondPrime (b1.block.rng.length + 1) b1).andThen fun _ b2 =>
    (procLoad 15 1 b2).andThen fun _ b3 =>
    (procRun (.mul 2 0 1) b3).andThen fun _ b4 =>
    (procRun (.sub 12 0 15) b4).andThen fun _ b5 =>
    (procRun (.sub 13 1 15) b5).andThen fun _ b6 =>
    (procRun (.mul 3 12 13) b6).andThen fun _ b7 =>
    (procRead 3 b7).andThen fun phi b8 =>
    (if useRandomE then selectRandom phi.toNat eBits b8 else selectFixed phi.toNat eBits b8).andThen
      fun e b9 =>
    (procLoad 4 e b9).andThen fun _ b10 =>
    (procRun (.modinv 5 4 3) b10).andThen fun _ b11 =>
    (procRead 0 b11).andThen fun p b12 =>
    (procRead 1 b12).andThen fun q b13 =>
    (procRead 2 b13).andThen fun n b14 =>
    (procRead 5 b14).andThen fun d b15 =>
    .ok ⟨p, q, n, phi, e, d⟩ b15

end Sys2Proof.Machine
end

