-- ==== Sys2Proof/Machine/Properties.lean ====
section
/-! DEFINITION. The testable properties of 46_host_procedures.md R260, item by item, as predicates
over the host's procedures. Items 1, 2, 6 and 7 speak of the four operations of a key on a bench,
with three operand registers and a result register of the host's choice. -/

namespace Sys2Proof.Machine

/-- A key in use: the registers, the modulus and the two exponents (R255, R256). -/
structure KeyUse where
  ra : Reg
  rb : Reg
  rc : Reg
  rd : Reg
  n : Nat
  e : Nat
  d : Nat
  deriving DecidableEq, Repr

/-- The operand registers are three, and what is loaded into them fits (20_memory.md R74). -/
abbrev KeyUse.Fits (k : KeyUse) (b : Bench) : Prop :=
  k.ra ≠ k.rb ∧ k.ra ≠ k.rc ∧ k.rb ≠ k.rc ∧ k.n < 2 ^ (32 * b.block.limbs) ∧
    k.e < 2 ^ (32 * b.block.limbs) ∧ k.d < 2 ^ (32 * b.block.limbs)

def KeyUse.encrypt (k : KeyUse) (m : Int) (b : Bench) : Ran Int :=
  encryptInteger k.ra k.rb k.rc k.rd m k.e k.n b

def KeyUse.decrypt (k : KeyUse) (c : Int) (b : Bench) : Ran Int :=
  decryptInteger k.ra k.rb k.rc k.rd c k.d k.n b

def KeyUse.encryptText (k : KeyUse) (text : List Char) (b : Bench) : Ran Int :=
  encryptMessage k.ra k.rb k.rc k.rd text k.e k.n b

def KeyUse.decryptText (k : KeyUse) (c : Int) (b : Bench) : Ran (List Char) :=
  decryptMessage k.ra k.rb k.rc k.rd c k.d k.n b

/-- R260 item 1: for all `0 < m < n`, `decrypt_integer(encrypt_integer(m))` is `m`. The ciphertext
is the power, whatever the bench holds besides (R258). -/
def KeyUse.IntegersRoundTrip (k : KeyUse) (b : Bench) : Prop :=
  ∀ m : Nat, 0 < m → m < k.n → ∃ b1 b2,
    k.encrypt m b = .ok (modExp m k.e k.n : Nat) b1 ∧
      k.decrypt (modExp m k.e k.n : Nat) b1 = .ok m b2

/-- R260 item 2, as 90_conflicts.md C5 corrects it: every text below `n` that is not empty and does
not begin with U+0000 comes back. -/
def KeyUse.TextsRoundTrip (k : KeyUse) (b : Bench) : Prop :=
  ∀ text : List Char, text ≠ [] → text.head? ≠ some (Char.ofNat 0) →
    bytesToInteger (utf8 text) < k.n → ∃ c b1 b2,
      k.encryptText text b = .ok c b1 ∧ k.decryptText c b1 = .ok text b2

/-- R260 item 4: the oracle's answer on a number, for every round count and all random words. -/
def OracleAnswers (n : Nat) (answer : Bool) : Prop :=
  ∀ (k : Nat) (ws rest : List Word) (verdict : Bool),
    millerRabin (n : Int) k ws = some (verdict, rest) → verdict = answer

/-- R260 item 5: an exponent within its bounds, and coprime to `phi` (R237). -/
def ExponentSelected (phi e : Int) : Prop := 2 ≤ e ∧ e < phi ∧ Int.gcd e phi = 1

/-- R260 item 6: outside `0 < m < n` encryption fails (R255), and the block is not touched. -/
def KeyUse.BoundaryHolds (k : KeyUse) (b : Bench) : Prop :=
  ∀ m : Int, m ≤ 0 ∨ (k.n : Int) ≤ m → k.encrypt m b = .failed .invalidParameter b

/-- R260 item 7: "Hi" encrypted twice gives one ciphertext, which decrypts to "Hi"; "Hj" gives
another. -/
def KeyUse.ScenarioHolds (k : KeyUse) (b : Bench) : Prop :=
  ∃ c c' b1 b2 b3 b4,
    k.encryptText ['H', 'i'] b = .ok c b1 ∧ k.encryptText ['H', 'i'] b1 = .ok c b2 ∧
      k.decryptText c b2 = .ok ['H', 'i'] b3 ∧ k.encryptText ['H', 'j'] b3 = .ok c' b4 ∧ c' ≠ c

end Sys2Proof.Machine
end

