-- ==== Sys2Proof/Machine/Reference.lean ====
section
/-! DEFINITION. The reference algorithms the spec gives beside the normative results: Barrett's
reduction (41_reduction.md R152), the word-serial Montgomery product (R155), the iterative
Euclidean algorithm (42_xgcd.md R173), and exponentiation over the two reducers (43_modexp.md
R192). No intermediate of theirs is observable (10_state.md R46), so no command calls them: the
obligations say that each gives the normative result. -/

namespace Sys2Proof.Machine

/-- The Barrett constant `mu = 2^s div N` with `s = 2W` (41_reduction.md R152). -/
def barrettMu (width n : Nat) : Nat := 2 ^ (2 * width) / n

/-- The estimate `q` of `x div N` (41_reduction.md R152). -/
def barrettEstimate (width x n : Nat) : Nat := x * barrettMu width n / 2 ^ (2 * width)

/-- `Barrett(x, N)` (41_reduction.md R152): one estimate, at most one correction. -/
def barrett (width x n : Nat) : Nat :=
  let r := x - barrettEstimate width x n * n
  if n ≤ r then r - n else r

/-- `n0' = (-N^-1) mod 2^32` (41_reduction.md R155). -/
def montN0 (n : Nat) : Nat := (2 ^ 32 - inverseMod (n % 2 ^ 32) (2 ^ 32)) % 2 ^ 32

/-- One pass of the loop of 41_reduction.md R155, for limb `i` of `a`. -/
def montPass (a b n i t : Nat) : Nat :=
  let u := t + (limbOf a i).toNat * b
  let m := u % 2 ^ 32 * montN0 n % 2 ^ 32
  (u + m * n) / 2 ^ 32

/-- The value `t` after the passes for limbs 0 to `i - 1` (41_reduction.md R155). -/
def montPasses (a b n : Nat) : Nat → Nat
  | 0 => 0
  | i + 1 => montPass a b n i (montPasses a b n i)

/-- `MontMulRef(a, b, N)` for registers of `limbs` limbs (41_reduction.md R155). -/
def montMulRef (limbs a b n : Nat) : Nat :=
  let t := montPasses a b n limbs
  if n ≤ t then t - n else t

/-- The loop of 42_xgcd.md R173, with a bound on its passes (log 13, DEDUCED, safe). -/
def xgcdLoop : Nat → Nat → Nat → Int → Int → Int → Int → Nat × Int × Int
  | 0, r0, _, s0, _, t0, _ => (r0, s0, t0)
  | fuel + 1, r0, r1, s0, s1, t0, t1 =>
    if r1 = 0 then (r0, s0, t0)
    else
      let q : Nat := r0 / r1
      xgcdLoop fuel r1 (r0 - q * r1) s1 (s0 - q * s1) t1 (t0 - q * t1)

/-- `XGcdIter(a, b)` (42_xgcd.md R173). -/
def xgcdIter (a b : Nat) : Nat × Int × Int := xgcdLoop (b + 1) a b 1 0 0 1

/-- Square-and-multiply over a given product (43_modexp.md R191, R192). -/
def powLoop (mul : Nat → Nat → Nat) (b e : Nat) : Nat → Nat → Nat
  | 0, r => r
  | i + 1, r =>
    let sq := mul r r
    powLoop mul b e i (if e.testBit i then mul sq b else sq)

/-- Exponentiation in Montgomery form, for an odd modulus (43_modexp.md R192). -/
def modExpMont (width b e m : Nat) : Nat :=
  let rm := powLoop (fun x y => montMul width x y m) (montIn width b m) e (bitlen e)
    (montIn width 1 m)
  montOut width rm m

/-- Exponentiation by full products and the Barrett reducer, for an even modulus
(43_modexp.md R192). -/
def modExpBarrett (width b e m : Nat) : Nat :=
  powLoop (fun x y => barrett width (x * y) m) (barrett width b m) e (bitlen e)
    (barrett width 1 m)

/-- Which path the engine takes (43_modexp.md R192). -/
def modExpEngine (width b e m : Nat) : Nat :=
  if m % 2 = 1 then modExpMont width b e m else modExpBarrett width b e m

end Sys2Proof.Machine
end

