-- ==== Sys2Proof/Safety.lean ====
section
/-! DEFINITION. What counts as a safe run, in the terms the claims use: the invariant of the block,
the end states of a command, and what a command may not touch. -/

namespace Sys2Proof

/-- The word `{op, rd, ra, rb, rc, rx, ry}` as a number (30_encoding.md R101). -/
def wordOf (op rd ra rb rc rx ry : Nat) : Word :=
  BitVec.ofNat 32 (op * 2 ^ 24 + rd * 2 ^ 20 + ra * 2 ^ 16 + rb * 2 ^ 12 + rc * 2 ^ 8 + rx * 2 ^ 4
    + ry)

/-- The opcode map once more, as the table has it: opcode, match, mask (30_encoding.md R105). -/
def opcodeTable : List (Nat × Word × Word) :=
  [(0x00, 0x00000000#32, 0xFFFFFFFF#32), (0x01, 0x01000000#32, 0xFF000FFF#32),
    (0x02, 0x02000000#32, 0xFF000FFF#32), (0x03, 0x03000000#32, 0xFFF00FFF#32),
    (0x04, 0x04000000#32, 0xFF000FFF#32), (0x10, 0x10000000#32, 0xFF0000FF#32),
    (0x11, 0x11000000#32, 0xFF0000FF#32), (0x12, 0x12000000#32, 0xFF00F0FF#32),
    (0x13, 0x13000000#32, 0xFF00F0FF#32), (0x20, 0x20000000#32, 0xFF0000FF#32),
    (0x30, 0x30000000#32, 0xFF000F00#32), (0x31, 0x31000000#32, 0xFF00F0FF#32),
    (0x40, 0x40000000#32, 0xFFF0FFFF#32), (0x41, 0x41000000#32, 0xFF0FFFFF#32)]

/-- A legal command word (30_encoding.md R104, R106): it matches a row of the map, and an `XGCD`
word has three different destination fields. -/
abbrev legalWord (w : Word) : Prop :=
  (∃ row ∈ opcodeTable, w &&& row.2.2 = row.2.1) ∧
    (w.toNat / 2 ^ 24 = 0x30 →
      w.toNat / 2 ^ 20 % 16 ≠ w.toNat / 2 ^ 4 % 16 ∧ w.toNat / 2 ^ 20 % 16 ≠ w.toNat % 16 ∧
        w.toNat / 2 ^ 4 % 16 ≠ w.toNat % 16)

/-- The commands that draw random words (20_memory.md R80). -/
def Instr.draws : Instr → Bool
  | .mrtest _ => true
  | .genprime _ => true
  | .nop => false
  | .add _ _ _ => false
  | .sub _ _ _ => false
  | .cmp _ _ => false
  | .mul _ _ _ => false
  | .bred _ _ _ _ => false
  | .montmul _ _ _ _ => false
  | .montin _ _ _ => false
  | .montout _ _ _ => false
  | .modexp _ _ _ _ => false
  | .xgcd _ _ _ _ _ => false
  | .modinv _ _ _ => false

/-- The command that compares (10_state.md R35). -/
def Instr.compares : Instr → Bool
  | .cmp _ _ => true
  | .nop => false
  | .add _ _ _ => false
  | .sub _ _ _ => false
  | .mul _ _ _ => false
  | .bred _ _ _ _ => false
  | .montmul _ _ _ _ => false
  | .montin _ _ _ => false
  | .montout _ _ _ => false
  | .modexp _ _ _ _ => false
  | .xgcd _ _ _ _ _ => false
  | .modinv _ _ _ => false
  | .mrtest _ => false
  | .genprime _ => false

end Sys2Proof

namespace Sys2Proof.Machine

/-- Every magnitude is below `2^W` (10_state.md R21). -/
abbrev State.RegsBounded (s : State) : Prop :=
  ∀ r : Fin 16, s.regs[r].mag < 2 ^ (32 * s.limbs)

/-- `BUSY = 1` implies `DONE = 0` and `ERR = 0` (10_state.md R30, R31). -/
abbrev State.BusyQuiet (s : State) : Prop :=
  s.busy = true → s.done = false ∧ s.err = false

/-- The error record describes the one outstanding error (10_state.md R31, R38, R39,
60_exceptions.md R271, R279): `ERR = 0` exactly when `ERRCODE = 0`, and then `ERRCMD = 0`; while
`ERR = 1` the code is one of the four and `ERRCMD` is the command that failed. -/
abbrev State.ErrRecorded (s : State) : Prop :=
  (s.err = false ↔ s.errcode = 0#8) ∧ (s.err = false → s.errcmd = 0#32) ∧
    (s.err = true → s.errcode ∈ [1#8, 2#8, 3#8, 4#8] ∧ s.errcmd = s.cmdreg)

/-- `Z` and `LT` are never both 1 (10_state.md R35). -/
abbrev State.CompareApart (s : State) : Prop := ¬(s.z = true ∧ s.lt = true)

/-- The invariant of the block: what every step keeps. -/
abbrev State.Inv (s : State) : Prop :=
  s.legalWidth = true ∧ s.RegsBounded ∧ s.BusyQuiet ∧ s.ErrRecorded ∧ s.CompareApart

/-- The end of a command that delivers its results, already written in `s` (10_state.md R45). -/
def State.endsOk (s : State) : State := { s with busy := false, done := true }

/-- The end of a command that fails with a code (60_exceptions.md R272). -/
def State.endsErr (s : State) (code : BitVec 8) : State :=
  { s with errcode := code, errcmd := s.cmdreg, err := true, done := true, busy := false }

/-- A register written with a signed value (10_state.md R23). -/
def State.putReg (s : State) (r : Reg) (v : Int) : State :=
  { s with regs := s.regs.set r ⟨v.natAbs, decide (v < 0)⟩ }

/-- The fields no command writes, whatever it does (60_exceptions.md R272, 10_state.md R24, R37,
R40 to R42). -/
abbrev State.SameSettings (s t : State) : Prop :=
  t.limbs = s.limbs ∧ t.rej = s.rej ∧ t.doneIe = s.doneIe ∧ t.errIe = s.errIe ∧
    t.cmdreg = s.cmdreg ∧ t.mrk = s.mrk ∧ t.pbits = s.pbits ∧ t.abandons = s.abandons ∧
    t.rdata = s.rdata ∧ t.script = s.script

/-- An address of the operand window that holds a limb (20_memory.md R61, R64). -/
abbrev State.inWindow (s : State) (addr : BitVec 15) : Prop :=
  0x10000 ≤ 4 * addr.toNat ∧ 4 * addr.toNat % 0x1000 < 4 * s.limbs

/-- The host accesses the block refuses (10_state.md R32). -/
abbrev State.refuses (s : State) : HostAccess → Prop
  | .write addr _ =>
    (4 * addr.toNat = 0x1C ∧ (s.busy = true ∨ s.err = true)) ∨
      (s.busy = true ∧ (4 * addr.toNat ∈ [0x20, 0x24, 0x28] ∨ s.inWindow addr))
  | .read addr => s.busy = true ∧ s.inWindow addr

end Sys2Proof.Machine
end

