-- ==== Sys2Proof/Certificates/Slice0/Obligations.lean ====
section
/-! DEFINITION. The statements for the provers. Each docstring names the rule of spec/ it rests on. -/

open Sys2Proof Sys2Proof.Machine

/-! ## Encoding -/

/-- The five words 30_encoding.md R120 writes out decode to their commands. -/
def Obligations.WrittenOutWordsDecode : Prop :=
  decode 0x01312000#32 = .ok (.add 3 1 2) ∧ decode 0x20401200#32 = .ok (.modexp 4 0 1 2) ∧
    decode 0x30501067#32 = .ok (.xgcd 5 6 7 0 1) ∧ decode 0x40090000#32 = .ok (.mrtest 9) ∧
    decode 0x41A00000#32 = .ok (.genprime 10)

/-- Decoding the word of a well-formed command gives it back (30_encoding.md R101, R104, R120). -/
def Obligations.DecodeOfEncodeIsIdentity : Prop :=
  ∀ i : Instr, i.wf = true → decode (encode i) = .ok i

/-- A command has one word: what decodes to `i` is the word of `i`, and `i` is well formed
(30_encoding.md R104, R105). -/
def Obligations.EncodeOfDecodeIsIdentity : Prop :=
  ∀ (w : Word) (i : Instr), decode w = .ok i → encode i = w ∧ i.wf = true

/-- Exactly the words of 30_encoding.md R106 are illegal: the decoder gives a command for a word
that matches a row of the map of R105 (with distinct destinations for `XGCD`) and for no other. -/
def Obligations.DecoderAcceptsExactlyLegalWords : Prop :=
  ∀ w : Word, (∃ i, decode w = .ok i) ↔ legalWord w

/-- 30_encoding.md R106: an illegal word (an opcode of no row, a non-zero unused field, an `XGCD`
with equal destinations) completes with `IllegalCommand`, code 3, and changes nothing else; 242 of
the 256 opcode values are no command's. -/
def Obligations.IllegalWordRaisesIllegalCommand : Prop :=
  (∀ s : State, s.busy = true → ¬legalWord s.cmdreg →
    engineTurn s = .next { s with errcode := 3#8, errcmd := s.cmdreg, err := true, done := true,
                                  busy := false }) ∧
    ((List.range 256).filter fun op => (opRow (BitVec.ofNat 8 op)).isNone).length = 242

/-! ## Registers -/

/-- 10_state.md R22: the value of a register; its range; and no completion makes a register
negative zero. -/
def Obligations.RegisterValueIsSignAndMagnitude : Prop :=
  ∀ (s : State) (r : Reg),
    (s.regs[r].mag = 0 → s.val r = 0) ∧
    (s.regs[r].mag ≠ 0 → s.regs[r].neg = true → s.val r = -(s.regs[r].mag : Int)) ∧
    (s.regs[r].mag ≠ 0 → s.regs[r].neg = false → s.val r = (s.regs[r].mag : Int)) ∧
    (s.RegsBounded → -(2 ^ (32 * s.limbs) - 1 : Int) ≤ s.val r ∧
      s.val r ≤ (2 ^ (32 * s.limbs) - 1 : Int)) ∧
    (∀ (i : Instr) (t : State), exec i s = .next t → t.regs[r] = ⟨0, true⟩ →
      s.regs[r] = ⟨0, true⟩)

/-! ## The commands -/

/-- 40_addsub.md R130. -/
def Obligations.NopRunsTheLifeCycleOnly : Prop :=
  decode 0x00000000#32 = .ok .nop ∧
  (∀ s : State, exec .nop s = .next s.endsOk) ∧
  ∀ s : State, s.busy = false → s.err = false →
    engineTurn (hostAccess (.write 7#15 0#32) s) = .next { s with cmdreg := 0#32, done := true }

/-- 40_addsub.md R132. -/
def Obligations.AddStoresTheSumOrOverflows : Prop :=
  ∀ rd ra rb : Reg,
    decode (wordOf 0x01 rd ra rb 0 0 0) = .ok (.add rd ra rb) ∧
    ∀ s : State,
      ((s.val ra + s.val rb).natAbs < 2 ^ (32 * s.limbs) →
        exec (.add rd ra rb) s = .next (s.putReg rd (s.val ra + s.val rb)).endsOk) ∧
      (2 ^ (32 * s.limbs) ≤ (s.val ra + s.val rb).natAbs →
        exec (.add rd ra rb) s = .next (s.endsErr 4#8))

/-- 40_addsub.md R134. -/
def Obligations.SubStoresTheDifferenceOrOverflows : Prop :=
  ∀ rd ra rb : Reg,
    decode (wordOf 0x02 rd ra rb 0 0 0) = .ok (.sub rd ra rb) ∧
    ∀ s : State,
      ((s.val ra - s.val rb).natAbs < 2 ^ (32 * s.limbs) →
        exec (.sub rd ra rb) s = .next (s.putReg rd (s.val ra - s.val rb)).endsOk) ∧
      (2 ^ (32 * s.limbs) ≤ (s.val ra - s.val rb).natAbs →
        exec (.sub rd ra rb) s = .next (s.endsErr 4#8))

/-- 40_addsub.md R136. -/
def Obligations.CmpSetsZeroAndLess : Prop :=
  ∀ ra rb : Reg,
    decode (wordOf 0x03 0 ra rb 0 0 0) = .ok (.cmp ra rb) ∧
    ∀ s : State,
      exec (.cmp ra rb) s =
        .next { s with z := decide (s.val ra = s.val rb), lt := decide (s.val ra < s.val rb),
                       busy := false, done := true }

/-- 40_addsub.md R138. -/
def Obligations.MulStoresTheProductOrOverflows : Prop :=
  ∀ rd ra rb : Reg,
    decode (wordOf 0x04 rd ra rb 0 0 0) = .ok (.mul rd ra rb) ∧
    ∀ s : State,
      ((s.val ra * s.val rb).natAbs < 2 ^ (32 * s.limbs) →
        exec (.mul rd ra rb) s = .next (s.putReg rd (s.val ra * s.val rb)).endsOk) ∧
      (2 ^ (32 * s.limbs) ≤ (s.val ra * s.val rb).natAbs →
        exec (.mul rd ra rb) s = .next (s.endsErr 4#8))

/-- 41_reduction.md R151. -/
def Obligations.BredStoresTheRemainder : Prop :=
  ∀ rd ra rb rc : Reg,
    decode (wordOf 0x10 rd ra rb rc 0 0) = .ok (.bred rd ra rb rc) ∧
    ∀ s : State,
      (∀ hi lo n : Nat, s.val ra = hi → s.val rb = lo → s.val rc = n → 1 ≤ n →
        exec (.bred rd ra rb rc) s =
          .next (s.putReg rd (((hi * 2 ^ (32 * s.limbs) + lo) % n : Nat) : Int)).endsOk) ∧
      (s.val ra < 0 ∨ s.val rb < 0 ∨ s.val rc < 1 →
        exec (.bred rd ra rb rc) s = .next (s.endsErr 1#8))

/-- 41_reduction.md R154, with `Rinv(N)` of R153: an inverse of the radix below the modulus
exists, and the result is the product with it. -/
def Obligations.MontmulStoresTheMontgomeryProduct : Prop :=
  ∀ rd ra rb rc : Reg,
    decode (wordOf 0x11 rd ra rb rc 0 0) = .ok (.montmul rd ra rb rc) ∧
    ∀ s : State,
      (∀ a b n : Nat, s.val ra = a → s.val rb = b → s.val rc = n → n % 2 = 1 → a < n → b < n →
        ∃ rInv : Nat, rInv < n ∧ 2 ^ (32 * s.limbs) * rInv % n = 1 % n ∧
          exec (.montmul rd ra rb rc) s =
            .next (s.putReg rd ((a * b * rInv % n : Nat) : Int)).endsOk) ∧
      (s.val rc < 1 ∨ s.val rc % 2 = 0 ∨ s.val ra < 0 ∨ s.val rc ≤ s.val ra ∨ s.val rb < 0 ∨
          s.val rc ≤ s.val rb →
        exec (.montmul rd ra rb rc) s = .next (s.endsErr 1#8))

/-- 41_reduction.md R156. -/
def Obligations.MontinStoresTheMontgomeryForm : Prop :=
  ∀ rd ra rc : Reg,
    decode (wordOf 0x12 rd ra 0 rc 0 0) = .ok (.montin rd ra rc) ∧
    ∀ s : State,
      (∀ a n : Nat, s.val ra = a → s.val rc = n → n % 2 = 1 →
        exec (.montin rd ra rc) s =
          .next (s.putReg rd ((a * 2 ^ (32 * s.limbs) % n : Nat) : Int)).endsOk) ∧
      (s.val rc < 1 ∨ s.val rc % 2 = 0 ∨ s.val ra < 0 →
        exec (.montin rd ra rc) s = .next (s.endsErr 1#8))

/-- 41_reduction.md R157, with `Rinv(N)` of R153. -/
def Obligations.MontoutLeavesTheMontgomeryForm : Prop :=
  ∀ rd ra rc : Reg,
    decode (wordOf 0x13 rd ra 0 rc 0 0) = .ok (.montout rd ra rc) ∧
    ∀ s : State,
      (∀ a n : Nat, s.val ra = a → s.val rc = n → n % 2 = 1 → a < n →
        ∃ rInv : Nat, rInv < n ∧ 2 ^ (32 * s.limbs) * rInv % n = 1 % n ∧
          exec (.montout rd ra rc) s =
            .next (s.putReg rd ((a * rInv % n : Nat) : Int)).endsOk) ∧
      (s.val rc < 1 ∨ s.val rc % 2 = 0 ∨ s.val ra < 0 ∨ s.val rc ≤ s.val ra →
        exec (.montout rd ra rc) s = .next (s.endsErr 1#8))

/-- 43_modexp.md R190: the result is `(b^e) mod m` with `b^0 = 1`. -/
def Obligations.ModexpStoresThePowerModulo : Prop :=
  ∀ rd ra rb rc : Reg,
    decode (wordOf 0x20 rd ra rb rc 0 0) = .ok (.modexp rd ra rb rc) ∧
    ∀ s : State,
      (∀ b e m : Nat, s.val ra = b → s.val rb = e → s.val rc = m → 1 ≤ m →
        exec (.modexp rd ra rb rc) s = .next (s.putReg rd ((b ^ e % m : Nat) : Int)).endsOk) ∧
      (s.val ra < 0 ∨ s.val rb < 0 ∨ s.val rc < 1 →
        exec (.modexp rd ra rb rc) s = .next (s.endsErr 1#8))

/-- 42_xgcd.md R171: the three results together, with the Bezout equation; equal destinations are
an illegal word (30_encoding.md R104). -/
def Obligations.XgcdStoresGcdAndCoefficients : Prop :=
  ∀ rd rx ry ra rb : Reg,
    (rd ≠ rx → rd ≠ ry → rx ≠ ry →
      decode (wordOf 0x30 rd ra rb 0 rx ry) = .ok (.xgcd rd rx ry ra rb) ∧
      ∀ s : State,
        (∀ a b : Nat, s.val ra = a → s.val rb = b →
          (xgcd a b).1 = Nat.gcd a b ∧
          (a : Int) * (xgcd a b).2.1 + (b : Int) * (xgcd a b).2.2 = Nat.gcd a b ∧
          exec (.xgcd rd rx ry ra rb) s =
            .next (((s.putReg rd ((xgcd a b).1 : Int)).putReg rx (xgcd a b).2.1).putReg ry
              (xgcd a b).2.2).endsOk) ∧
        (s.val ra < 0 ∨ s.val rb < 0 →
          exec (.xgcd rd rx ry ra rb) s = .next (s.endsErr 1#8))) ∧
    (rd = rx ∨ rd = ry ∨ rx = ry →
      decode (wordOf 0x30 rd ra rb 0 rx ry) = .error .equalDestinations ∧
      ∀ s : State, exec (.xgcd rd rx ry ra rb) s = .next (s.endsErr 3#8))

/-- 42_xgcd.md R175: the inverse, below the modulus; `NoInverseExists` where the gcd is not 1. -/
def Obligations.ModinvStoresTheInverseOrFails : Prop :=
  ∀ rd ra rc : Reg,
    decode (wordOf 0x31 rd ra 0 rc 0 0) = .ok (.modinv rd ra rc) ∧
    ∀ s : State,
      (∀ a m : Nat, s.val ra = a → s.val rc = m → 1 ≤ m → Nat.gcd a m = 1 →
        (xgcd a m).2.1 % (m : Int) < m ∧ ((a : Int) * ((xgcd a m).2.1 % (m : Int))) % m = 1 % m ∧
        exec (.modinv rd ra rc) s = .next (s.putReg rd ((xgcd a m).2.1 % (m : Int))).endsOk) ∧
      (∀ a m : Nat, s.val ra = a → s.val rc = m → 1 ≤ m → Nat.gcd a m ≠ 1 →
        exec (.modinv rd ra rc) s = .next (s.endsErr 2#8)) ∧
      (s.val ra < 0 ∨ s.val rc < 1 → exec (.modinv rd ra rc) s = .next (s.endsErr 1#8))

/-- 44_primality.md R206: `PRIME` gets the verdict of `MillerRabin(val(ra), MRK)` on the random
words, which are consumed; below 2 the verdict is 0; with `MRK = 0` a survivor of the sieve gives
1; neither of these draws. -/
def Obligations.MrtestStoresTheVerdict : Prop :=
  ∀ ra : Reg,
    decode (wordOf 0x40 0 ra 0 0 0 0) = .ok (.mrtest ra) ∧
    ∀ s : State,
      (∀ (verdict : Bool) (rest : List Word),
        millerRabin (s.val ra) s.mrk.toNat s.rng = some (verdict, rest) →
        exec (.mrtest ra) s =
          .next { s with prime := verdict, rng := rest, busy := false, done := true }) ∧
      (s.val ra < 2 →
        exec (.mrtest ra) s = .next { s with prime := false, busy := false, done := true }) ∧
      (2 ≤ s.val ra → sieve (s.val ra).toNat = none → s.mrk = 0#16 →
        exec (.mrtest ra) s = .next { s with prime := true, busy := false, done := true })

/-- 45_primegen.md R221: the accepted candidate goes to `rd` and `PRIME` becomes 1; the parameter
check comes before any draw; a candidate is the drawn bits with the top bit and bit 0 forced, and
a rejected one is followed by the next. -/
def Obligations.GenprimeStoresAnAcceptedCandidate : Prop :=
  (∀ rd : Reg,
    decode (wordOf 0x41 rd 0 0 0 0 0) = .ok (.genprime rd) ∧
    ∀ s : State,
      (∀ (c : Nat) (rest : List Word), 2 ≤ s.pbits.toNat → s.pbits.toNat ≤ 32 * s.limbs →
        genPrime s.pbits.toNat s.mrk.toNat s.rng = some (c, rest) →
        exec (.genprime rd) s =
          .next ({ s with prime := true, rng := rest }.putReg rd (c : Int)).endsOk) ∧
      (s.pbits.toNat < 2 ∨ 32 * s.limbs < s.pbits.toNat →
        exec (.genprime rd) s = .next (s.endsErr 1#8))) ∧
  ∀ (bits k : Nat) (ws : List Word), 2 ≤ bits →
    genPrime bits k ws =
      match randBits bits ws with
      | none => none
      | some (v, rest) =>
        match millerRabin ((v ||| 2 ^ (bits - 1) ||| 1 : Nat) : Int) k rest with
        | none => none
        | some (true, rest') => some (v ||| 2 ^ (bits - 1) ||| 1, rest')
        | some (false, rest') => genPrime bits k rest'

/-! ## What all commands have in common -/

/-- 60_exceptions.md R272: a command that raises has no effect but the five assignments, so no
register, no result flag, no setting is written and no random word is consumed. -/
def Obligations.ErrorsArePrecise : Prop :=
  ∀ (i : Instr) (s t : State), s.err = false → exec i s = .next t → t.err = true →
    ∃ code ∈ [1#8, 2#8, 3#8, 4#8],
      t = { s with errcode := code, errcmd := s.cmdreg, err := true, done := true, busy := false }

/-- 60_exceptions.md R274, R276: `NoInverseExists` (code 2) is raised by `MODINV` alone, on operands
in its domain whose gcd is not 1; `Overflow` (code 4) by `ADD`, `SUB` and `MUL` alone, on an exact
result of magnitude `2^W` or more. -/
def Obligations.InverseAndOverflowErrorsHaveOneCause : Prop :=
  ∀ (i : Instr) (s t : State), s.err = false → exec i s = .next t → t.err = true →
    (t.errcode = 2#8 → ∃ rd ra rc, i = .modinv rd ra rc ∧ 0 ≤ s.val ra ∧ 1 ≤ s.val rc ∧
      Int.gcd (s.val ra) (s.val rc) ≠ 1) ∧
    (t.errcode = 4#8 → ∃ rd ra rb,
      (i = .add rd ra rb ∧ 2 ^ (32 * s.limbs) ≤ (s.val ra + s.val rb).natAbs) ∨
      (i = .sub rd ra rb ∧ 2 ^ (32 * s.limbs) ≤ (s.val ra - s.val rb).natAbs) ∨
      (i = .mul rd ra rb ∧ 2 ^ (32 * s.limbs) ≤ (s.val ra * s.val rb).natAbs))

/-- The frame of every command: only the destination registers, the result flags of the commands
that have them, the life-cycle flags, the error record and the random words of the drawing
commands can change (10_state.md R24, R34, R35, R45; 20_memory.md R80). -/
def Obligations.CommandsKeepEverythingElse : Prop :=
  ∀ (i : Instr) (s t : State), exec i s = .next t →
    s.SameSettings t ∧
    (∀ r : Reg, r ∉ i.dests → t.regs[r] = s.regs[r]) ∧
    (i.draws = false → t.prime = s.prime ∧ t.rng = s.rng) ∧
    (i.compares = false → t.z = s.z ∧ t.lt = s.lt) ∧
    (s.err = true → t.err = true) ∧
    (s.err = false → t.err = false → t.errcode = s.errcode ∧ t.errcmd = s.errcmd)

/-- A completion ends the command with `BUSY = 0`, `DONE = 1` (10_state.md R45), unless a drawing
command still waits for its words; then nothing changes (20_memory.md R84; the wait as a step that
changes nothing is the model's, log 9). -/
def Obligations.CommandsEndOrWait : Prop :=
  ∀ (i : Instr) (s t : State), exec i s = .next t →
    (t.busy = false ∧ t.done = true) ∨ (i.draws = true ∧ t = s)

/-- A drawing command whose words are not all there has no completion yet (20_memory.md R84,
45_primegen.md R224): it stays in flight (log 9). -/
def Obligations.DrawingCommandsWaitForWords : Prop :=
  (∀ (ra : Reg) (s : State), millerRabin (s.val ra) s.mrk.toNat s.rng = none →
    exec (.mrtest ra) s = .next s) ∧
  ∀ (rd : Reg) (s : State), 2 ≤ s.pbits.toNat → s.pbits.toNat ≤ 32 * s.limbs →
    genPrime s.pbits.toNat s.mrk.toNat s.rng = none → exec (.genprime rd) s = .next s

/-! ## The step -/

/-- What a step does, for every next event. The engine's turn runs the command in `CMDREG`, fails
on an illegal word, and changes nothing on an idle block (10_state.md R45, 60_exceptions.md R289);
a host access, a delivered word and a reset do what they do (20_memory.md R71, R80,
70_reset_and_hazards.md R310). The step gives each the state with that event taken off the script
(the script is the model's, log 2; so is the queue of words, log 3, and a reset as one event,
log 11). -/
def Obligations.StepRunsTheDecodedCommand : Prop :=
  ∀ s : State, s.legalWidth = true →
    (∀ i, s.busy = true → decode s.cmdreg = .ok i →
      (s.script = [] → step s = exec i s) ∧
      ∀ rest, s.script = .engine :: rest → step s = exec i { s with script := rest }) ∧
    (∀ e, s.busy = true → decode s.cmdreg = .error e →
      (s.script = [] → step s = .next (s.endsErr 3#8)) ∧
      ∀ rest, s.script = .engine :: rest →
        step s = .next ({ s with script := rest }.endsErr 3#8)) ∧
    (s.busy = false →
      (s.script = [] → step s = .next s) ∧
      ∀ rest, s.script = .engine :: rest → step s = .next { s with script := rest }) ∧
    (∀ a rest, s.script = .host a :: rest →
      step s = .next (hostAccess a { s with script := rest })) ∧
    (∀ w rest, s.script = .source w :: rest →
      step s = .next { s with rng := s.rng ++ [w], script := rest }) ∧
    ∀ p rest, s.script = .reset p :: rest →
      step s = .next (hardReset p { s with script := rest })

/-- Every state of a legal width has a next state, of the same width; a state of any other width is
no machine of the spec and faults (00_scope.md R6; the fault is the model's, log 6). -/
def Obligations.EveryStepAnswers : Prop :=
  ∀ s : State,
    (2 ≤ s.limbs → s.limbs ≤ 1024 → ∃ t, step s = .next t ∧ t.limbs = s.limbs) ∧
    (s.limbs < 2 ∨ 1024 < s.limbs → step s = .fault .illegalWidth)

/-- The invariant holds after reset. -/
def Obligations.ResetMeetsTheInvariant : Prop := State.reset.Inv

/-- Every step keeps the invariant: a legal width, magnitudes below `2^W`, `BUSY` only with
`DONE = 0` and `ERR = 0`, the error record describing the one outstanding error, and never both
`Z` and `LT` (10_state.md R21, R30, R31, R35). -/
def Obligations.EveryStepKeepsTheInvariant : Prop :=
  ∀ s t : State, s.Inv → step s = .next t → t.Inv

/-- Only the two drawing commands consume random words, each in the engine's turn (20_memory.md
R80): any other step that is neither a delivery nor a reset leaves the queue alone. The queue is the
model's (log 3), the script too (log 2). Words are consumed while `rng_req` is high (10_state.md
R50; that it is high while words are offered is the model's choice, log 17). -/
def Obligations.OnlyDrawingCommandsConsumeWords : Prop :=
  ∀ s t : State, step s = .next t → t.rng ≠ s.rng →
    (∃ w rest, s.script = .source w :: rest) ∨
    (∃ p rest, s.script = .reset p :: rest) ∨
    (∃ d rest, s.script = .host (.write 2#15 d) :: rest ∧ d.getLsbD 0 = true) ∨
    ((s.script = [] ∨ ∃ rest, s.script = .engine :: rest) ∧ s.busy = true ∧
      (∃ i, decode s.cmdreg = .ok i ∧ i.draws = true) ∧ s.rngReq = true)

/-- Who writes the result flags (10_state.md R34, R35): `PRIME` changes only by a completion of
`MRTEST` or `GENPRIME`, `Z` and `LT` only by one of `CMP`, both in the engine's turn; and all three
by a reset (the script is the model's, log 2). -/
def Obligations.ResultFlagsHaveTheirWriters : Prop :=
  ∀ s t : State, step s = .next t →
    (∃ p rest, s.script = .reset p :: rest) ∨
    (∃ d rest, s.script = .host (.write 2#15 d) :: rest ∧ d.getLsbD 0 = true) ∨
    ((t.prime ≠ s.prime ∨ t.z ≠ s.z ∨ t.lt ≠ s.lt →
        s.script = [] ∨ ∃ rest, s.script = .engine :: rest) ∧
      (t.prime ≠ s.prime → s.busy = true ∧ ∃ i, decode s.cmdreg = .ok i ∧ i.draws = true) ∧
      (t.z ≠ s.z ∨ t.lt ≠ s.lt →
        s.busy = true ∧ ∃ i, decode s.cmdreg = .ok i ∧ i.compares = true))

/-! ## The register space -/

/-- 20_memory.md R62: what a host read returns at every offset, and its one side effect. The word
returned stands in the port field `rdata` (log 5). -/
def Obligations.HostReadReturnsTheMappedWord : Prop :=
  ∀ (s : State) (addr : BitVec 15), s.legalWidth = true →
    (4 * addr.toNat = 0x00000 → hostAccess (.read addr) s = { s with rdata := 0x4D4F4E54#32 }) ∧
    (4 * addr.toNat = 0x00004 → hostAccess (.read addr) s =
      { s with rdata := BitVec.ofNat 32 (0x01100000 + 32 * s.limbs % 65536) }) ∧
    (4 * addr.toNat = 0x00008 → hostAccess (.read addr) s = { s with rdata := 0#32 }) ∧
    (4 * addr.toNat = 0x0000C → hostAccess (.read addr) s =
      { s with rdata := BitVec.ofNat 32 (s.lt.toNat * 64 + s.z.toNat * 32 + s.prime.toNat * 16 +
        s.rej.toNat * 8 + s.err.toNat * 4 + s.done.toNat * 2 + s.busy.toNat) }) ∧
    (4 * addr.toNat = 0x00010 → hostAccess (.read addr) s =
      { s with rdata := BitVec.ofNat 32 (s.errIe.toNat * 4 + s.doneIe.toNat * 2) }) ∧
    (4 * addr.toNat = 0x00014 → hostAccess (.read addr) s =
      { s with rdata := BitVec.ofNat 32 s.errcode.toNat }) ∧
    (4 * addr.toNat = 0x00018 → hostAccess (.read addr) s = { s with rdata := s.errcmd }) ∧
    (4 * addr.toNat = 0x0001C → hostAccess (.read addr) s = { s with rdata := s.cmdreg }) ∧
    (4 * addr.toNat = 0x00020 → hostAccess (.read addr) s =
      { s with rdata := BitVec.ofNat 32 s.mrk.toNat }) ∧
    (4 * addr.toNat = 0x00024 → hostAccess (.read addr) s =
      { s with rdata := BitVec.ofNat 32 s.pbits.toNat }) ∧
    (4 * addr.toNat = 0x00028 → hostAccess (.read addr) s =
      { s with rdata := BitVec.ofNat 32 (∑ r : Fin 16, s.regs[r].neg.toNat * 2 ^ r.val) }) ∧
    (0x0002C ≤ 4 * addr.toNat → 4 * addr.toNat < 0x10000 →
      hostAccess (.read addr) s = { s with rdata := 0#32 }) ∧
    (∀ (r : Reg) (i : Nat), 4 * addr.toNat = 0x10000 + 0x1000 * r.val + 4 * i →
      (i < s.limbs → s.busy = true →
        hostAccess (.read addr) s = { s with rej := true, rdata := 0#32 }) ∧
      (i < s.limbs → s.busy = false → hostAccess (.read addr) s =
        { s with rdata := BitVec.ofNat 32 (s.regs[r].mag / 2 ^ (32 * i)) }) ∧
      (s.limbs ≤ i → i < 1024 → hostAccess (.read addr) s = { s with rdata := 0#32 }))

/-- 20_memory.md R63: what a host write does at every offset (a soft reset is `resetBlock`, whose
state ResetClearsTheBlock gives). -/
def Obligations.HostWriteDoesTheMappedAction : Prop :=
  ∀ (s : State) (addr : BitVec 15) (d : Word), s.legalWidth = true →
    (4 * addr.toNat = 0x00008 → d.getLsbD 0 = true →
      hostAccess (.write addr d) s = s.resetBlock) ∧
    (4 * addr.toNat = 0x00008 → d.getLsbD 0 = false → hostAccess (.write addr d) s = s) ∧
    (4 * addr.toNat = 0x0000C → s.err = true → d.getLsbD 2 = true →
      hostAccess (.write addr d) s =
        { s with done := s.done && !d.getLsbD 1, err := false, rej := s.rej && !d.getLsbD 3,
                 errcode := 0#8, errcmd := 0#32 }) ∧
    (4 * addr.toNat = 0x0000C → s.err = false ∨ d.getLsbD 2 = false →
      hostAccess (.write addr d) s =
        { s with done := s.done && !d.getLsbD 1, rej := s.rej && !d.getLsbD 3 }) ∧
    (4 * addr.toNat = 0x00010 → hostAccess (.write addr d) s =
      { s with doneIe := d.getLsbD 1, errIe := d.getLsbD 2 }) ∧
    (4 * addr.toNat = 0x0001C → s.busy = false → s.err = false →
      hostAccess (.write addr d) s = { s with cmdreg := d, busy := true, done := false }) ∧
    (4 * addr.toNat = 0x0001C → s.busy = true ∨ s.err = true →
      hostAccess (.write addr d) s = { s with rej := true }) ∧
    (4 * addr.toNat = 0x00020 → s.busy = false → hostAccess (.write addr d) s =
      { s with mrk := BitVec.ofNat 16 d.toNat }) ∧
    (4 * addr.toNat = 0x00024 → s.busy = false → hostAccess (.write addr d) s =
      { s with pbits := BitVec.ofNat 16 d.toNat }) ∧
    (4 * addr.toNat = 0x00028 → s.busy = false → ∃ regs, hostAccess (.write addr d) s =
      { s with regs := regs } ∧ ∀ r : Reg, regs[r] = ⟨s.regs[r].mag, d.getLsbD r.val⟩) ∧
    (4 * addr.toNat ∈ [0x00020, 0x00024, 0x00028] → s.busy = true →
      hostAccess (.write addr d) s = { s with rej := true }) ∧
    (∀ (r : Reg) (i : Nat), 4 * addr.toNat = 0x10000 + 0x1000 * r.val + 4 * i →
      (i < s.limbs → s.busy = true →
        hostAccess (.write addr d) s = { s with rej := true }) ∧
      (i < s.limbs → s.busy = false → ∃ m, hostAccess (.write addr d) s =
        { s with regs := s.regs.set r ⟨m, s.regs[r].neg⟩ } ∧
        ∀ k, m.testBit k =
          if 32 * i ≤ k ∧ k < 32 * i + 32 then d.getLsbD (k - 32 * i)
          else s.regs[r].mag.testBit k) ∧
      (s.limbs ≤ i → i < 1024 → hostAccess (.write addr d) s = s)) ∧
    (4 * addr.toNat ∈ [0x00000, 0x00004, 0x00014, 0x00018] ∨
        (0x0002C ≤ 4 * addr.toNat ∧ 4 * addr.toNat < 0x10000) →
      hostAccess (.write addr d) s = s)

/-- The accesses the block refuses (10_state.md R32): each sets `REJ` and does nothing else (a
refused read returns 0), and no other access sets `REJ`. -/
def Obligations.RefusedAccessesSetRejOnly : Prop :=
  ∀ (s : State) (a : HostAccess), s.legalWidth = true →
    (s.refuses a → hostAccess a s =
      match a with
      | .read _ => { s with rej := true, rdata := 0#32 }
      | .write _ _ => { s with rej := true }) ∧
    (¬s.refuses a → (hostAccess a s).rej = true → s.rej = true)

/-- 10_state.md R44: a command word is accepted while `BUSY = 0` and `ERR = 0`, whatever word it
is, and refused otherwise. -/
def Obligations.CommandWordsAreAcceptedWhenIdle : Prop :=
  ∀ (s : State) (d : Word),
    (s.busy = false → s.err = false → hostAccess (.write 7#15 d) s =
      { s with cmdreg := d, busy := true, done := false }) ∧
    (s.busy = true ∨ s.err = true → hostAccess (.write 7#15 d) s = { s with rej := true })

/-- While a command is in flight, no host access but a soft reset changes what it works on
(20_memory.md R67, R73): the registers, `MRK`, `PBITS`, `CMDREG`, the result flags, the random
words, `BUSY` itself. -/
def Obligations.BusyBlockIsProtected : Prop :=
  ∀ (s : State) (a : HostAccess), s.busy = true →
    (∀ d, a = .write 2#15 d → d.getLsbD 0 = false) →
    (hostAccess a s).regs = s.regs ∧ (hostAccess a s).mrk = s.mrk ∧
      (hostAccess a s).pbits = s.pbits ∧ (hostAccess a s).cmdreg = s.cmdreg ∧
      (hostAccess a s).busy = true ∧ (hostAccess a s).prime = s.prime ∧
      (hostAccess a s).z = s.z ∧ (hostAccess a s).lt = s.lt ∧ (hostAccess a s).rng = s.rng

/-- 10_state.md R48, 70_reset_and_hazards.md R310, R312: what both resets leave, whatever state they
find; an access presented while `rst` is 1 is ignored, and a read returns 0. -/
def Obligations.ResetClearsTheBlock : Prop :=
  (∀ (s : State) (addr : BitVec 15) (d : Word),
    (hardReset (some (.read addr)) s).rdata = 0#32 ∧
      hardReset (some (.read addr)) s = { hardReset none s with rdata := 0#32 } ∧
      hardReset (some (.write addr d)) s = hardReset none s ∧
      (d.getLsbD 0 = true → hostAccess (.write 2#15 d) s = hardReset none s)) ∧
  ∀ (s t : State),
    (t = State.reset ∨ (∃ p, t = hardReset p s) ∨
      ∃ d, d.getLsbD 0 = true ∧ t = hostAccess (.write 2#15 d) s) →
    (∀ r : Reg, t.regs[r] = ⟨0, false⟩) ∧ t.busy = false ∧ t.done = false ∧ t.err = false ∧
      t.rej = false ∧ t.prime = false ∧ t.z = false ∧ t.lt = false ∧ t.doneIe = false ∧
      t.errIe = false ∧ t.errcode = 0#8 ∧ t.errcmd = 0#32 ∧ t.cmdreg = 0#32 ∧ t.mrk = 40#16 ∧
      t.pbits = 0#16 ∧ t.irq = false ∧ t.readWord .id = 0x4D4F4E54#32 ∧
      t.readWord .cap = BitVec.ofNat 32 (0x01100000 + 32 * t.limbs % 65536)

/-- A reset does not rewind the random source: it leaves an end of the words that were ready, all of
them where no drawing command was in flight or the parameter check of `GENPRIME` fails, and no word
is lost behind those the abandoned `MRTEST` or `GENPRIME` would have consumed
(70_reset_and_hazards.md R311; how many an abandoned command had consumed is free, log 4). -/
def Obligations.ResetLosesOnlyAbandonedWords : Prop :=
  ∀ (s : State) (p : Option HostAccess),
    (hardReset p s).rng <:+ s.rng ∧
    ((s.busy = false ∨ ∀ i, decode s.cmdreg = .ok i → i.draws = false) →
      (hardReset p s).rng = s.rng) ∧
    (∀ ra, s.busy = true → decode s.cmdreg = .ok (.mrtest ra) → ∀ verdict rest,
      millerRabin (s.val ra) s.mrk.toNat s.rng = some (verdict, rest) →
      rest <:+ (hardReset p s).rng) ∧
    (∀ rd, s.busy = true → decode s.cmdreg = .ok (.genprime rd) →
      (2 ≤ s.pbits.toNat → s.pbits.toNat ≤ 32 * s.limbs → ∀ c rest,
        genPrime s.pbits.toNat s.mrk.toNat s.rng = some (c, rest) →
        rest <:+ (hardReset p s).rng) ∧
      (s.pbits.toNat < 2 ∨ 32 * s.limbs < s.pbits.toNat → (hardReset p s).rng = s.rng))

/-- 10_state.md R49: the interrupt line follows the four bits; so after a command that fails it is
high exactly where an enable is set, and after the `ACK` word it is low. -/
def Obligations.InterruptLineFollowsTheFlags : Prop :=
  ∀ s : State,
    s.irq = ((s.done && s.doneIe) || (s.err && s.errIe)) ∧
    (∀ code, (s.endsErr code).irq = (s.doneIe || s.errIe)) ∧
    (hostAccess (.write 3#15 0x0000000E#32) s).irq = false

/-! ## Random draws -/

/-- `RandBits` (20_memory.md R81): it takes `(n + 31) div 32` words, the first least significant,
and keeps the low `n` bits; where the words are not there it gives nothing. -/
def Obligations.RandBitsReadsLittleEndianWords : Prop :=
  ∀ (n : Nat) (ws : List Word),
    (ws.length < (n + 31) / 32 → randBits n ws = none) ∧
    ((n + 31) / 32 ≤ ws.length →
      randBits n ws = some ((∑ i ∈ Finset.range ((n + 31) / 32),
        (ws.getD i 0#32).toNat * 2 ^ (32 * i)) % 2 ^ n, ws.drop ((n + 31) / 32)))

/-- `RandRange` (20_memory.md R82): `lo` without a draw where the range is one number; else the
first draw of `bitlen(span - 1)` bits below the span, and more than half of the draws are. -/
def Obligations.RandRangeRejectsUntilInRange : Prop :=
  ∀ (lo hi : Nat) (ws : List Word),
    randRange lo lo ws = some (lo, ws) ∧
    (lo < hi →
      (2 ^ bitlen (hi - lo) < 2 * (hi - lo + 1)) ∧
      randRange lo hi ws =
        match randBits (bitlen (hi - lo)) ws with
        | none => none
        | some (v, rest) => if v < hi - lo + 1 then some (lo + v, rest) else randRange lo hi rest) ∧
    (lo ≤ hi → ∀ v rest, randRange lo hi ws = some (v, rest) → lo ≤ v ∧ v ≤ hi)

/-- What is drawn depends on the words drawn only: more words behind them change nothing, and are
left over (20_memory.md R80, 45_primegen.md R223). -/
def Obligations.DrawsIgnoreLaterWords : Prop :=
  (∀ (n : Int) (k : Nat) (ws more rest : List Word) (b : Bool),
    millerRabin n k ws = some (b, rest) → millerRabin n k (ws ++ more) = some (b, rest ++ more)) ∧
  ∀ (bits k c : Nat) (ws more rest : List Word), 2 ≤ bits →
    genPrime bits k ws = some (c, rest) → genPrime bits k (ws ++ more) = some (c, rest ++ more)

/-! ## Primality -/

/-- 44_primality.md R202: below 2 not prime; a multiple of a small prime is prime exactly if it is
that prime; neither draws; a survivor is odd, has no small prime factor and is at least 31. -/
def Obligations.SieveDecidesSmallFactors : Prop :=
  (∀ (n : Int) (k : Nat) (ws : List Word), n < 2 → millerRabin n k ws = some (false, ws)) ∧
  (∀ (n k : Nat) (ws : List Word) (p : Nat), 2 ≤ n →
    p ∈ [2, 3, 5, 7, 11, 13, 17, 19, 23, 29] → n % p = 0 →
    millerRabin (n : Int) k ws = some (decide (n ∈ [2, 3, 5, 7, 11, 13, 17, 19, 23, 29]), ws)) ∧
  ∀ n : Nat, 2 ≤ n → sieve n = none →
    n % 2 = 1 ∧ (∀ p ∈ [2, 3, 5, 7, 11, 13, 17, 19, 23, 29], n % p ≠ 0) ∧ 31 ≤ n

/-- 44_primality.md R203: `n - 1 = 2^s · d` with `d` odd; `s` and `d` are at least 1. -/
def Obligations.DecompositionSplitsOffTwos : Prop :=
  ∀ n : Nat, n % 2 = 1 → 3 ≤ n →
    2 ^ (decompose n).1 * (decompose n).2 = n - 1 ∧ (decompose n).2 % 2 = 1 ∧
      1 ≤ (decompose n).1 ∧ 1 ≤ (decompose n).2

/-- 44_primality.md R204: a round draws its base in `[2, n-2]` and passes exactly if
`a^d mod n` is 1 or one of the values `a^(2^j · d) mod n`, `j < s`, is `n - 1`. -/
def Obligations.RoundPassesForStrongProbablePrimes : Prop :=
  ∀ (n s d : Nat) (ws : List Word), 5 ≤ n → 1 ≤ s →
    (randRange 2 (n - 2) ws = none → mrRound n s d ws = none) ∧
    ∀ (a : Nat) (rest : List Word), randRange 2 (n - 2) ws = some (a, rest) →
      ∃ b : Bool, mrRound n s d ws = some (b, rest) ∧
        (b = true ↔ a ^ d % n = 1 ∨ ∃ j < s, a ^ (2 ^ j * d) % n = n - 1)

/-- A survivor of the sieve is tested by rounds, one after another, each with a base of its own, and
the first that fails ends the test (44_primality.md R207). How many words a test takes (R209): none
where the sieve decides; else a multiple of the words of one draw, one draw or more a round. -/
def Obligations.TestRunsItsRoundsOnWholeDraws : Prop :=
  (∀ (n k : Nat) (ws : List Word), 2 ≤ n → sieve n = none →
    millerRabin (n : Int) 0 ws = some (true, ws) ∧
    millerRabin (n : Int) (k + 1) ws =
      match mrRound n (decompose n).1 (decompose n).2 ws with
      | none => none
      | some (false, rest) => some (false, rest)
      | some (true, rest) => millerRabin (n : Int) k rest) ∧
  ∀ (n k : Nat) (ws rest : List Word) (b : Bool), 2 ≤ n →
    millerRabin (n : Int) k ws = some (b, rest) →
    (sieve n ≠ none → rest = ws) ∧
    (sieve n = none → ∃ passes : Nat,
      ws.length = rest.length + passes * ((bitlen (n - 4) + 31) / 32) ∧
        (b = true → k ≤ passes) ∧ (b = false → 1 ≤ passes))

/-- No false negatives (44_primality.md R208, first half): a prime is declared prime for every
round count and every sequence of random words. The composites of 46_host_procedures.md R260 item 4
are declared composite. -/
def Obligations.PrimesAlwaysPassTheTest : Prop :=
  (∀ n : Nat, Nat.Prime n → OracleAnswers n true) ∧
    ∀ n ∈ [4, 15, 341], OracleAnswers n false

/-- What a generated prime is (45_primegen.md R222): odd, of exactly the asked number of bits,
accepted by the oracle, and a true prime where it is below 961. -/
def Obligations.GeneratedPrimesHaveTheirForm : Prop :=
  ∀ (bits k c : Nat) (ws rest : List Word), 2 ≤ bits → genPrime bits k ws = some (c, rest) →
    c % 2 = 1 ∧ bitlen c = bits ∧ 2 ^ (bits - 1) + 1 ≤ c ∧ c < 2 ^ bits ∧
      (∃ ws', ws' <:+ ws ∧ millerRabin (c : Int) k ws' = some (true, rest)) ∧
      (c < 961 → Nat.Prime c)

/-- A stream of zero words brings an eight-bit generation to no end (45_primegen.md R224): the
command stays in flight for as long as the source gives zeros. That it does so by a step that
changes nothing is the model's choice (log 9). -/
def Obligations.ZeroWordsNeverGenerate : Prop :=
  ∀ (rd : Reg) (s : State) (m : Nat), s.pbits = 8#16 → 1 ≤ s.limbs →
    s.rng = List.replicate m 0#32 → exec (.genprime rd) s = .next s

/-! ## The reference algorithms and the arithmetic behind the commands -/

/-- 42_xgcd.md R170: the base case, the recursion, and the postcondition. -/
def Obligations.XgcdFollowsItsRecursion : Prop :=
  ∀ a b : Nat,
    xgcd a 0 = (a, 1, 0) ∧
    (b ≠ 0 → xgcd a b = ((xgcd b (a % b)).1, (xgcd b (a % b)).2.2,
      (xgcd b (a % b)).2.1 - ((a / b : Nat) : Int) * (xgcd b (a % b)).2.2)) ∧
    (xgcd a b).1 = Nat.gcd a b ∧
    (a : Int) * (xgcd a b).2.1 + (b : Int) * (xgcd a b).2.2 = (Nat.gcd a b : Int)

/-- The coefficients fit a register (42_xgcd.md R172). -/
def Obligations.BezoutCoefficientsAreBounded : Prop :=
  ∀ a b : Nat,
    ((xgcd a b).2.1.natAbs ≤ max 1 b ∧ (xgcd a b).2.2.natAbs ≤ max 1 a) ∧
    (1 ≤ a → 1 ≤ b →
      (xgcd a b).2.1.natAbs ≤ max 1 (b / (2 * Nat.gcd a b)) ∧
      (xgcd a b).2.2.natAbs ≤ max 1 (a / (2 * Nat.gcd a b)))

/-- The iterative loop gives the recursion's triple (42_xgcd.md R173). -/
def Obligations.IterativeEuclidAgrees : Prop := ∀ a b : Nat, xgcdIter a b = xgcd a b

/-- Barrett's algorithm gives the remainder with at most one correction (41_reduction.md R152). -/
def Obligations.BarrettGivesTheRemainder : Prop :=
  ∀ width x n : Nat, x < 2 ^ (2 * width) → 1 ≤ n → n < 2 ^ width →
    barrett width x n = x % n ∧
      (barrettEstimate width x n = x / n ∨ barrettEstimate width x n + 1 = x / n)

/-- The word-serial algorithm gives the Montgomery product, and every pass stays below `2N`
(41_reduction.md R155). -/
def Obligations.WordSerialMontgomeryAgrees : Prop :=
  ∀ limbs a b n : Nat, n % 2 = 1 → n < 2 ^ (32 * limbs) → a < n → b < n →
    montMulRef limbs a b n = montMul (32 * limbs) a b n ∧
      ∀ i ≤ limbs, montPasses a b n i < 2 * n

/-- The identities a program relies on (41_reduction.md R153): the product of two Montgomery forms
is the Montgomery form of the product, and leaving the form undoes entering it. -/
def Obligations.MontgomeryFormIsPreserved : Prop :=
  ∀ width a b n : Nat, n % 2 = 1 →
    montMul width (montIn width a n) (montIn width b n) n = montIn width (a * b) n ∧
      montOut width (montIn width a n) n = a % n ∧
      montOut width (montMul width (montIn width a n) (montIn width b n) n) n = a * b % n

/-- Whichever reducer the exponentiation engine uses, the result is the same (43_modexp.md R191,
R192). -/
def Obligations.ExponentiationPathsAgree : Prop :=
  ∀ width b e m : Nat, 1 ≤ m → m < 2 ^ width → b < 2 ^ width →
    modExp b e m = b ^ e % m ∧ modExpEngine width b e m = b ^ e % m

/-! ## The host's side -/

/-- `LDR` then `RDR` (20_memory.md R74): the limb and sign writes make the register hold the
value, change nothing else of the block, and the reads yield it back. The pseudo-operations are
functions over the block's accesses, which is the model's form of them (log 12). -/
def Obligations.LoadedRegistersReadBack : Prop :=
  ∀ (s : State) (r : Reg) (v : Int), s.legalWidth = true → s.busy = false → s.RegsBounded →
    v.natAbs < 2 ^ (32 * s.limbs) →
    (∃ d, loadReg r v s = { s.putReg r v with rdata := d }) ∧ (readReg r (loadReg r v s)).1 = v

/-- Big-endian bytes and integers (46_host_procedures.md R250, R251): bytes come back without
their leading zeros, integers come back. Text and bytes (R252, R253; UTF-8 itself is taken from its
standard, log 15): text comes back, and through an integer too where it does not begin with
U+0000. -/
def Obligations.TranscoderRoundTrips : Prop :=
  (∀ v : Nat, bytesToInteger (integerToBytes v) = v) ∧
  (∀ bs : List Byte, integerToBytes (bytesToInteger bs) = bs.dropWhile (· == 0#8)) ∧
  (∀ text : List Char, utf8Decode (utf8 text) = some text) ∧
  ∀ (text : List Char) (n : Int), text.head? ≠ some (Char.ofNat 0) →
    ((bytesToInteger (utf8 text) : Int) < n →
      encodeMessage text n = .ok (bytesToInteger (utf8 text)) ∧
        decodeMessage (bytesToInteger (utf8 text)) = .ok text) ∧
    (n ≤ (bytesToInteger (utf8 text) : Int) → encodeMessage text n = .error .messageTooLarge)

/-- The round trips of 46_host_procedures.md R260 for true primes. Item 1: exponentiation with the
second exponent undoes exponentiation with the first, so `decrypt_integer` gives back what
`encrypt_integer` was given (R255, R256); the boundary of item 6. Item 2: `decrypt_message` gives
back the text `encrypt_message` was given (R257). Item 7: "Hi" twice gives one ciphertext (R258),
comes back, and "Hj" gives another. The procedures are functions over the block's accesses, on an
idle block without error, in three different operand registers (log 12; UTF-8, log 15). -/
def Obligations.DecryptionUndoesEncryption : Prop :=
  ∀ p q e d : Nat, Nat.Prime p → Nat.Prime q → p ≠ q →
    e * d % ((p - 1) * (q - 1)) = 1 % ((p - 1) * (q - 1)) →
    (∀ m < p * q, modExp (modExp m e (p * q)) d (p * q) = m) ∧
    ∀ (ra rb rc rd : Reg) (b : Bench), b.Ready → KeyUse.Fits ⟨ra, rb, rc, rd, p * q, e, d⟩ b →
      KeyUse.IntegersRoundTrip ⟨ra, rb, rc, rd, p * q, e, d⟩ b ∧
      KeyUse.BoundaryHolds ⟨ra, rb, rc, rd, p * q, e, d⟩ b ∧
      KeyUse.TextsRoundTrip ⟨ra, rb, rc, rd, p * q, e, d⟩ b ∧
      (18538 < p * q → KeyUse.ScenarioHolds ⟨ra, rb, rc, rd, p * q, e, d⟩ b)

/-- A key pair the host builds on an idle block meets its invariants (46_host_procedures.md R241):
two different numbers of `prime_bits` bits, their product, their totient, and two exponents inverse
to each other, with the exact bounds; `p` and `q` passed the oracle one after the other on the
block's random words, with the rounds in `MRK`; where those are 40 or more, as R240 asks of the
host, all of R241 holds. The procedure is a function over the block's accesses (log 12), which takes
the random words from the model's queue (log 3). -/
def Obligations.KeyPairsMeetTheirInvariants : Prop :=
  ∀ (primeBits : Nat) (useRandomE : Bool) (eBits : Option Nat) (rounds : Option Word)
    (b b' : Bench) (k : KeyPair), b.Ready →
    generateKeypair primeBits useRandomE eBits rounds b = .ok k b' →
    k.Numbers primeBits ∧ ExponentSelected k.phi k.e ∧
      k.OraclePassed (setRounds rounds b.block).mrk.toNat b.block.rng ∧
      (40 ≤ (setRounds rounds b.block).mrk.toNat → k.Inv primeBits)
end

