-- ==== Sys2Proof/Laws/Arith.lean ====
section
/-! SUPPORT. Small lemmas of the arithmetic functions: `bitlen`, the depth of the Euclidean
recursion, limbs. -/

namespace Sys2Proof.Machine

@[simp] theorem bitlen_zero : bitlen 0 = 0 := rfl

theorem bitlen_pos {v : Nat} (h : v ≠ 0) : 0 < bitlen v := by
  simp [bitlen, h]

theorem lt_two_pow_bitlen (v : Nat) : v < 2 ^ bitlen v := by
  unfold bitlen
  split
  · simp_all
  · exact Nat.lt_log2_self

theorem two_pow_le_of_bitlen {v : Nat} (h : v ≠ 0) : 2 ^ (bitlen v - 1) ≤ v := by
  unfold bitlen
  rw [if_neg h, Nat.add_sub_cancel]
  exact Nat.log2_self_le h

/-- The depth bound of `xgcdFuel` does not matter once it is large enough (log 13). -/
theorem xgcdFuel_enough : ∀ (f g a b : Nat), b < f → b < g → xgcdFuel f a b = xgcdFuel g a b := by
  intro f
  induction f with
  | zero => intro g a b h; omega
  | succ f ih =>
    intro g a b hf hg
    cases g with
    | zero => omega
    | succ g =>
      unfold xgcdFuel
      split
      · rfl
      · have hlt : a % b < b := Nat.mod_lt _ (by omega)
        rw [ih g b (a % b) (by omega) (by omega)]

theorem limbOf_toNat (mag i : Nat) : (limbOf mag i).toNat = mag / 2 ^ (32 * i) % 2 ^ 32 := by
  simp [limbOf]

end Sys2Proof.Machine
end

