-- ==== Sys2Proof/Laws/Encoding.lean ====
section
/-! SUPPORT. What a packed command word holds: its number, its fields, and its fixed bits under
each format's mask (30_encoding.md R101, R102). -/

namespace Sys2Proof

variable (op : BitVec 8) (rd ra rb rc rx ry : Reg)

theorem packWord_toNat :
    (packWord op rd ra rb rc rx ry).toNat =
      op.toNat * 2 ^ 24 + rd.val * 2 ^ 20 + ra.val * 2 ^ 16 + rb.val * 2 ^ 12 + rc.val * 2 ^ 8 +
        rx.val * 2 ^ 4 + ry.val := by
  unfold packWord
  simp only [BitVec.toNat_append, BitVec.toNat_ofFin]
  have := op.isLt
  repeat rw [← Nat.shiftLeft_add_eq_or_of_lt (by omega)]
  simp only [Nat.shiftLeft_eq]
  ring

@[simp] theorem opOf_packWord : opOf (packWord op rd ra rb rc rx ry) = op := by
  apply BitVec.eq_of_toNat_eq
  simp only [opOf, BitVec.extractLsb'_toNat, packWord_toNat, Nat.shiftRight_eq_div_pow]
  omega

/-- A four-bit field of a word, as a number. -/
theorem field_val (w : Word) (lo : Nat) :
    ((w.extractLsb' lo 4).toFin : Fin (2 ^ 4)).val = w.toNat / 2 ^ lo % 16 := by
  show (w.extractLsb' lo 4).toNat = _
  simp only [BitVec.extractLsb'_toNat, Nat.shiftRight_eq_div_pow]

@[simp] theorem rdOf_packWord : rdOf (packWord op rd ra rb rc rx ry) = rd := by
  apply Fin.eq_of_val_eq
  rw [rdOf, field_val, packWord_toNat]
  omega

@[simp] theorem raOf_packWord : raOf (packWord op rd ra rb rc rx ry) = ra := by
  apply Fin.eq_of_val_eq
  rw [raOf, field_val, packWord_toNat]
  omega

@[simp] theorem rbOf_packWord : rbOf (packWord op rd ra rb rc rx ry) = rb := by
  apply Fin.eq_of_val_eq
  rw [rbOf, field_val, packWord_toNat]
  omega

@[simp] theorem rcOf_packWord : rcOf (packWord op rd ra rb rc rx ry) = rc := by
  apply Fin.eq_of_val_eq
  rw [rcOf, field_val, packWord_toNat]
  omega

@[simp] theorem rxOf_packWord : rxOf (packWord op rd ra rb rc rx ry) = rx := by
  apply Fin.eq_of_val_eq
  rw [rxOf, field_val, packWord_toNat]
  omega

@[simp] theorem ryOf_packWord : ryOf (packWord op rd ra rb rc rx ry) = ry := by
  apply Fin.eq_of_val_eq
  rw [ryOf, field_val, packWord_toNat]
  omega

/-- The mask test on a packed word, bit by bit: enough for each format. -/
theorem mask_test {w m t : Word} (h : ∀ i < 32, (w.getLsbD i && m.getLsbD i) = t.getLsbD i) :
    w &&& m = t :=
  BitVec.eq_of_getLsbD_eq fun i hi => by rw [BitVec.getLsbD_and]; exact h i hi

theorem mask_z : packWord op 0 0 0 0 0 0 &&& Format.z.mask = matchWord op := by
  refine mask_test fun i hi => ?_
  simp only [packWord, Format.mask, matchWord, BitVec.getLsbD_append]
  interval_cases i <;> simp

theorem mask_d : packWord op rd 0 0 0 0 0 &&& Format.d.mask = matchWord op := by
  refine mask_test fun i hi => ?_
  simp only [packWord, Format.mask, matchWord, BitVec.getLsbD_append]
  interval_cases i <;> simp

theorem mask_a : packWord op 0 ra 0 0 0 0 &&& Format.a.mask = matchWord op := by
  refine mask_test fun i hi => ?_
  simp only [packWord, Format.mask, matchWord, BitVec.getLsbD_append]
  interval_cases i <;> simp

theorem mask_ab : packWord op 0 ra rb 0 0 0 &&& Format.ab.mask = matchWord op := by
  refine mask_test fun i hi => ?_
  simp only [packWord, Format.mask, matchWord, BitVec.getLsbD_append]
  interval_cases i <;> simp

theorem mask_dab : packWord op rd ra rb 0 0 0 &&& Format.dab.mask = matchWord op := by
  refine mask_test fun i hi => ?_
  simp only [packWord, Format.mask, matchWord, BitVec.getLsbD_append]
  interval_cases i <;> simp

theorem mask_dac : packWord op rd ra 0 rc 0 0 &&& Format.dac.mask = matchWord op := by
  refine mask_test fun i hi => ?_
  simp only [packWord, Format.mask, matchWord, BitVec.getLsbD_append]
  interval_cases i <;> simp

theorem mask_dabc : packWord op rd ra rb rc 0 0 &&& Format.dabc.mask = matchWord op := by
  refine mask_test fun i hi => ?_
  simp only [packWord, Format.mask, matchWord, BitVec.getLsbD_append]
  interval_cases i <;> simp

theorem mask_dabxy : packWord op rd ra rb 0 rx ry &&& Format.dabxy.mask = matchWord op := by
  refine mask_test fun i hi => ?_
  simp only [packWord, Format.mask, matchWord, BitVec.getLsbD_append]
  interval_cases i <;> simp

end Sys2Proof
end

