-- ==== Sys2Proof/Laws/HostPort.lean ====
section
/-! SUPPORT. Where an address leads (20_memory.md R61, R64), and the bits of a limb write
(20_memory.md R65), said once. -/

namespace Sys2Proof.Machine

theorem locateOffset_id (limbs : Nat) : locateOffset limbs 0x00 = .id := rfl
theorem locateOffset_cap (limbs : Nat) : locateOffset limbs 0x04 = .cap := rfl
theorem locateOffset_ctrl (limbs : Nat) : locateOffset limbs 0x08 = .ctrl := rfl
theorem locateOffset_status (limbs : Nat) : locateOffset limbs 0x0C = .status := rfl
theorem locateOffset_ie (limbs : Nat) : locateOffset limbs 0x10 = .ie := rfl
theorem locateOffset_errcode (limbs : Nat) : locateOffset limbs 0x14 = .errcode := rfl
theorem locateOffset_errcmd (limbs : Nat) : locateOffset limbs 0x18 = .errcmd := rfl
theorem locateOffset_cmd (limbs : Nat) : locateOffset limbs 0x1C = .cmd := rfl
theorem locateOffset_mrk (limbs : Nat) : locateOffset limbs 0x20 = .mrk := rfl
theorem locateOffset_pbits (limbs : Nat) : locateOffset limbs 0x24 = .pbits := rfl
theorem locateOffset_sign (limbs : Nat) : locateOffset limbs 0x28 = .sign := rfl

/-- The reserved offsets between `SIGN` and the operand window. -/
theorem locateOffset_gap (limbs : Nat) {off : Nat} (h : 0x2C ≤ off) (h' : off < 0x10000) :
    locateOffset limbs off = .reserved := by
  unfold locateOffset
  simp only [show off ≠ 0x00 by omega, show off ≠ 0x04 by omega, show off ≠ 0x08 by omega,
    show off ≠ 0x0C by omega, show off ≠ 0x10 by omega, show off ≠ 0x14 by omega,
    show off ≠ 0x18 by omega, show off ≠ 0x1C by omega, show off ≠ 0x20 by omega,
    show off ≠ 0x24 by omega, show off ≠ 0x28 by omega, h', if_false, if_true]

/-- The operand window: limb `i` of register `r`, or reserved beyond the last limb. -/
theorem locateOffset_window (limbs : Nat) (r : Reg) {off i : Nat} (hi : i < 1024)
    (h : off = 0x10000 + 0x1000 * r.val + 4 * i) :
    locateOffset limbs off = if i < limbs then .limb r i else .reserved := by
  have hr := r.isLt
  have hlimb : off % 0x1000 / 4 = i := by omega
  have hreg : Fin.ofNat 16 ((off - 0x10000) / 0x1000) = r := by
    apply Fin.ext
    simp only [Fin.ofNat]
    omega
  unfold locateOffset
  rw [hlimb, hreg]
  simp only [show off ≠ 0x00 by omega, show off ≠ 0x04 by omega, show off ≠ 0x08 by omega,
    show off ≠ 0x0C by omega, show off ≠ 0x10 by omega, show off ≠ 0x14 by omega,
    show off ≠ 0x18 by omega, show off ≠ 0x1C by omega, show off ≠ 0x20 by omega,
    show off ≠ 0x24 by omega, show off ≠ 0x28 by omega, show ¬off < 0x10000 by omega, if_false]

/-- Every offset is a control register's, reserved between them and the window, or a limb's. -/
theorem offset_cases {off : Nat} (h4 : off % 4 = 0) (hlt : off < 0x20000) :
    (off = 0x00 ∨ off = 0x04 ∨ off = 0x08 ∨ off = 0x0C ∨ off = 0x10 ∨ off = 0x14 ∨ off = 0x18 ∨
        off = 0x1C ∨ off = 0x20 ∨ off = 0x24 ∨ off = 0x28) ∨
      (0x2C ≤ off ∧ off < 0x10000) ∨
        ∃ (r : Reg) (i : Nat), i < 1024 ∧ off = 0x10000 + 0x1000 * r.val + 4 * i := by
  by_cases h : off < 0x2C
  · left
    omega
  · by_cases h' : off < 0x10000
    · exact .inr (.inl ⟨by omega, h'⟩)
    · refine .inr (.inr ⟨⟨(off - 0x10000) / 0x1000, by omega⟩, off % 0x1000 / 4, by omega, ?_⟩)
      simp only
      omega

/-- The bits of a magnitude after a limb write: the limb's from the word, the others kept. -/
theorem testBit_setLimb (mag i : Nat) (d : Word) (k : Nat) :
    (setLimb mag i d).testBit k =
      if 32 * i ≤ k ∧ k < 32 * i + 32 then d.getLsbD (k - 32 * i) else mag.testBit k := by
  have split : setLimb mag i d =
      2 ^ (32 * i) * (2 ^ 32 * (mag / 2 ^ (32 * (i + 1))) + d.toNat) + mag % 2 ^ (32 * i) := by
    unfold setLimb
    rw [show 32 * (i + 1) = 32 * i + 32 by ring, pow_add]
    ring
  rw [split, Nat.testBit_two_pow_mul_add _ (Nat.mod_lt _ (by positivity)),
    Nat.testBit_two_pow_mul_add _ d.isLt, Nat.testBit_mod_two_pow, Nat.testBit_div_two_pow]
  by_cases h1 : k < 32 * i
  · simp [h1, show ¬32 * i ≤ k by omega]
  · by_cases h2 : k - 32 * i < 32
    · simp [h1, h2, show 32 * i ≤ k by omega, show k < 32 * i + 32 by omega, BitVec.getLsbD]
    · simp only [h1, h2, show ¬(32 * i ≤ k ∧ k < 32 * i + 32) by omega, if_false, decide_false]
      congr 1
      omega

/-- A limb write of a legal limb keeps the bound of the magnitude. -/
theorem setLimb_lt {mag i limbs : Nat} (d : Word) (h : mag < 2 ^ (32 * limbs)) (hi : i < limbs) :
    setLimb mag i d < 2 ^ (32 * limbs) := by
  apply Nat.lt_pow_two_of_testBit
  intro k hk
  rw [testBit_setLimb, if_neg (by omega)]
  exact Nat.testBit_lt_two_pow (lt_of_lt_of_le h (Nat.pow_le_pow_right (by norm_num) hk))

end Sys2Proof.Machine
end

