-- ==== Sys2Proof/Laws/State.lean ====
section
/-! SUPPORT. One lemma per field per update of the state, each true by unfolding: later proofs need
not unfold a record update. -/

namespace Sys2Proof.Machine

variable (s : State)

@[simp] theorem State.wr_limbs (r : Reg) (v : Int) : (s.wr r v).limbs = s.limbs := rfl
@[simp] theorem State.wr_regs (r : Reg) (v : Int) :
    (s.wr r v).regs = s.regs.set r (BigReg.ofInt v) := rfl
@[simp] theorem State.wr_busy (r : Reg) (v : Int) : (s.wr r v).busy = s.busy := rfl
@[simp] theorem State.wr_done (r : Reg) (v : Int) : (s.wr r v).done = s.done := rfl
@[simp] theorem State.wr_err (r : Reg) (v : Int) : (s.wr r v).err = s.err := rfl
@[simp] theorem State.wr_rej (r : Reg) (v : Int) : (s.wr r v).rej = s.rej := rfl
@[simp] theorem State.wr_prime (r : Reg) (v : Int) : (s.wr r v).prime = s.prime := rfl
@[simp] theorem State.wr_z (r : Reg) (v : Int) : (s.wr r v).z = s.z := rfl
@[simp] theorem State.wr_lt (r : Reg) (v : Int) : (s.wr r v).lt = s.lt := rfl
@[simp] theorem State.wr_doneIe (r : Reg) (v : Int) : (s.wr r v).doneIe = s.doneIe := rfl
@[simp] theorem State.wr_errIe (r : Reg) (v : Int) : (s.wr r v).errIe = s.errIe := rfl
@[simp] theorem State.wr_errcode (r : Reg) (v : Int) : (s.wr r v).errcode = s.errcode := rfl
@[simp] theorem State.wr_errcmd (r : Reg) (v : Int) : (s.wr r v).errcmd = s.errcmd := rfl
@[simp] theorem State.wr_cmdreg (r : Reg) (v : Int) : (s.wr r v).cmdreg = s.cmdreg := rfl
@[simp] theorem State.wr_mrk (r : Reg) (v : Int) : (s.wr r v).mrk = s.mrk := rfl
@[simp] theorem State.wr_pbits (r : Reg) (v : Int) : (s.wr r v).pbits = s.pbits := rfl
@[simp] theorem State.wr_rng (r : Reg) (v : Int) : (s.wr r v).rng = s.rng := rfl
@[simp] theorem State.wr_abandons (r : Reg) (v : Int) : (s.wr r v).abandons = s.abandons := rfl
@[simp] theorem State.wr_rdata (r : Reg) (v : Int) : (s.wr r v).rdata = s.rdata := rfl
@[simp] theorem State.wr_script (r : Reg) (v : Int) : (s.wr r v).script = s.script := rfl

@[simp] theorem State.raise_limbs (e : ErrKind) : (s.raise e).limbs = s.limbs := rfl
@[simp] theorem State.raise_regs (e : ErrKind) : (s.raise e).regs = s.regs := rfl
@[simp] theorem State.raise_busy (e : ErrKind) : (s.raise e).busy = false := rfl
@[simp] theorem State.raise_done (e : ErrKind) : (s.raise e).done = true := rfl
@[simp] theorem State.raise_err (e : ErrKind) : (s.raise e).err = true := rfl
@[simp] theorem State.raise_rej (e : ErrKind) : (s.raise e).rej = s.rej := rfl
@[simp] theorem State.raise_prime (e : ErrKind) : (s.raise e).prime = s.prime := rfl
@[simp] theorem State.raise_z (e : ErrKind) : (s.raise e).z = s.z := rfl
@[simp] theorem State.raise_lt (e : ErrKind) : (s.raise e).lt = s.lt := rfl
@[simp] theorem State.raise_doneIe (e : ErrKind) : (s.raise e).doneIe = s.doneIe := rfl
@[simp] theorem State.raise_errIe (e : ErrKind) : (s.raise e).errIe = s.errIe := rfl
@[simp] theorem State.raise_errcode (e : ErrKind) : (s.raise e).errcode = e.code := rfl
@[simp] theorem State.raise_errcmd (e : ErrKind) : (s.raise e).errcmd = s.cmdreg := rfl
@[simp] theorem State.raise_cmdreg (e : ErrKind) : (s.raise e).cmdreg = s.cmdreg := rfl
@[simp] theorem State.raise_mrk (e : ErrKind) : (s.raise e).mrk = s.mrk := rfl
@[simp] theorem State.raise_pbits (e : ErrKind) : (s.raise e).pbits = s.pbits := rfl
@[simp] theorem State.raise_rng (e : ErrKind) : (s.raise e).rng = s.rng := rfl
@[simp] theorem State.raise_abandons (e : ErrKind) : (s.raise e).abandons = s.abandons := rfl
@[simp] theorem State.raise_rdata (e : ErrKind) : (s.raise e).rdata = s.rdata := rfl
@[simp] theorem State.raise_script (e : ErrKind) : (s.raise e).script = s.script := rfl

@[simp] theorem State.succeed_limbs : s.succeed.limbs = s.limbs := rfl
@[simp] theorem State.succeed_regs : s.succeed.regs = s.regs := rfl
@[simp] theorem State.succeed_busy : s.succeed.busy = false := rfl
@[simp] theorem State.succeed_done : s.succeed.done = true := rfl
@[simp] theorem State.succeed_err : s.succeed.err = s.err := rfl
@[simp] theorem State.succeed_rej : s.succeed.rej = s.rej := rfl
@[simp] theorem State.succeed_prime : s.succeed.prime = s.prime := rfl
@[simp] theorem State.succeed_z : s.succeed.z = s.z := rfl
@[simp] theorem State.succeed_lt : s.succeed.lt = s.lt := rfl
@[simp] theorem State.succeed_doneIe : s.succeed.doneIe = s.doneIe := rfl
@[simp] theorem State.succeed_errIe : s.succeed.errIe = s.errIe := rfl
@[simp] theorem State.succeed_errcode : s.succeed.errcode = s.errcode := rfl
@[simp] theorem State.succeed_errcmd : s.succeed.errcmd = s.errcmd := rfl
@[simp] theorem State.succeed_cmdreg : s.succeed.cmdreg = s.cmdreg := rfl
@[simp] theorem State.succeed_mrk : s.succeed.mrk = s.mrk := rfl
@[simp] theorem State.succeed_pbits : s.succeed.pbits = s.pbits := rfl
@[simp] theorem State.succeed_rng : s.succeed.rng = s.rng := rfl
@[simp] theorem State.succeed_abandons : s.succeed.abandons = s.abandons := rfl
@[simp] theorem State.succeed_rdata : s.succeed.rdata = s.rdata := rfl
@[simp] theorem State.succeed_script : s.succeed.script = s.script := rfl

@[simp] theorem State.accept_limbs (d : Word) : (s.accept d).limbs = s.limbs := rfl
@[simp] theorem State.accept_regs (d : Word) : (s.accept d).regs = s.regs := rfl
@[simp] theorem State.accept_busy (d : Word) : (s.accept d).busy = true := rfl
@[simp] theorem State.accept_done (d : Word) : (s.accept d).done = false := rfl
@[simp] theorem State.accept_err (d : Word) : (s.accept d).err = s.err := rfl
@[simp] theorem State.accept_rej (d : Word) : (s.accept d).rej = s.rej := rfl
@[simp] theorem State.accept_prime (d : Word) : (s.accept d).prime = s.prime := rfl
@[simp] theorem State.accept_z (d : Word) : (s.accept d).z = s.z := rfl
@[simp] theorem State.accept_lt (d : Word) : (s.accept d).lt = s.lt := rfl
@[simp] theorem State.accept_doneIe (d : Word) : (s.accept d).doneIe = s.doneIe := rfl
@[simp] theorem State.accept_errIe (d : Word) : (s.accept d).errIe = s.errIe := rfl
@[simp] theorem State.accept_errcode (d : Word) : (s.accept d).errcode = s.errcode := rfl
@[simp] theorem State.accept_errcmd (d : Word) : (s.accept d).errcmd = s.errcmd := rfl
@[simp] theorem State.accept_cmdreg (d : Word) : (s.accept d).cmdreg = d := rfl
@[simp] theorem State.accept_mrk (d : Word) : (s.accept d).mrk = s.mrk := rfl
@[simp] theorem State.accept_pbits (d : Word) : (s.accept d).pbits = s.pbits := rfl
@[simp] theorem State.accept_rng (d : Word) : (s.accept d).rng = s.rng := rfl
@[simp] theorem State.accept_abandons (d : Word) : (s.accept d).abandons = s.abandons := rfl
@[simp] theorem State.accept_rdata (d : Word) : (s.accept d).rdata = s.rdata := rfl
@[simp] theorem State.accept_script (d : Word) : (s.accept d).script = s.script := rfl

@[simp] theorem State.reject_limbs : s.reject.limbs = s.limbs := rfl
@[simp] theorem State.reject_regs : s.reject.regs = s.regs := rfl
@[simp] theorem State.reject_busy : s.reject.busy = s.busy := rfl
@[simp] theorem State.reject_done : s.reject.done = s.done := rfl
@[simp] theorem State.reject_err : s.reject.err = s.err := rfl
@[simp] theorem State.reject_rej : s.reject.rej = true := rfl
@[simp] theorem State.reject_prime : s.reject.prime = s.prime := rfl
@[simp] theorem State.reject_z : s.reject.z = s.z := rfl
@[simp] theorem State.reject_lt : s.reject.lt = s.lt := rfl
@[simp] theorem State.reject_doneIe : s.reject.doneIe = s.doneIe := rfl
@[simp] theorem State.reject_errIe : s.reject.errIe = s.errIe := rfl
@[simp] theorem State.reject_errcode : s.reject.errcode = s.errcode := rfl
@[simp] theorem State.reject_errcmd : s.reject.errcmd = s.errcmd := rfl
@[simp] theorem State.reject_cmdreg : s.reject.cmdreg = s.cmdreg := rfl
@[simp] theorem State.reject_mrk : s.reject.mrk = s.mrk := rfl
@[simp] theorem State.reject_pbits : s.reject.pbits = s.pbits := rfl
@[simp] theorem State.reject_rng : s.reject.rng = s.rng := rfl
@[simp] theorem State.reject_abandons : s.reject.abandons = s.abandons := rfl
@[simp] theorem State.reject_rdata : s.reject.rdata = s.rdata := rfl
@[simp] theorem State.reject_script : s.reject.script = s.script := rfl

@[simp] theorem State.writeIe_limbs (d : Word) : (s.writeIe d).limbs = s.limbs := rfl
@[simp] theorem State.writeIe_regs (d : Word) : (s.writeIe d).regs = s.regs := rfl
@[simp] theorem State.writeIe_busy (d : Word) : (s.writeIe d).busy = s.busy := rfl
@[simp] theorem State.writeIe_done (d : Word) : (s.writeIe d).done = s.done := rfl
@[simp] theorem State.writeIe_err (d : Word) : (s.writeIe d).err = s.err := rfl
@[simp] theorem State.writeIe_rej (d : Word) : (s.writeIe d).rej = s.rej := rfl
@[simp] theorem State.writeIe_prime (d : Word) : (s.writeIe d).prime = s.prime := rfl
@[simp] theorem State.writeIe_z (d : Word) : (s.writeIe d).z = s.z := rfl
@[simp] theorem State.writeIe_lt (d : Word) : (s.writeIe d).lt = s.lt := rfl
@[simp] theorem State.writeIe_doneIe (d : Word) : (s.writeIe d).doneIe = d.getLsbD 1 := rfl
@[simp] theorem State.writeIe_errIe (d : Word) : (s.writeIe d).errIe = d.getLsbD 2 := rfl
@[simp] theorem State.writeIe_errcode (d : Word) : (s.writeIe d).errcode = s.errcode := rfl
@[simp] theorem State.writeIe_errcmd (d : Word) : (s.writeIe d).errcmd = s.errcmd := rfl
@[simp] theorem State.writeIe_cmdreg (d : Word) : (s.writeIe d).cmdreg = s.cmdreg := rfl
@[simp] theorem State.writeIe_mrk (d : Word) : (s.writeIe d).mrk = s.mrk := rfl
@[simp] theorem State.writeIe_pbits (d : Word) : (s.writeIe d).pbits = s.pbits := rfl
@[simp] theorem State.writeIe_rng (d : Word) : (s.writeIe d).rng = s.rng := rfl
@[simp] theorem State.writeIe_abandons (d : Word) : (s.writeIe d).abandons = s.abandons := rfl
@[simp] theorem State.writeIe_rdata (d : Word) : (s.writeIe d).rdata = s.rdata := rfl
@[simp] theorem State.writeIe_script (d : Word) : (s.writeIe d).script = s.script := rfl

@[simp] theorem State.writeSigns_limbs (d : Word) : (s.writeSigns d).limbs = s.limbs := rfl
@[simp] theorem State.writeSigns_regs (d : Word) :
    (s.writeSigns d).regs = Vector.ofFn fun r : Fin 16 => { s.regs[r] with neg := d.getLsbD r.val } := rfl
@[simp] theorem State.writeSigns_busy (d : Word) : (s.writeSigns d).busy = s.busy := rfl
@[simp] theorem State.writeSigns_done (d : Word) : (s.writeSigns d).done = s.done := rfl
@[simp] theorem State.writeSigns_err (d : Word) : (s.writeSigns d).err = s.err := rfl
@[simp] theorem State.writeSigns_rej (d : Word) : (s.writeSigns d).rej = s.rej := rfl
@[simp] theorem State.writeSigns_prime (d : Word) : (s.writeSigns d).prime = s.prime := rfl
@[simp] theorem State.writeSigns_z (d : Word) : (s.writeSigns d).z = s.z := rfl
@[simp] theorem State.writeSigns_lt (d : Word) : (s.writeSigns d).lt = s.lt := rfl
@[simp] theorem State.writeSigns_doneIe (d : Word) : (s.writeSigns d).doneIe = s.doneIe := rfl
@[simp] theorem State.writeSigns_errIe (d : Word) : (s.writeSigns d).errIe = s.errIe := rfl
@[simp] theorem State.writeSigns_errcode (d : Word) : (s.writeSigns d).errcode = s.errcode := rfl
@[simp] theorem State.writeSigns_errcmd (d : Word) : (s.writeSigns d).errcmd = s.errcmd := rfl
@[simp] theorem State.writeSigns_cmdreg (d : Word) : (s.writeSigns d).cmdreg = s.cmdreg := rfl
@[simp] theorem State.writeSigns_mrk (d : Word) : (s.writeSigns d).mrk = s.mrk := rfl
@[simp] theorem State.writeSigns_pbits (d : Word) : (s.writeSigns d).pbits = s.pbits := rfl
@[simp] theorem State.writeSigns_rng (d : Word) : (s.writeSigns d).rng = s.rng := rfl
@[simp] theorem State.writeSigns_abandons (d : Word) : (s.writeSigns d).abandons = s.abandons := rfl
@[simp] theorem State.writeSigns_rdata (d : Word) : (s.writeSigns d).rdata = s.rdata := rfl
@[simp] theorem State.writeSigns_script (d : Word) : (s.writeSigns d).script = s.script := rfl

@[simp] theorem State.compareFlags_limbs (a b : Int) : (s.compareFlags a b).limbs = s.limbs := rfl
@[simp] theorem State.compareFlags_regs (a b : Int) : (s.compareFlags a b).regs = s.regs := rfl
@[simp] theorem State.compareFlags_busy (a b : Int) : (s.compareFlags a b).busy = s.busy := rfl
@[simp] theorem State.compareFlags_done (a b : Int) : (s.compareFlags a b).done = s.done := rfl
@[simp] theorem State.compareFlags_err (a b : Int) : (s.compareFlags a b).err = s.err := rfl
@[simp] theorem State.compareFlags_rej (a b : Int) : (s.compareFlags a b).rej = s.rej := rfl
@[simp] theorem State.compareFlags_prime (a b : Int) : (s.compareFlags a b).prime = s.prime := rfl
@[simp] theorem State.compareFlags_z (a b : Int) : (s.compareFlags a b).z = decide (a = b) := rfl
@[simp] theorem State.compareFlags_lt (a b : Int) : (s.compareFlags a b).lt = decide (a < b) := rfl
@[simp] theorem State.compareFlags_doneIe (a b : Int) :
    (s.compareFlags a b).doneIe = s.doneIe := rfl
@[simp] theorem State.compareFlags_errIe (a b : Int) : (s.compareFlags a b).errIe = s.errIe := rfl
@[simp] theorem State.compareFlags_errcode (a b : Int) :
    (s.compareFlags a b).errcode = s.errcode := rfl
@[simp] theorem State.compareFlags_errcmd (a b : Int) :
    (s.compareFlags a b).errcmd = s.errcmd := rfl
@[simp] theorem State.compareFlags_cmdreg (a b : Int) :
    (s.compareFlags a b).cmdreg = s.cmdreg := rfl
@[simp] theorem State.compareFlags_mrk (a b : Int) : (s.compareFlags a b).mrk = s.mrk := rfl
@[simp] theorem State.compareFlags_pbits (a b : Int) : (s.compareFlags a b).pbits = s.pbits := rfl
@[simp] theorem State.compareFlags_rng (a b : Int) : (s.compareFlags a b).rng = s.rng := rfl
@[simp] theorem State.compareFlags_abandons (a b : Int) :
    (s.compareFlags a b).abandons = s.abandons := rfl
@[simp] theorem State.compareFlags_rdata (a b : Int) : (s.compareFlags a b).rdata = s.rdata := rfl
@[simp] theorem State.compareFlags_script (a b : Int) :
    (s.compareFlags a b).script = s.script := rfl

@[simp] theorem State.setPrime_limbs (b : Bool) : (s.setPrime b).limbs = s.limbs := rfl
@[simp] theorem State.setPrime_regs (b : Bool) : (s.setPrime b).regs = s.regs := rfl
@[simp] theorem State.setPrime_busy (b : Bool) : (s.setPrime b).busy = s.busy := rfl
@[simp] theorem State.setPrime_done (b : Bool) : (s.setPrime b).done = s.done := rfl
@[simp] theorem State.setPrime_err (b : Bool) : (s.setPrime b).err = s.err := rfl
@[simp] theorem State.setPrime_rej (b : Bool) : (s.setPrime b).rej = s.rej := rfl
@[simp] theorem State.setPrime_prime (b : Bool) : (s.setPrime b).prime = b := rfl
@[simp] theorem State.setPrime_z (b : Bool) : (s.setPrime b).z = s.z := rfl
@[simp] theorem State.setPrime_lt (b : Bool) : (s.setPrime b).lt = s.lt := rfl
@[simp] theorem State.setPrime_doneIe (b : Bool) : (s.setPrime b).doneIe = s.doneIe := rfl
@[simp] theorem State.setPrime_errIe (b : Bool) : (s.setPrime b).errIe = s.errIe := rfl
@[simp] theorem State.setPrime_errcode (b : Bool) : (s.setPrime b).errcode = s.errcode := rfl
@[simp] theorem State.setPrime_errcmd (b : Bool) : (s.setPrime b).errcmd = s.errcmd := rfl
@[simp] theorem State.setPrime_cmdreg (b : Bool) : (s.setPrime b).cmdreg = s.cmdreg := rfl
@[simp] theorem State.setPrime_mrk (b : Bool) : (s.setPrime b).mrk = s.mrk := rfl
@[simp] theorem State.setPrime_pbits (b : Bool) : (s.setPrime b).pbits = s.pbits := rfl
@[simp] theorem State.setPrime_rng (b : Bool) : (s.setPrime b).rng = s.rng := rfl
@[simp] theorem State.setPrime_abandons (b : Bool) : (s.setPrime b).abandons = s.abandons := rfl
@[simp] theorem State.setPrime_rdata (b : Bool) : (s.setPrime b).rdata = s.rdata := rfl
@[simp] theorem State.setPrime_script (b : Bool) : (s.setPrime b).script = s.script := rfl

@[simp] theorem State.writeLimb_limbs (r : Reg) (i : Nat) (d : Word) :
    (s.writeLimb r i d).limbs = s.limbs := rfl
@[simp] theorem State.writeLimb_regs (r : Reg) (i : Nat) (d : Word) :
    (s.writeLimb r i d).regs = s.regs.set r { s.regs[r] with mag := setLimb s.regs[r].mag i d } := rfl
@[simp] theorem State.writeLimb_busy (r : Reg) (i : Nat) (d : Word) :
    (s.writeLimb r i d).busy = s.busy := rfl
@[simp] theorem State.writeLimb_done (r : Reg) (i : Nat) (d : Word) :
    (s.writeLimb r i d).done = s.done := rfl
@[simp] theorem State.writeLimb_err (r : Reg) (i : Nat) (d : Word) :
    (s.writeLimb r i d).err = s.err := rfl
@[simp] theorem State.writeLimb_rej (r : Reg) (i : Nat) (d : Word) :
    (s.writeLimb r i d).rej = s.rej := rfl
@[simp] theorem State.writeLimb_prime (r : Reg) (i : Nat) (d : Word) :
    (s.writeLimb r i d).prime = s.prime := rfl
@[simp] theorem State.writeLimb_z (r : Reg) (i : Nat) (d : Word) :
    (s.writeLimb r i d).z = s.z := rfl
@[simp] theorem State.writeLimb_lt (r : Reg) (i : Nat) (d : Word) :
    (s.writeLimb r i d).lt = s.lt := rfl
@[simp] theorem State.writeLimb_doneIe (r : Reg) (i : Nat) (d : Word) :
    (s.writeLimb r i d).doneIe = s.doneIe := rfl
@[simp] theorem State.writeLimb_errIe (r : Reg) (i : Nat) (d : Word) :
    (s.writeLimb r i d).errIe = s.errIe := rfl
@[simp] theorem State.writeLimb_errcode (r : Reg) (i : Nat) (d : Word) :
    (s.writeLimb r i d).errcode = s.errcode := rfl
@[simp] theorem State.writeLimb_errcmd (r : Reg) (i : Nat) (d : Word) :
    (s.writeLimb r i d).errcmd = s.errcmd := rfl
@[simp] theorem State.writeLimb_cmdreg (r : Reg) (i : Nat) (d : Word) :
    (s.writeLimb r i d).cmdreg = s.cmdreg := rfl
@[simp] theorem State.writeLimb_mrk (r : Reg) (i : Nat) (d : Word) :
    (s.writeLimb r i d).mrk = s.mrk := rfl
@[simp] theorem State.writeLimb_pbits (r : Reg) (i : Nat) (d : Word) :
    (s.writeLimb r i d).pbits = s.pbits := rfl
@[simp] theorem State.writeLimb_rng (r : Reg) (i : Nat) (d : Word) :
    (s.writeLimb r i d).rng = s.rng := rfl
@[simp] theorem State.writeLimb_abandons (r : Reg) (i : Nat) (d : Word) :
    (s.writeLimb r i d).abandons = s.abandons := rfl
@[simp] theorem State.writeLimb_rdata (r : Reg) (i : Nat) (d : Word) :
    (s.writeLimb r i d).rdata = s.rdata := rfl
@[simp] theorem State.writeLimb_script (r : Reg) (i : Nat) (d : Word) :
    (s.writeLimb r i d).script = s.script := rfl

@[simp] theorem State.cleared_limbs : s.cleared.limbs = s.limbs := rfl
@[simp] theorem State.cleared_regs : s.cleared.regs = Vector.replicate 16 ⟨0, false⟩ := rfl
@[simp] theorem State.cleared_busy : s.cleared.busy = false := rfl
@[simp] theorem State.cleared_done : s.cleared.done = false := rfl
@[simp] theorem State.cleared_err : s.cleared.err = false := rfl
@[simp] theorem State.cleared_rej : s.cleared.rej = false := rfl
@[simp] theorem State.cleared_prime : s.cleared.prime = false := rfl
@[simp] theorem State.cleared_z : s.cleared.z = false := rfl
@[simp] theorem State.cleared_lt : s.cleared.lt = false := rfl
@[simp] theorem State.cleared_doneIe : s.cleared.doneIe = false := rfl
@[simp] theorem State.cleared_errIe : s.cleared.errIe = false := rfl
@[simp] theorem State.cleared_errcode : s.cleared.errcode = 0#8 := rfl
@[simp] theorem State.cleared_errcmd : s.cleared.errcmd = 0#32 := rfl
@[simp] theorem State.cleared_cmdreg : s.cleared.cmdreg = 0#32 := rfl
@[simp] theorem State.cleared_mrk : s.cleared.mrk = 40#16 := rfl
@[simp] theorem State.cleared_pbits : s.cleared.pbits = 0#16 := rfl
@[simp] theorem State.cleared_rng : s.cleared.rng = s.rng := rfl
@[simp] theorem State.cleared_abandons : s.cleared.abandons = s.abandons := rfl
@[simp] theorem State.cleared_rdata : s.cleared.rdata = s.rdata := rfl
@[simp] theorem State.cleared_script : s.cleared.script = s.script := rfl

@[simp] theorem State.putReg_limbs (r : Reg) (v : Int) : (s.putReg r v).limbs = s.limbs := rfl
@[simp] theorem State.putReg_regs (r : Reg) (v : Int) :
    (s.putReg r v).regs = s.regs.set r ⟨v.natAbs, decide (v < 0)⟩ := rfl
@[simp] theorem State.putReg_busy (r : Reg) (v : Int) : (s.putReg r v).busy = s.busy := rfl
@[simp] theorem State.putReg_done (r : Reg) (v : Int) : (s.putReg r v).done = s.done := rfl
@[simp] theorem State.putReg_err (r : Reg) (v : Int) : (s.putReg r v).err = s.err := rfl
@[simp] theorem State.putReg_rej (r : Reg) (v : Int) : (s.putReg r v).rej = s.rej := rfl
@[simp] theorem State.putReg_prime (r : Reg) (v : Int) : (s.putReg r v).prime = s.prime := rfl
@[simp] theorem State.putReg_z (r : Reg) (v : Int) : (s.putReg r v).z = s.z := rfl
@[simp] theorem State.putReg_lt (r : Reg) (v : Int) : (s.putReg r v).lt = s.lt := rfl
@[simp] theorem State.putReg_doneIe (r : Reg) (v : Int) : (s.putReg r v).doneIe = s.doneIe := rfl
@[simp] theorem State.putReg_errIe (r : Reg) (v : Int) : (s.putReg r v).errIe = s.errIe := rfl
@[simp] theorem State.putReg_errcode (r : Reg) (v : Int) : (s.putReg r v).errcode = s.errcode := rfl
@[simp] theorem State.putReg_errcmd (r : Reg) (v : Int) : (s.putReg r v).errcmd = s.errcmd := rfl
@[simp] theorem State.putReg_cmdreg (r : Reg) (v : Int) : (s.putReg r v).cmdreg = s.cmdreg := rfl
@[simp] theorem State.putReg_mrk (r : Reg) (v : Int) : (s.putReg r v).mrk = s.mrk := rfl
@[simp] theorem State.putReg_pbits (r : Reg) (v : Int) : (s.putReg r v).pbits = s.pbits := rfl
@[simp] theorem State.putReg_rng (r : Reg) (v : Int) : (s.putReg r v).rng = s.rng := rfl
@[simp] theorem State.putReg_abandons (r : Reg) (v : Int) :
    (s.putReg r v).abandons = s.abandons := rfl
@[simp] theorem State.putReg_rdata (r : Reg) (v : Int) : (s.putReg r v).rdata = s.rdata := rfl
@[simp] theorem State.putReg_script (r : Reg) (v : Int) : (s.putReg r v).script = s.script := rfl

@[simp] theorem State.endsOk_limbs : s.endsOk.limbs = s.limbs := rfl
@[simp] theorem State.endsOk_regs : s.endsOk.regs = s.regs := rfl
@[simp] theorem State.endsOk_busy : s.endsOk.busy = false := rfl
@[simp] theorem State.endsOk_done : s.endsOk.done = true := rfl
@[simp] theorem State.endsOk_err : s.endsOk.err = s.err := rfl
@[simp] theorem State.endsOk_rej : s.endsOk.rej = s.rej := rfl
@[simp] theorem State.endsOk_prime : s.endsOk.prime = s.prime := rfl
@[simp] theorem State.endsOk_z : s.endsOk.z = s.z := rfl
@[simp] theorem State.endsOk_lt : s.endsOk.lt = s.lt := rfl
@[simp] theorem State.endsOk_doneIe : s.endsOk.doneIe = s.doneIe := rfl
@[simp] theorem State.endsOk_errIe : s.endsOk.errIe = s.errIe := rfl
@[simp] theorem State.endsOk_errcode : s.endsOk.errcode = s.errcode := rfl
@[simp] theorem State.endsOk_errcmd : s.endsOk.errcmd = s.errcmd := rfl
@[simp] theorem State.endsOk_cmdreg : s.endsOk.cmdreg = s.cmdreg := rfl
@[simp] theorem State.endsOk_mrk : s.endsOk.mrk = s.mrk := rfl
@[simp] theorem State.endsOk_pbits : s.endsOk.pbits = s.pbits := rfl
@[simp] theorem State.endsOk_rng : s.endsOk.rng = s.rng := rfl
@[simp] theorem State.endsOk_abandons : s.endsOk.abandons = s.abandons := rfl
@[simp] theorem State.endsOk_rdata : s.endsOk.rdata = s.rdata := rfl
@[simp] theorem State.endsOk_script : s.endsOk.script = s.script := rfl

@[simp] theorem State.endsErr_limbs (code : BitVec 8) : (s.endsErr code).limbs = s.limbs := rfl
@[simp] theorem State.endsErr_regs (code : BitVec 8) : (s.endsErr code).regs = s.regs := rfl
@[simp] theorem State.endsErr_busy (code : BitVec 8) : (s.endsErr code).busy = false := rfl
@[simp] theorem State.endsErr_done (code : BitVec 8) : (s.endsErr code).done = true := rfl
@[simp] theorem State.endsErr_err (code : BitVec 8) : (s.endsErr code).err = true := rfl
@[simp] theorem State.endsErr_rej (code : BitVec 8) : (s.endsErr code).rej = s.rej := rfl
@[simp] theorem State.endsErr_prime (code : BitVec 8) : (s.endsErr code).prime = s.prime := rfl
@[simp] theorem State.endsErr_z (code : BitVec 8) : (s.endsErr code).z = s.z := rfl
@[simp] theorem State.endsErr_lt (code : BitVec 8) : (s.endsErr code).lt = s.lt := rfl
@[simp] theorem State.endsErr_doneIe (code : BitVec 8) : (s.endsErr code).doneIe = s.doneIe := rfl
@[simp] theorem State.endsErr_errIe (code : BitVec 8) : (s.endsErr code).errIe = s.errIe := rfl
@[simp] theorem State.endsErr_errcode (code : BitVec 8) : (s.endsErr code).errcode = code := rfl
@[simp] theorem State.endsErr_errcmd (code : BitVec 8) : (s.endsErr code).errcmd = s.cmdreg := rfl
@[simp] theorem State.endsErr_cmdreg (code : BitVec 8) : (s.endsErr code).cmdreg = s.cmdreg := rfl
@[simp] theorem State.endsErr_mrk (code : BitVec 8) : (s.endsErr code).mrk = s.mrk := rfl
@[simp] theorem State.endsErr_pbits (code : BitVec 8) : (s.endsErr code).pbits = s.pbits := rfl
@[simp] theorem State.endsErr_rng (code : BitVec 8) : (s.endsErr code).rng = s.rng := rfl
@[simp] theorem State.endsErr_abandons (code : BitVec 8) :
    (s.endsErr code).abandons = s.abandons := rfl
@[simp] theorem State.endsErr_rdata (code : BitVec 8) : (s.endsErr code).rdata = s.rdata := rfl
@[simp] theorem State.endsErr_script (code : BitVec 8) : (s.endsErr code).script = s.script := rfl

end Sys2Proof.Machine
end

