-- ==== Sys2Proof/Laws/Ops.lean ====
section
/-! SUPPORT. What each shared operation can do, said once: the completion step, the register
access, the host access and the step of the machine. Later proofs cite these and do not unfold
the operations. -/

namespace Sys2Proof.Machine

/-! The register access. -/

@[simp] theorem BigReg.val_ofInt (v : Int) : (BigReg.ofInt v).val = v := by
  unfold BigReg.ofInt BigReg.val
  rcases lt_trichotomy v 0 with h | rfl | h
  · have : v.natAbs ≠ 0 := by omega
    simp only [this, if_false, h, decide_true, if_true]
    omega
  · simp
  · have : v.natAbs ≠ 0 := by omega
    simp only [this, if_false, not_lt.mpr h.le, decide_false, Bool.false_eq_true]
    omega

/-- The engine never writes negative zero (10_state.md R23). -/
theorem BigReg.ofInt_not_negative_zero (v : Int) :
    ¬((BigReg.ofInt v).mag = 0 ∧ (BigReg.ofInt v).neg = true) := by
  rintro ⟨h0, hn⟩
  simp [BigReg.ofInt] at h0 hn
  omega

theorem BigReg.ofInt_nat (n : Nat) : BigReg.ofInt (n : Int) = ⟨n, false⟩ := by
  simp [BigReg.ofInt]

@[simp] theorem State.val_wr_same (s : State) (r : Reg) (v : Int) : (s.wr r v).val r = v := by
  simp [State.val]

theorem State.regs_wr_other (s : State) {r q : Reg} (v : Int) (h : q ≠ r) :
    (s.wr r v).regs[q] = s.regs[q] := by
  have h' : r.val ≠ q.val := fun e => h (Fin.ext e.symm)
  simp [Fin.getElem_fin, h']

theorem State.val_wr_other (s : State) {r q : Reg} (v : Int) (h : q ≠ r) :
    (s.wr r v).val q = s.val q := by
  simp only [State.val, State.regs_wr_other s v h]

/-- A magnitude is the absolute value of the register's value. -/
theorem State.natAbs_val (s : State) (r : Reg) : (s.val r).natAbs = s.regs[r].mag := by
  unfold State.val BigReg.val
  split
  · simp_all
  · split <;> simp

@[simp] theorem State.width_eq (s : State) : s.width = 32 * s.limbs := rfl

theorem State.fits_iff (s : State) (v : Int) :
    s.fits v = true ↔ v.natAbs < 2 ^ (32 * s.limbs) :=
  decide_eq_true_iff

theorem State.wr_eq_putReg (s : State) (r : Reg) (v : Int) : s.wr r v = s.putReg r v := rfl

/-! The completion step. -/

theorem ErrKind.code_range (e : ErrKind) : e.code ∈ [1#8, 2#8, 3#8, 4#8] := by
  cases e <;> decide

theorem ErrKind.code_ne_zero (e : ErrKind) : e.code ≠ 0#8 := by
  cases e <;> decide

/-- A completion step commits, fails, or waits. -/
theorem settle_next {s t : State} {v : Verdict} (h : settle s v = .next t) :
    (∃ u, v = .commit u ∧ t = u.succeed) ∨ (∃ e, v = .error e ∧ t = s.raise e) ∨
      (v = .wait ∧ t = s) := by
  cases v with
  | commit u => exact .inl ⟨u, rfl, by cases h; rfl⟩
  | error e => exact .inr (.inl ⟨e, rfl, by cases h; rfl⟩)
  | wait => exact .inr (.inr ⟨rfl, by cases h; rfl⟩)

/-- Every completion step answers a next state. -/
theorem settle_total (s : State) (v : Verdict) : ∃ t, settle s v = .next t := by
  cases v with
  | commit u => exact ⟨_, rfl⟩
  | error e => exact ⟨_, rfl⟩
  | wait => exact ⟨_, rfl⟩

theorem writeChecked_fits {s : State} {v : Int} (rd : Reg) (h : v.natAbs < 2 ^ (32 * s.limbs)) :
    writeChecked s rd v = .commit (s.wr rd v) := by
  unfold writeChecked
  rw [if_pos ((s.fits_iff v).2 h)]

theorem writeChecked_overflow {s : State} {v : Int} (rd : Reg)
    (h : 2 ^ (32 * s.limbs) ≤ v.natAbs) : writeChecked s rd v = .error .overflow := by
  unfold writeChecked
  rw [if_neg fun hf => absurd ((s.fits_iff v).1 hf) (not_lt.mpr h)]

/-- Every meaning is a completion step around one verdict. -/
theorem exec_is_settle (i : Instr) (s : State) : ∃ v, exec i s = settle s v := by
  cases i <;>
    simp only [exec, execNop, execAdd, execSub, execCmp, execMul, execBred, execMontmul,
      execMontin, execMontout, execModexp, execXgcd, execModinv, execMrtest, execGenprime] <;>
    exact ⟨_, rfl⟩

/-! Leaving the error state, and the write of `STATUS`. -/

theorem State.clearErr_cases (s : State) :
    (s.err = true ∧ s.clearErr = { s with err := false, errcode := 0#8, errcmd := 0#32 }) ∨
      (s.err = false ∧ s.clearErr = s) := by
  unfold State.clearErr
  cases h : s.err <;> simp

/-- A write of `STATUS` keeps everything but `DONE`, `ERR`, `REJ` and the error record. -/
theorem State.w1c_keeps (s : State) (d : Word) :
    (s.w1c d).limbs = s.limbs ∧ (s.w1c d).regs = s.regs ∧ (s.w1c d).busy = s.busy ∧
      (s.w1c d).prime = s.prime ∧ (s.w1c d).z = s.z ∧ (s.w1c d).lt = s.lt ∧
      (s.w1c d).doneIe = s.doneIe ∧ (s.w1c d).errIe = s.errIe ∧ (s.w1c d).cmdreg = s.cmdreg ∧
      (s.w1c d).mrk = s.mrk ∧ (s.w1c d).pbits = s.pbits ∧ (s.w1c d).rng = s.rng ∧
      (s.w1c d).abandons = s.abandons ∧ (s.w1c d).rdata = s.rdata ∧
      (s.w1c d).script = s.script := by
  unfold State.w1c
  rcases s.clearErr_cases with ⟨_, h⟩ | ⟨_, h⟩ <;> cases d.getLsbD 2 <;> simp [h]

theorem State.w1c_flags (s : State) (d : Word) :
    (s.w1c d).done = (s.done && !d.getLsbD 1) ∧ (s.w1c d).err = (s.err && !d.getLsbD 2) ∧
      (s.w1c d).rej = (s.rej && !d.getLsbD 3) := by
  unfold State.w1c
  rcases s.clearErr_cases with ⟨he, h⟩ | ⟨he, h⟩ <;> cases d.getLsbD 2 <;> simp [h, he]

/-! The host access. -/

theorem State.whenIdle_cases (s t : State) :
    (s.busy = false ∧ s.whenIdle t = t) ∨ (s.busy = true ∧ s.whenIdle t = s.reject) := by
  unfold State.whenIdle
  cases h : s.busy <;> simp

theorem State.writeCmd_cases (s : State) (d : Word) :
    (s.busy = false ∧ s.err = false ∧ s.writeCmd d = s.accept d) ∨
      ((s.busy = true ∨ s.err = true) ∧ s.writeCmd d = s.reject) := by
  unfold State.writeCmd
  cases hb : s.busy <;> cases he : s.err <;> simp

/-- A read changes nothing but `rdata`, and `REJ` where the window is read while busy. -/
theorem State.readEffect_cases (s : State) (l : Loc) :
    s.readEffect l = s ∨ (s.busy = true ∧ (∃ r i, l = .limb r i) ∧ s.readEffect l = s.reject) := by
  cases l <;> try exact .inl rfl
  rename_i r i
  unfold State.readEffect
  cases hb : s.busy
  · exact .inl rfl
  · exact .inr ⟨rfl, ⟨r, i, rfl⟩, rfl⟩

/-- Losing the words of an abandoned command touches the random source's queue and the model's
counter only, and drops no more than the bound of 70_reset_and_hazards.md R311. -/
theorem State.loseWords_cases (s : State) :
    (s.inFlightBound = 0 ∧ s.loseWords = s) ∨
      ∃ k ≤ s.inFlightBound,
        s.loseWords = { s with rng := s.rng.drop k, abandons := s.abandons + 1 } := by
  unfold State.loseWords
  split
  · exact .inl ⟨‹_›, rfl⟩
  · exact .inr ⟨_, Nat.lt_succ_iff.mp (Nat.mod_lt _ (Nat.succ_pos _)), rfl⟩

theorem State.inFlightBound_idle {s : State} (h : s.busy = false) : s.inFlightBound = 0 := by
  simp [State.inFlightBound, h]

/-- A reset of an idle block. -/
theorem State.resetBlock_idle {s : State} (h : s.busy = false) : s.resetBlock = s.cleared := by
  rcases s.loseWords_cases with ⟨_, e⟩ | ⟨k, hk, e⟩
  · rw [State.resetBlock, e]
  · rw [State.inFlightBound_idle h, Nat.le_zero] at hk
    simp only [State.resetBlock, State.loseWords, State.inFlightBound_idle h, if_true]

/-- Whatever a reset finds, it leaves the reset state but for the queue, the counter and the
model's surroundings. -/
theorem State.resetBlock_shape (s : State) :
    ∃ k ≤ s.inFlightBound, ∃ n, s.resetBlock =
      { State.reset with limbs := s.limbs, rng := s.rng.drop k, abandons := n, rdata := s.rdata,
                         script := s.script } := by
  rcases s.loseWords_cases with ⟨_, e⟩ | ⟨k, hk, e⟩
  · exact ⟨0, Nat.zero_le _, s.abandons, by rw [State.resetBlock, e]; simp [State.cleared]⟩
  · exact ⟨k, hk, s.abandons + 1, by rw [State.resetBlock, e]; rfl⟩

/-! The step. -/

/-- What a step can be: the engine's turn with nothing scheduled, or the next event. -/
theorem step_cases {s t : State} (h : step s = .next t) :
    s.legalWidth = true ∧
      ((s.script = [] ∧ engineTurn s = .next t) ∨
        ∃ e rest, s.script = e :: rest ∧ happens e { s with script := rest } = .next t) := by
  unfold step stepBlock at h
  split at h
  · refine ⟨‹_›, ?_⟩
    unfold turn at h
    split at h
    · exact .inl ⟨‹_›, h⟩
    · exact .inr ⟨_, _, ‹_›, h⟩
  · cases h

/-- The engine's turn: idle, a decoded command, or an illegal word. -/
theorem engineTurn_cases {s t : State} (h : engineTurn s = .next t) :
    (s.busy = false ∧ t = s) ∨
      (s.busy = true ∧ ∃ i, decode s.cmdreg = .ok i ∧ exec i s = .next t) ∨
      (s.busy = true ∧ (∃ e, decode s.cmdreg = .error e) ∧ t = s.raise .illegalCommand) := by
  unfold engineTurn at h
  split at h
  · unfold completeCommand at h
    split at h
    · exact .inr (.inl ⟨‹_›, _, ‹_›, h⟩)
    · exact .inr (.inr ⟨‹_›, ⟨_, ‹_›⟩, by cases h; rfl⟩)
  · refine .inl ⟨?_, by cases h; rfl⟩
    simpa using ‹¬s.busy = true›

end Sys2Proof.Machine
end

