-- ==== Sys2Proof/Laws/HostScript.lean ====
section
/-! SUPPORT. What the host's shared operations over the accesses do, said once: a limb write and a
limb read, the rows of them that `LDR` and `RDR` make (20_memory.md R74), the write of a command
word, `WAIT` and `Run(C)` (46_host_procedures.md R230), and one character's UTF-8. -/

namespace Sys2Proof.Machine

theorem State.legalWidth_limbs {s : State} (h : s.legalWidth = true) :
    2 ≤ s.limbs ∧ s.limbs ≤ 1024 := of_decide_eq_true h

/-- Where the word index of a limb leads. -/
theorem State.locate_limb {s : State} (r : Reg) {i : Nat} (hi : i < s.limbs)
    (hL : s.limbs ≤ 1024) : s.locate (wordIndex (limbOffset r i)) = .limb r i := by
  have hr := r.isLt
  have hoff : offsetOf (wordIndex (limbOffset r i)) = 0x10000 + 0x1000 * r.val + 4 * i := by
    simp only [offsetOf, wordIndex, limbOffset, BitVec.toNat_ofNat]
    omega
  rw [State.locate, locateOffset_window s.limbs r (by omega) hoff, if_pos hi]

theorem State.locate_status (s : State) : s.locate (wordIndex 0x0C) = .status := rfl
theorem State.locate_errcode (s : State) : s.locate (wordIndex 0x14) = .errcode := rfl
theorem State.locate_cmd (s : State) : s.locate (wordIndex 0x1C) = .cmd := rfl
theorem State.locate_mrk (s : State) : s.locate (wordIndex 0x20) = .mrk := rfl
theorem State.locate_pbits (s : State) : s.locate (wordIndex 0x24) = .pbits := rfl
theorem State.locate_sign (s : State) : s.locate (wordIndex 0x28) = .sign := rfl

/-- The row of limb writes of `LDR`: the bits of the limbs written come from the magnitude, the
others stay, and nothing else changes. -/
theorem loadLimbs_spec (r : Reg) (mag : Nat) (n : Nat) : ∀ (i : Nat) (s : State),
    s.busy = false → s.limbs ≤ 1024 → i + n ≤ s.limbs →
    ∃ m, loadLimbs r mag n i s = { s with regs := s.regs.set r ⟨m, s.regs[r].neg⟩ } ∧
      ∀ k, m.testBit k =
        if 32 * i ≤ k ∧ k < 32 * (i + n) then mag.testBit k else s.regs[r].mag.testBit k := by
  induction n with
  | zero =>
    intro i s _ _ _
    refine ⟨s.regs[r].mag, ?_, fun k => by rw [if_neg (by omega)]⟩
    have hself : s.regs.set r ⟨s.regs[r].mag, s.regs[r].neg⟩ = s.regs :=
      Vector.set_getElem_self r.isLt
    rw [loadLimbs, hself]
  | succ n ih =>
    intro i s hb hL hn
    have hw : hostWrite (wordIndex (limbOffset r i)) (limbOf mag i) s =
        s.writeLimb r i (limbOf mag i) := by
      rw [hostWrite, s.locate_limb r (by omega) hL]
      simp [State.writeLoc, State.whenIdle, hb]
    obtain ⟨m, hm, hbits⟩ := ih (i + 1) (s.writeLimb r i (limbOf mag i)) hb hL
      (by show i + 1 + n ≤ s.limbs; omega)
    refine ⟨m, ?_, fun k => ?_⟩
    · rw [loadLimbs, hw, hm]
      simp [State.writeLimb, Fin.getElem_fin]
    · rw [hbits k]
      have hold : (s.writeLimb r i (limbOf mag i)).regs[r].mag =
          setLimb s.regs[r].mag i (limbOf mag i) := by
        simp [State.writeLimb, Fin.getElem_fin]
      rw [hold, testBit_setLimb]
      have hlimb : ∀ j < 32, (limbOf mag i).getLsbD j = mag.testBit (32 * i + j) := by
        intro j hj
        rw [BitVec.getLsbD, limbOf_toNat, Nat.testBit_mod_two_pow, Nat.testBit_div_two_pow]
        simp [hj, Nat.add_comm]
      by_cases h1 : 32 * (i + 1) ≤ k ∧ k < 32 * (i + 1 + n)
      · rw [if_pos h1, if_pos (by omega)]
      · rw [if_neg h1]
        by_cases h2 : 32 * i ≤ k ∧ k < 32 * i + 32
        · rw [if_pos h2, if_pos (by omega), hlimb _ (by omega)]
          congr 1
          omega
        · rw [if_neg h2, if_neg (by omega)]

/-- The row of limb reads of `RDR`: the sum is the part of the magnitude in those limbs, and only
the port changes. -/
theorem readLimbs_spec (r : Reg) (n : Nat) : ∀ (i : Nat) (s : State),
    s.busy = false → s.limbs ≤ 1024 → i + n ≤ s.limbs →
    ∃ d, readLimbs r n i s =
      (s.regs[r].mag / 2 ^ (32 * i) % 2 ^ (32 * n) * 2 ^ (32 * i), { s with rdata := d }) := by
  induction n with
  | zero =>
    intro i s _ _ _
    exact ⟨s.rdata, by simp [readLimbs, Nat.mod_one]⟩
  | succ n ih =>
    intro i s hb hL hn
    have hr : hostRead (wordIndex (limbOffset r i)) s =
        { s with rdata := limbOf s.regs[r].mag i } := by
      rw [hostRead, s.locate_limb r (by omega) hL]
      simp [State.readEffect, State.readWord, hb]
    obtain ⟨d, hd⟩ := ih (i + 1) { s with rdata := limbOf s.regs[r].mag i } hb hL
      (by show i + 1 + n ≤ s.limbs; omega)
    refine ⟨d, ?_⟩
    rw [readLimbs]
    simp only [hr, hd, limbOf_toNat, Prod.mk.injEq, and_true]
    rw [show 32 * (i + 1) = 32 * i + 32 by ring, show 32 * (n + 1) = 32 + 32 * n by ring,
      pow_add, pow_add, Nat.mod_mul, Nat.div_div_eq_div_mul]
    ring

/-- The write of a command word on an idle block without an error is accepted. -/
theorem issue_idle {i : Instr} {s : State} (hb : s.busy = false) (he : s.err = false) :
    issue i s = s.accept (encode i) := by
  rw [issue, hostWrite, s.locate_cmd]
  simp [State.writeLoc, State.writeCmd, hb, he]

/-- `STATUS` bits 0, 2 and 5 are `BUSY`, `ERR` and `Z` (10_state.md R28). -/
theorem State.statusWord_bits (s : State) :
    s.statusWord.getLsbD 0 = s.busy ∧ s.statusWord.getLsbD 2 = s.err ∧
      s.statusWord.getLsbD 5 = s.z := by
  unfold State.statusWord
  cases s.busy <;> cases s.done <;> cases s.err <;> cases s.rej <;> cases s.prime <;>
    cases s.z <;> cases s.lt <;> decide

/-- A bit of the `SIGN` word is the register's sign (10_state.md R43). -/
theorem State.signWord_bit (s : State) (q : Reg) : s.signWord.getLsbD q.val = s.regs[q].neg := by
  have bit : ∀ (b : Bool) (i k : Nat), k < 32 → (bitAt b i).getLsbD k = (b && decide (k = i)) := by
    intro b i k hk
    cases b <;> simp [bitAt, hk]
  have hq := q.isLt
  unfold State.signWord
  simp only [BitVec.getLsbD_or, bit _ _ q.val (by omega)]
  fin_cases q <;> simp

/-- `Run(C)` of a command that succeeds, on an idle block without an error. -/
theorem procRun_ok {i : Instr} {b : Bench} {t : State} (hb : b.block.busy = false)
    (he : b.block.err = false) (hd : decode (encode i) = .ok i)
    (hx : exec i (b.block.accept (encode i)) = .next t) (htb : t.busy = false)
    (hte : t.err = false) :
    procRun i b = .ok t.statusWord { b with block := { t with rdata := t.statusWord } } := by
  have hturn : afterTurn (b.block.accept (encode i)) = t := by
    have hrun : engineTurn (b.block.accept (encode i)) = .next t := by
      rw [engineTurn, if_pos (by rfl), completeCommand, State.accept_cmdreg, hd]
      exact hx
    rw [afterTurn, hrun]
  have hwait : waitStatus (issue i b.block) = { t with rdata := t.statusWord } := by
    rw [issue_idle hb he, waitStatus, hturn, hostRead, t.locate_status]
    rfl
  obtain ⟨h0, h2, _⟩ := t.statusWord_bits
  rw [procRun, hwait]
  simp only [h0, h2, htb, hte, Bool.false_eq_true, if_false]

/-- A name means the reading given to it last; other names keep theirs. -/
theorem Readings.get_assign {α : Type} (x y : HostName) (a : α) (l : Readings α) :
    (l.assign x a).get y = if x = y then some a else l.get y := by
  by_cases h : x = y
  · simp [Readings.assign, Readings.get, h]
  · have rest : Readings.get y (l.filter fun p => p.1 != x) = l.get y := by
      induction l with
      | nil => rfl
      | cons p l ih =>
        by_cases hp : p.1 = x
        · simp [Readings.get, hp, ih, h]
        · simp [Readings.get, hp, ih]
    simp [Readings.assign, Readings.get, h, rest]

/-- The first character of a byte sequence that starts with a character's UTF-8 is that one. -/
theorem utf8Head_char (c : Char) (rest : List Byte) :
    utf8Head (utf8Char c ++ rest) = some (c, rest) := by
  have hvalid : c.toNat.isValidChar := c.valid
  have hlt : c.toNat < 0x110000 := by
    rcases hvalid with h | h
    · omega
    · exact h.2
  have hchar : ∀ least n, n = c.toNat → least ≤ c.toNat → charFrom least n = some c := by
    intro least n hn hl
    subst hn
    simp [charFrom, hvalid, hl]
  have hcont : ∀ n < 0x40, continuation (BitVec.ofNat 8 (0x80 + n)) = some n := by
    intro n hn
    simp only [continuation, BitVec.toNat_ofNat]
    rw [if_pos (by omega)]
    congr 1
    omega
  unfold utf8Char
  generalize c.toNat = n at *
  simp only
  split_ifs with h1 h2 h3 <;>
    simp only [utf8Head, List.cons_append, List.nil_append, BitVec.toNat_ofNat]
  · rw [if_pos (by omega), hchar _ _ (by omega) (by omega)]
    rfl
  · rw [if_neg (by omega), if_neg (by omega), if_pos (by omega), hcont _ (by omega)]
    simp only [Option.bind_eq_bind, Option.bind_some]
    rw [hchar _ _ (by omega) (by omega)]
    rfl
  · rw [if_neg (by omega), if_neg (by omega), if_neg (by omega), if_pos (by omega),
      hcont _ (by omega), hcont _ (by omega)]
    simp only [Option.bind_eq_bind, Option.bind_some]
    rw [hchar _ _ (by omega) (by omega)]
    rfl
  · rw [if_neg (by omega), if_neg (by omega), if_neg (by omega), if_neg (by omega),
      if_pos (by omega), hcont _ (by omega), hcont _ (by omega), hcont _ (by omega)]
    simp only [Option.bind_eq_bind, Option.bind_some]
    rw [hchar _ _ (by omega) (by omega)]
    rfl

end Sys2Proof.Machine
end

