-- ==== Sys2Proof/Laws/PerInstr.lean ====
section
/-! SUPPORT. The family `EncodeMatches`: the word of a command finds that command's row of the
opcode map, passes the row's mask, and its fields give the command back (30_encoding.md R102,
R104, R105). One lemma per constructor. -/

namespace Sys2Proof.Laws.EncodeMatches

/-- What the family says of one command. -/
def Statement (i : Instr) : Prop :=
  ∃ row, opRow (opOf (encode i)) = some row ∧
    encode i &&& row.format.mask = matchWord (opOf (encode i)) ∧ row.build (encode i) = i

theorem nop : Statement .nop :=
  ⟨⟨.z, fun _ => .nop⟩, by simp [encode, opRow], by simpa [encode] using mask_z _, rfl⟩

theorem add (rd ra rb : Reg) : Statement (.add rd ra rb) :=
  ⟨⟨.dab, fun w => .add (rdOf w) (raOf w) (rbOf w)⟩, by simp [encode, opRow],
    by simpa [encode] using mask_dab _ rd ra rb, by simp [encode]⟩

theorem sub (rd ra rb : Reg) : Statement (.sub rd ra rb) :=
  ⟨⟨.dab, fun w => .sub (rdOf w) (raOf w) (rbOf w)⟩, by simp [encode, opRow],
    by simpa [encode] using mask_dab _ rd ra rb, by simp [encode]⟩

theorem cmp (ra rb : Reg) : Statement (.cmp ra rb) :=
  ⟨⟨.ab, fun w => .cmp (raOf w) (rbOf w)⟩, by simp [encode, opRow],
    by simpa [encode] using mask_ab _ ra rb, by simp [encode]⟩

theorem mul (rd ra rb : Reg) : Statement (.mul rd ra rb) :=
  ⟨⟨.dab, fun w => .mul (rdOf w) (raOf w) (rbOf w)⟩, by simp [encode, opRow],
    by simpa [encode] using mask_dab _ rd ra rb, by simp [encode]⟩

theorem bred (rd ra rb rc : Reg) : Statement (.bred rd ra rb rc) :=
  ⟨⟨.dabc, fun w => .bred (rdOf w) (raOf w) (rbOf w) (rcOf w)⟩, by simp [encode, opRow],
    by simpa [encode] using mask_dabc _ rd ra rb rc, by simp [encode]⟩

theorem montmul (rd ra rb rc : Reg) : Statement (.montmul rd ra rb rc) :=
  ⟨⟨.dabc, fun w => .montmul (rdOf w) (raOf w) (rbOf w) (rcOf w)⟩, by simp [encode, opRow],
    by simpa [encode] using mask_dabc _ rd ra rb rc, by simp [encode]⟩

theorem montin (rd ra rc : Reg) : Statement (.montin rd ra rc) :=
  ⟨⟨.dac, fun w => .montin (rdOf w) (raOf w) (rcOf w)⟩, by simp [encode, opRow],
    by simpa [encode] using mask_dac _ rd ra rc, by simp [encode]⟩

theorem montout (rd ra rc : Reg) : Statement (.montout rd ra rc) :=
  ⟨⟨.dac, fun w => .montout (rdOf w) (raOf w) (rcOf w)⟩, by simp [encode, opRow],
    by simpa [encode] using mask_dac _ rd ra rc, by simp [encode]⟩

theorem modexp (rd ra rb rc : Reg) : Statement (.modexp rd ra rb rc) :=
  ⟨⟨.dabc, fun w => .modexp (rdOf w) (raOf w) (rbOf w) (rcOf w)⟩, by simp [encode, opRow],
    by simpa [encode] using mask_dabc _ rd ra rb rc, by simp [encode]⟩

theorem xgcd (rd rx ry ra rb : Reg) : Statement (.xgcd rd rx ry ra rb) :=
  ⟨⟨.dabxy, fun w => .xgcd (rdOf w) (rxOf w) (ryOf w) (raOf w) (rbOf w)⟩, by simp [encode, opRow],
    by simpa [encode] using mask_dabxy _ rd ra rb rx ry, by simp [encode]⟩

theorem modinv (rd ra rc : Reg) : Statement (.modinv rd ra rc) :=
  ⟨⟨.dac, fun w => .modinv (rdOf w) (raOf w) (rcOf w)⟩, by simp [encode, opRow],
    by simpa [encode] using mask_dac _ rd ra rc, by simp [encode]⟩

theorem mrtest (ra : Reg) : Statement (.mrtest ra) :=
  ⟨⟨.a, fun w => .mrtest (raOf w)⟩, by simp [encode, opRow],
    by simpa [encode] using mask_a _ ra, by simp [encode]⟩

theorem genprime (rd : Reg) : Statement (.genprime rd) :=
  ⟨⟨.d, fun w => .genprime (rdOf w)⟩, by simp [encode, opRow],
    by simpa [encode] using mask_d _ rd, by simp [encode]⟩

end Sys2Proof.Laws.EncodeMatches
end

