-- ==== Sys2Proof/Laws/Random.lean ====
section
/-! SUPPORT. What each draw can answer, said once: which words it takes, and that it leaves the
end of the words it was given. -/

namespace Sys2Proof.Machine

theorem wordsValue_append (us ws : List Word) :
    wordsValue (us ++ ws) = wordsValue us + 2 ^ (32 * us.length) * wordsValue ws := by
  induction us with
  | nil => simp [wordsValue]
  | cons u us ih =>
    simp only [List.cons_append, wordsValue, ih, List.length_cons]
    ring

/-- What `RandBits` answers, when it answers. -/
theorem randBits_some {n v : Nat} {ws rest : List Word} (h : randBits n ws = some (v, rest)) :
    wordsFor n ≤ ws.length ∧ v = wordsValue (ws.take (wordsFor n)) % 2 ^ n ∧
      rest = ws.drop (wordsFor n) := by
  unfold randBits at h
  split at h
  · cases h
  · cases h
    exact ⟨by omega, rfl, rfl⟩

theorem randBits_isSome {n : Nat} {ws : List Word} (h : wordsFor n ≤ ws.length) :
    randBits n ws =
      some (wordsValue (ws.take (wordsFor n)) % 2 ^ n, ws.drop (wordsFor n)) := by
  unfold randBits
  rw [if_neg (by omega)]

theorem randBits_lt {n v : Nat} {ws rest : List Word} (h : randBits n ws = some (v, rest)) :
    v < 2 ^ n := by
  rw [(randBits_some h).2.1]
  exact Nat.mod_lt _ (by positivity)

theorem wordsFor_pos {n : Nat} (h : 0 < n) : 0 < wordsFor n := by
  unfold wordsFor
  omega

/-- A draw of at least one bit leaves fewer words. -/
theorem randBits_shorter {n v : Nat} {ws rest : List Word} (hn : 0 < n)
    (h : randBits n ws = some (v, rest)) : rest.length < ws.length := by
  obtain ⟨hl, -, rfl⟩ := randBits_some h
  have := wordsFor_pos hn
  rw [List.length_drop]
  omega

theorem randBits_suffix {n v : Nat} {ws rest : List Word} (h : randBits n ws = some (v, rest)) :
    rest <:+ ws := by
  rw [(randBits_some h).2.2]
  exact List.drop_suffix _ _

theorem randRangeLoop_suffix {lo span nb : Nat} :
    ∀ {fuel : Nat} {ws rest : List Word} {v : Nat},
      randRangeLoop lo span nb fuel ws = some (v, rest) → rest <:+ ws := by
  intro fuel
  induction fuel with
  | zero => intro ws rest v h; cases h
  | succ fuel ih =>
    intro ws rest v h
    unfold randRangeLoop at h
    split at h
    · cases h
    · rename_i u rest' hb
      split at h
      · cases h
        exact randBits_suffix hb
      · exact (ih h).trans (randBits_suffix hb)

theorem randRange_suffix {lo hi v : Nat} {ws rest : List Word}
    (h : randRange lo hi ws = some (v, rest)) : rest <:+ ws := by
  unfold randRange at h
  split at h
  · cases h
    exact List.suffix_refl _
  · exact randRangeLoop_suffix h

theorem mrRound_suffix {n s d : Nat} {b : Bool} {ws rest : List Word}
    (h : mrRound n s d ws = some (b, rest)) : rest <:+ ws := by
  unfold mrRound at h
  split at h
  · cases h
  · rename_i a rest' ha
    cases h
    exact randRange_suffix ha

theorem mrRounds_suffix {n s d : Nat} :
    ∀ {k : Nat} {b : Bool} {ws rest : List Word},
      mrRounds n s d k ws = some (b, rest) → rest <:+ ws := by
  intro k
  induction k with
  | zero =>
    intro b ws rest h
    cases h
    exact List.suffix_refl _
  | succ k ih =>
    intro b ws rest h
    unfold mrRounds at h
    split at h
    · cases h
    · rename_i rest' hr
      cases h
      exact mrRound_suffix hr
    · rename_i rest' hr
      exact (ih h).trans (mrRound_suffix hr)

/-- `MillerRabin` leaves the end of the words it was given. -/
theorem millerRabin_suffix {n : Int} {k : Nat} {b : Bool} {ws rest : List Word}
    (h : millerRabin n k ws = some (b, rest)) : rest <:+ ws := by
  unfold millerRabin at h
  split at h
  · cases h
    exact List.suffix_refl _
  · split at h
    · cases h
      exact List.suffix_refl _
    · exact mrRounds_suffix h

theorem genPrimeLoop_suffix {bits k : Nat} :
    ∀ {fuel c : Nat} {ws rest : List Word},
      genPrimeLoop bits k fuel ws = some (c, rest) → rest <:+ ws := by
  intro fuel
  induction fuel with
  | zero => intro c ws rest h; cases h
  | succ fuel ih =>
    intro c ws rest h
    unfold genPrimeLoop at h
    split at h
    · cases h
    · rename_i drawn rest1 hb
      split at h
      · cases h
      · rename_i rest2 hm
        cases h
        exact (millerRabin_suffix hm).trans (randBits_suffix hb)
      · rename_i rest2 hm
        exact (ih h).trans ((millerRabin_suffix hm).trans (randBits_suffix hb))

/-- The generator leaves the end of the words it was given. -/
theorem genPrime_suffix {bits k c : Nat} {ws rest : List Word}
    (h : genPrime bits k ws = some (c, rest)) : rest <:+ ws :=
  genPrimeLoop_suffix h

end Sys2Proof.Machine
end

