-- ==== Sys2Proof/Tests/Slice0.lean ====
section
/-! SUPPORT. Tests of the model's own: the well-formedness check, one word of every command written
out from 30_encoding.md R101, at most two vectors of 95_test_vectors.md per command, the host
accesses, and a witness for every hypothesis of the statements. Expected values are the spec's. -/

namespace Sys2Proof.Tests

open Sys2Proof.Machine

set_option Elab.async false

/-! ## Helpers -/

/-- The reset state of a block with `W = 64` (95_test_vectors.md, conventions). -/
def s64 : State := { State.reset with limbs := 2 }

/-- Registers loaded. -/
def loaded (l : List (Reg × Int)) : State := l.foldl (fun s p => s.putReg p.1 p.2) s64

/-- The golden stream of 95_test_vectors.md. -/
def golden (n : Nat) : List Word :=
  (List.range n).map fun i => BitVec.ofNat 32 (0x9E3779B9 * (i + 1))

/-- `M = 2^64 - 1` (95_test_vectors.md, conventions). -/
def bigM : Int := 18446744073709551615

def isNext (o : Host.Outcome State Fault Refusal) : Bool :=
  match o with
  | .next _ => true
  | .fault _ => false
  | .refused _ => false

def nextOf (o : Host.Outcome State Fault Refusal) : State :=
  match o with
  | .next t => t
  | .fault _ => s64
  | .refused _ => s64

/-- A register's value, `STATUS` and `ERRCODE` after a command. -/
def after (i : Instr) (s : State) (r : Reg) : Int × Word × Nat :=
  let t := nextOf (exec i s)
  (t.val r, t.statusWord, t.errcode.toNat)

/-- A busy block with a command in flight. -/
def inFlight (w : Word) (s : State) : State := s.accept w

/-! ## Well-formedness: one ill-formed term for each check -/

theorem test_wf_refuses_rd_rx : (Instr.xgcd 5 5 7 0 1).wf = false := by decide
theorem test_wf_refuses_rd_ry : (Instr.xgcd 5 6 5 0 1).wf = false := by decide
theorem test_wf_refuses_rx_ry : (Instr.xgcd 5 6 6 0 1).wf = false := by decide
theorem test_wf_accepts_shared_sources : (Instr.xgcd 0 1 2 0 0).wf = true := by decide

/-! ## Decoding: `{op, rd, ra, rb, rc, rx, ry}` written out (30_encoding.md R101, R105, R120) -/

theorem test_decode_nop : decode 0b00000000_0000_0000_0000_0000_0000_0000#32 = .ok .nop := by
  decide
theorem test_decode_add :
    decode 0b00000001_0011_0001_0010_0000_0000_0000#32 = .ok (.add 3 1 2) := by decide
theorem test_decode_sub :
    decode 0b00000010_0100_0000_1111_0000_0000_0000#32 = .ok (.sub 4 0 15) := by decide
theorem test_decode_cmp :
    decode 0b00000011_0000_0001_0000_0000_0000_0000#32 = .ok (.cmp 1 0) := by decide
theorem test_decode_mul :
    decode 0b00000100_0010_0000_0001_0000_0000_0000#32 = .ok (.mul 2 0 1) := by decide
theorem test_decode_bred :
    decode 0b00010000_0000_0001_0010_0011_0000_0000#32 = .ok (.bred 0 1 2 3) := by decide
theorem test_decode_montmul :
    decode 0b00010001_0110_0100_0101_0011_0000_0000#32 = .ok (.montmul 6 4 5 3) := by decide
theorem test_decode_montin :
    decode 0b00010010_0100_0001_0000_0011_0000_0000#32 = .ok (.montin 4 1 3) := by decide
theorem test_decode_montout :
    decode 0b00010011_0111_0110_0000_0011_0000_0000#32 = .ok (.montout 7 6 3) := by decide
theorem test_decode_modexp :
    decode 0b00100000_0100_0000_0001_0010_0000_0000#32 = .ok (.modexp 4 0 1 2) := by decide
theorem test_decode_xgcd :
    decode 0b00110000_0101_0000_0001_0000_0110_0111#32 = .ok (.xgcd 5 6 7 0 1) := by decide
theorem test_decode_modinv :
    decode 0b00110001_0101_0100_0000_0011_0000_0000#32 = .ok (.modinv 5 4 3) := by decide
theorem test_decode_mrtest :
    decode 0b01000000_0000_1001_0000_0000_0000_0000#32 = .ok (.mrtest 9) := by decide
theorem test_decode_genprime :
    decode 0b01000001_1010_0000_0000_0000_0000_0000#32 = .ok (.genprime 10) := by decide

/-- Opcodes that are no command's (95_test_vectors.md 2.2). -/
theorem test_decode_unknown_opcodes :
    ([0x05000000#32, 0x0F000000#32, 0x14000000#32, 0x21000000#32, 0x32000000#32,
      0x42000000#32, 0xFFFFFFFF#32].all
      fun w => decide (decode w = .error .unknownOpcode)) = true := by decide +kernel

/-- Non-zero unused fields (95_test_vectors.md 2.2). -/
theorem test_decode_unused_fields :
    ([0x00000001#32, 0x00100000#32, 0x01312100#32, 0x01312010#32, 0x03101000#32,
      0x12411300#32, 0x31540310#32, 0x30501167#32, 0x40190000#32, 0x40091000#32, 0x41A10000#32,
      0x41A00001#32].all
      fun w => decide (decode w = .error .unusedFieldNotZero)) = true := by decide +kernel

/-- `XGCD` with equal destinations (95_test_vectors.md 2.2). -/
theorem test_decode_equal_destinations :
    ([0x30501066#32, 0x30501057#32, 0x30501075#32].all
      fun w => decide (decode w = .error .equalDestinations)) = true := by decide +kernel

/-- Words of 95_test_vectors.md part 3, encoded. -/
theorem test_encode_programs :
    encode (.sub 12 0 15) = 0x02C0F000#32 ∧ encode (.bred 9 14 8 3) = 0x109E8300#32 ∧
      encode (.xgcd 12 13 14 4 3) = 0x30C430DE#32 := by decide

theorem test_decodeTableWord : decodeTableWord 32 0x20401200 = some (.modexp 4 0 1 2) := by
  decide

/-- 95_test_vectors.md P2's assembler line. -/
theorem test_asm : (Instr.xgcd 5 9 10 0 1).asm = "XGCD R5, R9, R10, R0, R1" := by decide +kernel

/-! ## The commands (95_test_vectors.md 2.3 to 2.8) -/

theorem test_nop_from_reset :
    (nextOf (step (State.reset.withFetchWord 32 0))).statusWord = 2#32 := by decide +kernel

theorem test_add_signs : after (.add 3 1 2) (loaded [(1, 5), (2, -7)]) 3 = (-2, 2#32, 0) := by
  decide +kernel
theorem test_add_overflow :
    after (.add 3 1 2) (loaded [(1, bigM), (2, 1)]) 3 = (0, 6#32, 4) := by decide +kernel

theorem test_sub_negative : after (.sub 3 1 2) (loaded [(2, bigM)]) 3 = (-bigM, 2#32, 0) := by
  decide +kernel
theorem test_sub_overflow :
    after (.sub 3 1 2) (loaded [(1, -bigM), (2, 1)]) 3 = (0, 6#32, 4) := by decide +kernel

theorem test_mul_largest :
    after (.mul 3 1 2) (loaded [(1, 4294967295), (2, 4294967297)]) 3 = (bigM, 2#32, 0) := by
  decide +kernel
theorem test_mul_overflow :
    after (.mul 3 1 2) (loaded [(1, 2 ^ 32), (2, 2 ^ 32)]) 3 = (0, 6#32, 4) := by decide +kernel

theorem test_cmp_signed : after (.cmp 1 2) (loaded [(1, -5), (2, -7)]) 1 = (-5, 2#32, 0) := by
  decide +kernel
theorem test_cmp_negative_zero :
    after (.cmp 4 5) { s64 with regs := s64.regs.set 4 ⟨0, true⟩ } 4 = (0, 0x22#32, 0) := by
  decide +kernel

theorem test_bred_correction :
    after (.bred 0 1 2 3)
      (loaded [(1, 10714829862921516198), (2, 8744744311366254845), (3, 249524)]) 0
      = (31389, 2#32, 0) := by decide +kernel
theorem test_bred_negative_low :
    after (.bred 0 1 2 3) (loaded [(1, 1), (2, -1), (3, 5)]) 0 = (0, 6#32, 1) := by
  decide +kernel

theorem test_montmul_full_width :
    after (.montmul 0 1 2 3) (loaded [(1, 2 ^ 64 - 60), (2, 2 ^ 64 - 61), (3, 2 ^ 64 - 59)]) 0
      = (10942983772539564483, 2#32, 0) := by decide +kernel
theorem test_montmul_unreduced :
    after (.montmul 0 1 2 3) (loaded [(1, 5), (2, 3233), (3, 3233)]) 0 = (0, 6#32, 1) := by
  decide +kernel

theorem test_montin_unreduced :
    after (.montin 4 1 3) (loaded [(1, 10000), (3, 3233)]) 4 = (2925, 2#32, 0) := by
  decide +kernel
theorem test_montin_even : after (.montin 4 1 3) (loaded [(1, 5), (3, 4)]) 4 = (0, 6#32, 1) := by
  decide +kernel

theorem test_montout_undoes :
    after (.montout 0 4 3) (loaded [(4, 2565), (3, 3233)]) 0 = (65, 2#32, 0) := by decide +kernel
theorem test_montout_unreduced :
    after (.montout 0 4 3) (loaded [(4, 3233), (3, 3233)]) 0 = (0, 6#32, 1) := by decide +kernel

theorem test_modexp_minus_one :
    after (.modexp 4 0 1 2) (loaded [(0, bigM - 1), (1, bigM), (2, bigM)]) 4
      = (bigM - 1, 2#32, 0) := by decide +kernel
theorem test_modexp_zero_to_zero :
    after (.modexp 4 0 1 2) (loaded [(2, 7)]) 4 = (1, 2#32, 0) := by decide +kernel

theorem test_xgcd_overlap :
    (nextOf (exec (.xgcd 0 1 2 0 1) (loaded [(0, 240), (1, 46)]))).signWord = 2#32 ∧
      after (.xgcd 0 1 2 0 1) (loaded [(0, 240), (1, 46)]) 1 = (-9, 2#32, 0) := by decide +kernel
theorem test_xgcd_negative :
    after (.xgcd 5 6 7 0 1) (loaded [(0, 4), (1, -6)]) 5 = (0, 6#32, 1) := by decide +kernel

theorem test_modinv_example :
    after (.modinv 5 4 3) (loaded [(4, 17), (3, 3120)]) 5 = (2753, 2#32, 0) := by decide +kernel
theorem test_modinv_no_inverse :
    after (.modinv 5 4 3) (loaded [(4, 6), (3, 3120)]) 5 = (0, 6#32, 2) := by decide +kernel

theorem test_mrtest_rejected_draws :
    after (.mrtest 9) { loaded [(9, 31)] with rng := golden 45 } 9 = (31, 0x12#32, 0) ∧
      (nextOf (exec (.mrtest 9) { loaded [(9, 31)] with rng := golden 45 })).rng = [] := by
  decide +kernel
theorem test_mrtest_second_base :
    after (.mrtest 9) { loaded [(9, 4033)] with rng := [0#32, 1#32], mrk := 2#16 } 9
      = (4033, 2#32, 0) := by decide +kernel

theorem test_genprime_third_candidate :
    after (.genprime 10)
      { s64 with rng := [0x54#32, 0x12#32, 0x03#32] ++ golden 40, pbits := 8#16 } 10
      = (131, 0x12#32, 0) := by decide +kernel
theorem test_genprime_too_wide :
    after (.genprime 10) { s64 with rng := golden 3, pbits := 65#16 } 10 = (0, 6#32, 1) := by
  decide +kernel

/-! ## The host port (95_test_vectors.md 2.1) -/

theorem test_cap_at_64 : (hostRead 1#15 s64).rdata = 0x01100040#32 := by decide +kernel
theorem test_mrk_keeps_16_bits : (hostWrite 8#15 0x00012345#32 s64).mrk = 0x2345#16 := by
  decide +kernel
theorem test_window_read_while_busy :
    (hostRead 0x4000#15 (inFlight 0#32 s64)).statusWord = 9#32 := by decide +kernel
theorem test_limb_and_sign :
    (hostWrite 10#15 8#32 (hostWrite 0x4C01#15 1#32 (hostWrite 0x4C00#15 2#32 s64))).val 3
      = -4294967298 := by decide +kernel
theorem test_limb_beyond_width :
    hostWrite 0x4C02#15 9#32 s64 = s64 := by decide +kernel
theorem test_w1c_of_err :
    (hostWrite 3#15 4#32 { s64.raise .illegalCommand with rej := true }).statusWord = 0x0A#32 := by
  decide +kernel
theorem test_soft_reset_idle :
    hostWrite 2#15 1#32 { loaded [(1, -5)] with mrk := 7#16, pbits := 16#16, doneIe := true }
      = s64 := by decide +kernel

/-! ## Host software (95_test_vectors.md 2.10) -/

theorem test_transcoder_hi :
    encodeMessage ['H', 'i'] 3756276253 = .ok 18537 ∧
      encodeMessage ['H', 'i'] 3233 = .error .messageTooLarge := by decide +kernel
theorem test_utf8_euro : bytesToInteger (utf8 ['€']) = 14844588 := by decide +kernel
theorem test_decoding_errors :
    ∀ v ∈ [255, 128, 0xC0AF, 0xE282], decodeMessage v = .error .decodingError := by
  decide +kernel

/-! ## Witnesses for the hypotheses of the statements -/

theorem witness_reset_inv : State.reset.Inv := by decide +kernel

theorem witness_DecodeOfEncode : (Instr.xgcd 0 1 2 0 0).wf = true := by decide
theorem witness_EncodeOfDecode : decode 0x30000012#32 = .ok (.xgcd 0 1 2 0 0) := by decide

theorem witness_IllegalWord :
    (inFlight 0x42000000#32 s64).busy = true ∧ ¬legalWord (inFlight 0x42000000#32 s64).cmdreg ∧
    ¬legalWord (inFlight 0x00000001#32 s64).cmdreg ∧
    ¬legalWord (inFlight 0x30501066#32 s64).cmdreg := by decide +kernel

theorem witness_RegisterValue :
    ({ s64 with regs := s64.regs.set 4 ⟨0, true⟩ }.regs[(4 : Reg)].mag = 0) ∧
    ((loaded [(4, -bigM)]).regs[(4 : Reg)].mag ≠ 0 ∧
      (loaded [(4, -bigM)]).regs[(4 : Reg)].neg = true ∧ (loaded [(4, -bigM)]).RegsBounded) ∧
    ((loaded [(4, bigM)]).regs[(4 : Reg)].mag ≠ 0 ∧
      (loaded [(4, bigM)]).regs[(4 : Reg)].neg = false) ∧
    (nextOf (exec .nop { s64 with regs := s64.regs.set 4 ⟨0, true⟩ })).regs[(4 : Reg)]
      = ⟨0, true⟩ := by decide +kernel

theorem witness_Nop : State.reset.busy = false ∧ State.reset.err = false := by decide

theorem witness_Add :
    ((loaded [(1, bigM)]).val 1 + (loaded [(1, bigM)]).val 2).natAbs < 2 ^ (32 * 2) ∧
    2 ^ (32 * 2) ≤ ((loaded [(1, bigM), (2, 1)]).val 1 + (loaded [(1, bigM), (2, 1)]).val 2).natAbs
    := by decide +kernel

theorem witness_Sub :
    ((loaded [(2, bigM)]).val 1 - (loaded [(2, bigM)]).val 2).natAbs < 2 ^ (32 * 2) ∧
    2 ^ (32 * 2) ≤
      ((loaded [(1, bigM), (2, -1)]).val 1 - (loaded [(1, bigM), (2, -1)]).val 2).natAbs := by
  decide +kernel

theorem witness_Mul :
    ((loaded [(1, bigM), (2, -1)]).val 1 * (loaded [(1, bigM), (2, -1)]).val 2).natAbs
      < 2 ^ (32 * 2) ∧
    2 ^ (32 * 2) ≤
      ((loaded [(1, 2 ^ 32), (2, 2 ^ 32)]).val 1 * (loaded [(1, 2 ^ 32), (2, 2 ^ 32)]).val 2).natAbs
    := by decide +kernel

/-- Bred and Modexp: a modulus of 1, and each way out of the domain. -/
theorem witness_Bred_Modexp :
    ((loaded [(3, 1)]).val 1 = (0 : Nat) ∧ (loaded [(3, 1)]).val 2 = (0 : Nat) ∧
      (loaded [(3, 1)]).val 3 = (1 : Nat)) ∧
    (loaded [(1, -1), (3, 5)]).val 1 < 0 ∧ (loaded [(2, -1), (3, 5)]).val 2 < 0 ∧
      (loaded [(1, 1)]).val 3 < 1 := by decide +kernel

/-- Montmul, Montin, Montout: a modulus of 1, and each way out of the domain. -/
theorem witness_Montgomery :
    ((loaded [(3, 1)]).val 1 = (0 : Nat) ∧ (loaded [(3, 1)]).val 2 = (0 : Nat) ∧
      (loaded [(3, 1)]).val 3 = (1 : Nat)) ∧
    s64.val 3 < 1 ∧ (loaded [(3, 4)]).val 3 % 2 = 0 ∧ (loaded [(1, -1), (3, 5)]).val 1 < 0 ∧
      (loaded [(1, 5), (3, 5)]).val 3 ≤ (loaded [(1, 5), (3, 5)]).val 1 ∧
      (loaded [(2, -1), (3, 5)]).val 2 < 0 ∧
      (loaded [(2, 5), (3, 5)]).val 3 ≤ (loaded [(2, 5), (3, 5)]).val 2 := by decide +kernel

theorem witness_Xgcd :
    ((5 : Reg) ≠ 6 ∧ (5 : Reg) ≠ 7 ∧ (6 : Reg) ≠ 7) ∧
    (s64.val 0 = (0 : Nat) ∧ s64.val 1 = (0 : Nat)) ∧
    (loaded [(0, -1)]).val 0 < 0 ∧ (loaded [(1, -1)]).val 1 < 0 := by decide +kernel

theorem witness_Modinv :
    ((loaded [(3, 1)]).val 4 = (0 : Nat) ∧ (loaded [(3, 1)]).val 3 = (1 : Nat) ∧
      Nat.gcd 0 1 = 1) ∧
    ((loaded [(3, 7)]).val 4 = (0 : Nat) ∧ (loaded [(3, 7)]).val 3 = (7 : Nat) ∧
      Nat.gcd 0 7 ≠ 1) ∧
    (loaded [(4, -3), (3, 7)]).val 4 < 0 ∧ s64.val 3 < 1 := by decide +kernel

theorem witness_Mrtest :
    millerRabin ((loaded [(9, 31)]).val 9) 1 [28#32, 27#32] = some (true, []) ∧
    (loaded [(9, 1)]).val 9 < 2 ∧
    (2 ≤ (loaded [(9, 31)]).val 9 ∧ sieve ((loaded [(9, 31)]).val 9).toNat = none ∧
      { loaded [(9, 31)] with mrk := 0#16 }.mrk = 0#16) := by decide +kernel

theorem witness_Genprime :
    genPrime 2 40 [7#32, 9#32] = some (3, [9#32]) ∧
    genPrime 64 0 [0#32, 0#32, 6#32, 0#32] = none ∧
    (genPrime 64 0 (golden 40)).isSome = true ∧ (2 : Nat) ≤ 2 ∧ (64 : Nat) ≤ 32 * 2 ∧
    (1#16).toNat < 2 ∧ 32 * 2 < (65#16).toNat := by decide +kernel

theorem witness_Errors :
    isNext (exec (.modinv 5 4 3) (loaded [(3, 7)])) = true ∧ (loaded [(3, 7)]).err = false ∧
    (nextOf (exec (.modinv 5 4 3) (loaded [(3, 7)]))).err = true ∧
    (nextOf (exec (.modinv 5 4 3) (loaded [(3, 7)]))).errcode = 2#8 ∧
    isNext (exec (.mul 3 1 2) (loaded [(1, bigM), (2, bigM)])) = true ∧
    (nextOf (exec (.mul 3 1 2) (loaded [(1, bigM), (2, bigM)]))).errcode = 4#8 := by
  decide +kernel

/-- Frame and end: a command that writes, with `ERR` 0 and with `ERR` 1, and one that waits. -/
theorem witness_Frame :
    isNext (exec (.add 3 1 2) s64) = true ∧ (4 : Reg) ∉ (Instr.add 3 1 2).dests ∧
    (Instr.add 3 1 2).draws = false ∧ (Instr.add 3 1 2).compares = false ∧
    s64.err = false ∧ (nextOf (exec (.add 3 1 2) s64)).err = false ∧
    (s64.raise .overflow).err = true ∧ isNext (exec (.add 3 1 2) (s64.raise .overflow)) = true ∧
    isNext (exec (.mrtest 9) (loaded [(9, 31)])) = true := by decide +kernel

theorem witness_Waits :
    millerRabin ((loaded [(9, 31)]).val 9) (loaded [(9, 31)]).mrk.toNat (loaded [(9, 31)]).rng
      = none ∧
    (2 : Nat) ≤ (64#16).toNat ∧ (64#16).toNat ≤ 32 * s64.limbs ∧
    genPrime (64#16).toNat s64.mrk.toNat s64.rng = none := by decide +kernel

theorem witness_StepRuns :
    (inFlight 0#32 s64).legalWidth = true ∧ (inFlight 0#32 s64).busy = true ∧
    decode (inFlight 0#32 s64).cmdreg = .ok .nop ∧ (inFlight 0#32 s64).script = [] ∧
    (s64.withFetchWord 32 0).script = .engine :: [] := by decide +kernel

/-- The other clauses of the step: an illegal word, an idle block, and every other event. -/
theorem witness_StepEvents :
    decode (inFlight 0x42000000#32 s64).cmdreg = .error .unknownOpcode ∧
    (inFlight 0x42000000#32 s64).script = [] ∧
    (s64.withFetchWord 32 0x42000000).script = .engine :: [] ∧
    (s64.busy = false ∧ s64.legalWidth = true ∧ s64.script = []) ∧
    { s64 with script := [.engine] }.script = .engine :: [] ∧
    { s64 with script := [.host (.read 0#15)] }.script = .host (.read 0#15) :: [] ∧
    { s64 with script := [.source 5#32] }.script = .source 5#32 :: [] ∧
    { s64 with script := [.reset none] }.script = .reset none :: [] := by decide +kernel

theorem witness_EveryStepAnswers :
    (2 ≤ s64.limbs ∧ s64.limbs ≤ 1024) ∧
    { s64 with limbs := 1024 }.legalWidth = true ∧
    { s64 with limbs := 1 }.legalWidth = false ∧ { s64 with limbs := 1025 }.legalWidth = false := by
  decide +kernel

theorem witness_EveryStepKeeps :
    (loaded [(3, -bigM)]).Inv ∧ isNext (step (loaded [(3, -bigM)])) = true := by decide +kernel

theorem witness_OnlyDrawing :
    isNext (step { s64 with script := [.source 5#32] }) = true ∧
    (nextOf (step { s64 with script := [.source 5#32] })).rng ≠
      { s64 with script := [.source 5#32] }.rng ∧
    isNext (step { inFlight 0x40090000#32 (loaded [(9, 31)]) with
      rng := [0#32], mrk := 1#16 }) = true ∧
    (nextOf (step { inFlight 0x40090000#32 (loaded [(9, 31)]) with
      rng := [0#32], mrk := 1#16 })).rng ≠ [0#32] ∧
    { inFlight 0x40090000#32 (loaded [(9, 31)]) with rng := [0#32], mrk := 1#16 }.rngReq = true := by
  decide +kernel

theorem witness_ResultFlags :
    isNext (step (inFlight 0x40090000#32 (loaded [(9, 2)]))) = true ∧
    (nextOf (step (inFlight 0x40090000#32 (loaded [(9, 2)])))).prime ≠ s64.prime ∧
    (nextOf (step (inFlight 0x03001000#32 s64))).z ≠ s64.z ∧
    (nextOf (step (inFlight 0x03001000#32 (loaded [(1, 1)])))).lt ≠ s64.lt := by decide +kernel

/-- Every offset of the map has its word index; the edges of the reserved range and of the window
of `R0` and `R15` at `W = 64`. -/
theorem witness_HostAccess_offsets :
    s64.legalWidth = true ∧
    (∀ p ∈ [(0#15, 0x00), (1#15, 0x04), (2#15, 0x08), (3#15, 0x0C), (4#15, 0x10), (5#15, 0x14),
      (6#15, 0x18), (7#15, 0x1C), (8#15, 0x20), (9#15, 0x24), (10#15, 0x28), (11#15, 0x2C),
      (0x3FFF#15, 0xFFFC), (0x4000#15, 0x10000 + 0x1000 * 0 + 4 * 0),
      (0x4001#15, 0x10000 + 0x1000 * 0 + 4 * 1), (0x4002#15, 0x10000 + 0x1000 * 0 + 4 * 2),
      (0x7C01#15, 0x10000 + 0x1000 * 15 + 4 * 1), (0x7FFF#15, 0x10000 + 0x1000 * 15 + 4 * 1023)],
      4 * p.1.toNat = p.2) := by decide +kernel

/-- `BUSY`, `ERR` and the data bits of the write clauses, both ways. -/
theorem witness_HostAccess_states :
    s64.busy = false ∧ s64.err = false ∧ (inFlight 0#32 s64).busy = true ∧
    (s64.raise .overflow).err = true ∧ (1#32).getLsbD 0 = true ∧ (0#32).getLsbD 0 = false ∧
    (4#32).getLsbD 2 = true ∧ (0xA#32).getLsbD 2 = false := by decide +kernel

theorem witness_Refused :
    (inFlight 0#32 s64).refuses (.write 7#15 0#32) ∧
    (s64.raise .overflow).refuses (.write 7#15 0#32) ∧
    (inFlight 0#32 s64).refuses (.write 10#15 0#32) ∧
    (inFlight 0#32 s64).refuses (.read 0x7C01#15) ∧
    ¬(inFlight 0#32 s64).refuses (.read 0x7C02#15) ∧
    (hostAccess (.read 0x7C02#15) (inFlight 0#32 s64).reject).rej = true ∧
    ¬(inFlight 0#32 s64).reject.refuses (.read 0x7C02#15) := by decide +kernel

theorem witness_BusyBlock :
    (inFlight 0#32 s64).busy = true ∧
      ∀ d, HostAccess.write 2#15 0#32 = .write 2#15 d → d.getLsbD 0 = false := by
  refine ⟨rfl, ?_⟩
  intro d h
  cases h
  rfl

theorem witness_ResetClears :
    State.reset = State.reset ∧ hardReset none (inFlight 0#32 s64) = hardReset none (inFlight 0#32 s64)
      ∧ (1#32).getLsbD 0 = true := ⟨rfl, rfl, rfl⟩

theorem witness_ResetLoses :
    s64.busy = false ∧
    (∀ i, decode (inFlight 0#32 s64).cmdreg = .ok i → i.draws = false) ∧
    ((inFlight 0x40090000#32 (loaded [(9, 31)])).busy = true ∧
      decode (inFlight 0x40090000#32 (loaded [(9, 31)])).cmdreg = .ok (.mrtest 9) ∧
      millerRabin ((loaded [(9, 31)]).val 9) 1 [0#32, 5#32] = some (true, [5#32])) := by
  refine ⟨rfl, ?_, rfl, by decide, by decide +kernel⟩
  intro i h
  have hd : decode (inFlight 0#32 s64).cmdreg = .ok .nop := by decide
  rw [hd] at h
  cases h
  rfl

/-- The `GENPRIME` clauses: the smallest prime length, the largest at `W = 64`, and one beyond each. -/
theorem witness_ResetLoses_genprime :
    decode 0x41A00000#32 = .ok (.genprime 10) ∧
    (2 ≤ (2#16).toNat ∧ (2#16).toNat ≤ 32 * s64.limbs ∧
      genPrime (2#16).toNat s64.mrk.toNat [7#32, 9#32] = some (3, [9#32])) ∧
    (64#16).toNat ≤ 32 * s64.limbs ∧ (genPrime (64#16).toNat 0 (golden 40)).isSome = true ∧
    (1#16).toNat < 2 ∧ 32 * s64.limbs < (65#16).toNat := by decide +kernel

theorem witness_RandBits :
    ([] : List Word).length < (1 + 31) / 32 ∧ (33 + 31) / 32 ≤ [1#32, 2#32].length ∧
    randBits 33 [1#32, 3#32] = some (4294967297, []) := by decide +kernel

theorem witness_RandRange :
    (2 : Nat) < 3 ∧ randRange 2 2 [] = some (2, []) ∧
    randRange 2 4 [3#32, 2#32] = some (4, []) := by decide +kernel

theorem witness_Draws :
    millerRabin 4033 1 [1#32] = some (false, []) ∧ genPrime 3 40 [2#32] = some (7, []) := by
  decide +kernel

theorem witness_Sieve :
    (1 : Int) < 2 ∧ (29 ∈ [2, 3, 5, 7, 11, 13, 17, 19, 23, 29] ∧ 899 % 29 = 0) ∧
    sieve 31 = none ∧ sieve 961 = none := by decide +kernel

theorem witness_Decomposition : 3 % 2 = 1 ∧ decompose 3 = (1, 1) ∧ decompose 65537 = (16, 1) := by
  decide +kernel

theorem witness_Round :
    (5 ≤ 4033 ∧ 1 ≤ 6) ∧ randRange 2 4031 [] = none ∧
    randRange 2 4031 [0#32] = some (2, []) := by decide +kernel

theorem witness_TestRuns :
    2 ≤ 4033 ∧ sieve 4033 = none ∧ mrRound 4033 6 63 [] = none ∧
    mrRound 4033 6 63 [1#32] = some (false, []) ∧
    mrRound 4033 6 63 [0#32] = some (true, []) := by decide +kernel

theorem witness_TestConsumes :
    millerRabin ((31 : Nat) : Int) 2 [29#32, 28#32, 0#32, 1#32] = some (true, []) ∧
    sieve 31 = none ∧ millerRabin ((4 : Nat) : Int) 2 [5#32] = some (false, [5#32]) ∧
    sieve 4 ≠ none ∧ millerRabin ((4033 : Nat) : Int) 2 [1#32] = some (false, []) := by
  decide +kernel

theorem witness_Primes :
    Nat.Prime 31 ∧ millerRabin ((31 : Nat) : Int) 1 [27#32] = some (true, []) := by
  refine ⟨by norm_num, by decide +kernel⟩

theorem witness_GeneratedPrimes :
    (2 : Nat) ≤ 2 ∧ genPrime 2 40 [0#32] = some (3, []) ∧ (3 : Nat) < 961 := by decide +kernel

theorem witness_ZeroWords :
    { s64 with pbits := 8#16, rng := List.replicate 3 0#32 }.pbits = 8#16 ∧ 1 ≤ s64.limbs ∧
    { s64 with rng := List.replicate 3 0#32 }.rng = List.replicate 3 0#32 := by decide +kernel

theorem witness_Euclid : (1 : Nat) ≠ 0 ∧ (1 : Nat) ≤ 1 ∧ xgcd 1 1 = (1, 0, 1) := by
  decide +kernel

theorem witness_Barrett :
    2 ^ (2 * 64) - 1 < 2 ^ (2 * 64) ∧ 1 ≤ 1 ∧ 2 ^ 64 - 1 < 2 ^ 64 ∧
    barrett 64 197653724274653606242775759064827330813 249524 = 31389 := by decide +kernel

theorem witness_WordSerial :
    3233 % 2 = 1 ∧ 3233 < 2 ^ (32 * 2) ∧ 65 < 3233 ∧ 2790 < 3233 ∧
    montMulRef 2 65 2790 3233 = 2497 := by decide +kernel

theorem witness_MontgomeryForm :
    1 % 2 = 1 ∧ 3233 % 2 = 1 ∧ montMul 64 2565 3160 3233 = 1721 := by decide +kernel

theorem witness_Exponentiation :
    (1 ≤ 1 ∧ 1 < 2 ^ 64 ∧ 0 < 2 ^ 64) ∧ modExpEngine 64 3 4 16 = 1 ∧
    modExpEngine 64 65 17 3233 = 2790 := by decide +kernel

theorem witness_Load :
    s64.legalWidth = true ∧ s64.busy = false ∧ s64.RegsBounded ∧
    (-bigM).natAbs < 2 ^ (32 * s64.limbs) := by decide +kernel

theorem witness_Decryption :
    Nat.Prime 61 ∧ Nat.Prime 53 ∧ 61 ≠ 53 ∧
    17 * 2753 % ((61 - 1) * (53 - 1)) = 1 % ((61 - 1) * (53 - 1)) ∧ 65 < 61 * 53 := by
  norm_num

/-- Texts that meet the clauses of the transcoder: empty, "Hi", and one that does not fit. -/
theorem witness_Transcoder :
    (([] : List Char).head? ≠ some (Char.ofNat 0) ∧ (bytesToInteger (utf8 []) : Int) < 1) ∧
    (['H', 'i'].head? ≠ some (Char.ofNat 0) ∧
      (bytesToInteger (utf8 ['H', 'i']) : Int) < 18538 ∧
      (18537 : Int) ≤ (bytesToInteger (utf8 ['H', 'i']) : Int)) := by decide +kernel

/-- A bench with two primes to come and no random exponent. -/
def bench : Bench := ⟨{ s64 with mrk := 0#16, rng := [0x3#32, 0xB#32] }, []⟩

/-- The same primes with the words for forty rounds of each: every base is 2. -/
def patientBench : Bench :=
  ⟨{ s64 with rng := 0x3#32 :: List.replicate 40 0#32 ++ 0xB#32 :: List.replicate 40 0#32 }, []⟩

def keyOf : Ran KeyPair → Option KeyPair
  | .ok k _ => some k
  | .failed _ _ => none
  | .hangs _ => none

/-- The procedures' clauses: `p`, `q` above, on a block of 64 bits, for the least and the largest
message, a message of 0 and one of `n`, and the texts. -/
theorem witness_Procedures :
    bench.Ready ∧ KeyUse.Fits ⟨0, 1, 2, 4, 32771 * 32779, 1, 1⟩ bench ∧ (0 < 1 ∧ 1 < 32771 * 32779) ∧
    32771 * 32779 - 1 < 32771 * 32779 ∧ 18538 < 32771 * 32779 ∧
    (['H', 'i'] ≠ [] ∧ ['H', 'i'].head? ≠ some (Char.ofNat 0) ∧
      bytesToInteger (utf8 ['H', 'i']) < 32771 * 32779) := by decide +kernel

theorem witness_Procedures_primes :
    Nat.Prime 32771 ∧ Nat.Prime 32779 ∧ 32771 ≠ 32779 ∧
    1 * 1 % ((32771 - 1) * (32779 - 1)) = 1 % ((32771 - 1) * (32779 - 1)) := by norm_num

theorem witness_KeyPairs :
    bench.Ready ∧
    (keyOf (generateKeypair 16 false none none bench)).map (fun k => (k.p, k.q, k.e)) =
      some (32771, 32779, 65537) ∧
    patientBench.Ready ∧ 40 ≤ (setRounds (some 40#32) patientBench.block).mrk.toNat ∧
    (keyOf (generateKeypair 16 false none (some 40#32) patientBench)).map
      (fun k => (k.p, k.q, k.e)) = some (32771, 32779, 65537) := by decide +kernel

/-! ## Scripts (30_encoding.md R122) -/

/-- `R0` is read once, as `0`; then `R1`, as `1`, in each pass, until the two are equal, with `R1`
one less after each pass. -/
def countDown : Script :=
  .seq (.ldr 0 (.number 61)) (.seq (.ldr 1 (.number 63)) (.seq (.ldr 15 (.number 1))
    (.seq (.rdr 0 0) (.seq (.rdr 1 1) (.whileDo (.not (.eq (.yielded 0) (.yielded 1)))
      (.seq (.cmd (.sub 1 1 15)) (.seq (.wait 0) (.rdr 1 1))))))))

theorem test_script_loop_compares_named_reads :
    (countDown.run 20 ⟨s64, [], []⟩).map (fun env => (env.block.val 1, env.yields)) =
      some (61, [(1, 61), (0, 61)]) := by decide +kernel

theorem test_script_needs_idle :
    (Script.rdr 0 0).run 9 ⟨inFlight 0#32 s64, [], []⟩ = none ∧
    (Script.ldr 0 (.number 1)).run 9 ⟨inFlight 0#32 s64, [], []⟩ = none := by decide +kernel

end Sys2Proof.Tests
end

section
/-! PROOFS. The state family (10_state.md): a register's value (R22, R24), the command write (R44),
the reset state (R48) and the interrupt line (R49). -/

namespace Sys2Proof.Machine

/-! The value of a register. -/

theorem BigReg.val_of_mag_zero {b : BigReg} (h : b.mag = 0) : b.val = 0 := if_pos h

theorem BigReg.val_of_neg {b : BigReg} (h : b.mag ≠ 0) (hn : b.neg = true) :
    b.val = -(b.mag : Int) := by
  simp [BigReg.val, h, hn]

theorem BigReg.val_of_not_neg {b : BigReg} (h : b.mag ≠ 0) (hn : b.neg = false) :
    b.val = (b.mag : Int) := by
  simp [BigReg.val, h, hn]

theorem State.val_range {s : State} (h : s.RegsBounded) (r : Reg) :
    -(2 ^ (32 * s.limbs) - 1 : Int) ≤ s.val r ∧ s.val r ≤ (2 ^ (32 * s.limbs) - 1 : Int) := by
  have habs : (s.val r).natAbs < 2 ^ (32 * s.limbs) := by
    rw [s.natAbs_val]
    exact h r
  have hint : |s.val r| < 2 ^ (32 * s.limbs) := by
    rw [Int.abs_eq_natAbs]
    exact_mod_cast habs
  rw [abs_lt] at hint
  omega

/-! What a completion does to the registers. -/

/-- From `s` to `t` a register is kept, or it is one of `ds` and was written by `wr`
(10_state.md R23, R24). -/
def State.WritesOnly (ds : List Reg) (s t : State) : Prop :=
  ∀ r : Reg, t.regs[r] = s.regs[r] ∨ (r ∈ ds ∧ ∃ v, t.regs[r] = BigReg.ofInt v)

theorem State.WritesOnly.of_regs_eq {ds : List Reg} {s t : State} (h : t.regs = s.regs) :
    s.WritesOnly ds t := fun r => .inl (by rw [h])

theorem State.WritesOnly.wr {ds : List Reg} {s t : State} (h : s.WritesOnly ds t) {rd : Reg}
    (hrd : rd ∈ ds) (v : Int) : s.WritesOnly ds (t.wr rd v) := by
  intro r
  by_cases hr : r = rd
  · subst hr
    exact .inr ⟨hrd, v, by simp⟩
  · rw [State.regs_wr_other t v hr]
    exact h r

/-- What a verdict commits, if it commits, comes from `s` by writes of `ds` only. -/
def Verdict.WritesOnly (ds : List Reg) (s : State) (v : Verdict) : Prop :=
  ∀ u, v = .commit u → s.WritesOnly ds u

section
variable {ds : List Reg} {s : State}

theorem Verdict.WritesOnly.commit {u : State} (h : s.WritesOnly ds u) :
    (Verdict.commit u).WritesOnly ds s := by
  rintro u' hu
  cases hu
  exact h

theorem Verdict.WritesOnly.commit_wr {rd : Reg} (h : rd ∈ ds) (v : Int) :
    (Verdict.commit (s.wr rd v)).WritesOnly ds s :=
  .commit (.wr (.of_regs_eq rfl) h v)

theorem Verdict.WritesOnly.error {e : ErrKind} : (Verdict.error e).WritesOnly ds s :=
  fun _ h => Verdict.noConfusion h

theorem Verdict.WritesOnly.wait : Verdict.wait.WritesOnly ds s :=
  fun _ h => Verdict.noConfusion h

theorem Verdict.WritesOnly.ite {c : Prop} [Decidable c] {v w : Verdict} (hv : v.WritesOnly ds s)
    (hw : w.WritesOnly ds s) : (if c then v else w).WritesOnly ds s := by
  split
  · exact hv
  · exact hw

theorem writeChecked_writesOnly {rd : Reg} (h : rd ∈ ds) (v : Int) :
    (writeChecked s rd v).WritesOnly ds s :=
  .ite (.commit_wr h v) .error

/-- A completion step writes what its verdict commits: an error and a wait write no register. -/
theorem settle_writesOnly {v : Verdict} {t : State} (h : settle s v = .next t)
    (hv : v.WritesOnly ds s) : s.WritesOnly ds t := by
  obtain ⟨u, hu, rfl⟩ | ⟨e, -, rfl⟩ | ⟨-, rfl⟩ := settle_next h
  · exact hv u hu
  · exact .of_regs_eq rfl
  · exact .of_regs_eq rfl

end

/-- A command writes its destinations only, each by `wr` (10_state.md R24). -/
theorem exec_writesOnly {i : Instr} {s t : State} (h : exec i s = .next t) :
    s.WritesOnly i.dests t := by
  cases i with
  | nop => exact settle_writesOnly (v := .commit s) h (.commit (.of_regs_eq rfl))
  | cmp ra rb =>
    exact settle_writesOnly (v := .commit (s.compareFlags (s.val ra) (s.val rb))) h
      (.commit (.of_regs_eq rfl))
  | add rd ra rb => exact settle_writesOnly h (writeChecked_writesOnly (.head _) _)
  | sub rd ra rb => exact settle_writesOnly h (writeChecked_writesOnly (.head _) _)
  | mul rd ra rb => exact settle_writesOnly h (writeChecked_writesOnly (.head _) _)
  | bred rd ra rb rc => exact settle_writesOnly h (.ite (.commit_wr (.head _) _) .error)
  | montmul rd ra rb rc => exact settle_writesOnly h (.ite (.commit_wr (.head _) _) .error)
  | montin rd ra rc => exact settle_writesOnly h (.ite (.commit_wr (.head _) _) .error)
  | montout rd ra rc => exact settle_writesOnly h (.ite (.commit_wr (.head _) _) .error)
  | modexp rd ra rb rc => exact settle_writesOnly h (.ite (.commit_wr (.head _) _) .error)
  | modinv rd ra rc =>
    exact settle_writesOnly h (.ite (.ite (.commit_wr (.head _) _) .error) .error)
  | xgcd rd rx ry ra rb =>
    have hthree (g x y : Int) :
        s.WritesOnly [rd, rx, ry] (((s.wr rd g).wr rx x).wr ry y) :=
      (((State.WritesOnly.of_regs_eq rfl).wr (by simp) g).wr (by simp) x).wr (by simp) y
    exact settle_writesOnly h (.ite (.ite (.commit (hthree _ _ _)) .error) .error)
  | mrtest ra =>
    refine settle_writesOnly h ?_
    split
    · exact .wait
    · exact .commit (.of_regs_eq rfl)
  | genprime rd =>
    refine settle_writesOnly h (.ite ?_ .error)
    split
    · exact .wait
    · next c rest _ =>
      have hrng : s.WritesOnly [rd] { s with rng := rest } := .of_regs_eq rfl
      exact .commit (hrng.wr (.head _) c)

/-- No command makes negative zero (10_state.md R22). -/
theorem State.WritesOnly.negative_zero {ds : List Reg} {s t : State} (h : s.WritesOnly ds t)
    {r : Reg} (hr : t.regs[r] = ⟨0, true⟩) : s.regs[r] = ⟨0, true⟩ := by
  obtain hkept | ⟨-, v, hv⟩ := h r
  · rw [← hkept, hr]
  · rw [hr] at hv
    exact absurd ⟨by rw [← hv], by rw [← hv]⟩ (BigReg.ofInt_not_negative_zero v)

/-- Settles O6: a value is read off the register, its range off its magnitude, and a completion
writes registers by `wr` only, which never stores negative zero. -/
theorem registerValueIsSignAndMagnitude : Obligations.RegisterValueIsSignAndMagnitude := fun _ r =>
  ⟨BigReg.val_of_mag_zero, BigReg.val_of_neg, BigReg.val_of_not_neg, fun h => State.val_range h r,
    fun _ _ h => (exec_writesOnly h).negative_zero⟩

/-! The writes of `CTRL`, `STATUS` and `CMD`. -/

theorem hostAccess_write_ctrl (d : Word) (s : State) :
    hostAccess (.write 2#15 d) s = if d.getLsbD 0 then s.resetBlock else s := rfl

theorem hostAccess_write_status (d : Word) (s : State) :
    hostAccess (.write 3#15 d) s = s.w1c d := rfl

theorem hostAccess_write_cmd (d : Word) (s : State) :
    hostAccess (.write 7#15 d) s = s.writeCmd d := rfl

/-- Settles O35: the two cases of a write to `CMD` exclude each other. -/
theorem commandWordsAreAcceptedWhenIdle : Obligations.CommandWordsAreAcceptedWhenIdle := by
  intro s d
  rw [hostAccess_write_cmd]
  obtain ⟨hb, he, h⟩ | ⟨hbe, h⟩ := s.writeCmd_cases d
  · exact ⟨fun _ _ => h, fun hbe => by simp [hb, he] at hbe⟩
  · exact ⟨fun hb he => by simp [hb, he] at hbe, fun _ => h⟩

/-! The state after reset. -/

theorem State.capWord_eq (s : State) :
    s.capWord = BitVec.ofNat 32 (0x01100000 + 32 * s.limbs % 65536) := by
  apply BitVec.eq_of_toNat_eq
  have hlt : 32 * s.limbs % 2 ^ 16 < 2 ^ 16 := Nat.mod_lt _ (by norm_num)
  simp only [State.capWord, State.width_eq, BitVec.toNat_append, BitVec.toNat_ofNat]
  rw [← Nat.shiftLeft_add_eq_or_of_lt hlt]
  have htop : (1 % 2 ^ 8) <<< 8 ||| 16 % 2 ^ 8 = 0x0110 := rfl
  rw [htop, Nat.shiftLeft_eq]
  omega

/-- A soft reset does what a hard reset does (70_reset_and_hazards.md R312). -/
theorem softReset_eq_hardReset {d : Word} (h : d.getLsbD 0 = true) (s : State) :
    hostAccess (.write 2#15 d) s = hardReset none s := by
  rw [hostAccess_write_ctrl, if_pos h]
  rfl

/-- A hard reset leaves a state with nothing to clear. -/
theorem cleared_hardReset (p : Option HostAccess) (s : State) :
    (hardReset p s).cleared = hardReset p s := by
  obtain _ | _ | _ := p <;> rfl

/-- Settles O37: a state after reset is one with nothing to clear, so its fields are those of
`cleared`. -/
theorem resetClearsTheBlock : Obligations.ResetClearsTheBlock := by
  refine ⟨fun s addr d => ⟨rfl, rfl, rfl, fun h => softReset_eq_hardReset h s⟩, fun s t ht => ?_⟩
  have hcleared : t.cleared = t := by
    obtain rfl | ⟨p, rfl⟩ | ⟨d, hd, rfl⟩ := ht
    · rfl
    · exact cleared_hardReset p s
    · rw [softReset_eq_hardReset hd]
      exact cleared_hardReset none s
  rw [← hcleared]
  simp [State.irq, State.readWord, idWord, State.capWord_eq]

/-! The interrupt line. -/

/-- A write of `STATUS` that clears both `DONE` and `ERR` takes the line low. -/
theorem State.irq_w1c {s : State} {d : Word} (hdone : d.getLsbD 1 = true)
    (herr : d.getLsbD 2 = true) : (s.w1c d).irq = false := by
  obtain ⟨h1, h2, -⟩ := s.w1c_flags d
  simp [State.irq, h1, h2, hdone, herr]

/-- Settles O39: a failed command sets both `DONE` and `ERR`, and the `ACK` word clears both. -/
theorem interruptLineFollowsTheFlags : Obligations.InterruptLineFollowsTheFlags := by
  intro s
  refine ⟨rfl, fun code => by simp [State.irq], ?_⟩
  rw [hostAccess_write_status]
  exact State.irq_w1c (by decide) (by decide)

end Sys2Proof.Machine
end

section
/-! PROOFS. The memory family (20_memory.md): what a host read returns (R62) and what a host write
does (R63), at every offset of the address map (R61, R64). -/

namespace Sys2Proof.Machine

/-! The words of flags the host reads, as numbers. -/

/-- The word that has the bits `f`, bit 0 first. -/
def orBits : (n : Nat) → (Fin n → Bool) → Word
  | 0, _ => 0#32
  | n + 1, f => orBits n (fun i => f i.castSucc) ||| bitAt (f (Fin.last n)) n

theorem bitAt_toNat {k : Nat} (hk : k < 32) (b : Bool) : (bitAt b k).toNat = b.toNat * 2 ^ k := by
  cases b with
  | false => simp [bitAt]
  | true => simp [bitAt, BitVec.toNat_twoPow_of_lt hk]

theorem sum_bits_lt : ∀ (n : Nat) (f : Fin n → Bool), ∑ i, (f i).toNat * 2 ^ i.val < 2 ^ n
  | 0, _ => by simp
  | n + 1, f => by
    have hlow := sum_bits_lt n fun i => f i.castSucc
    have hbit : (f (Fin.last n)).toNat * 2 ^ n ≤ 1 * 2 ^ n :=
      Nat.mul_le_mul_right _ (Bool.toNat_le _)
    rw [Fin.sum_univ_castSucc, pow_succ]
    simp only [Fin.val_castSucc, Fin.val_last]
    omega

/-- Bits at different places: their disjunction is their sum. -/
theorem orBits_toNat : ∀ (n : Nat) (f : Fin n → Bool), n ≤ 32 →
    (orBits n f).toNat = ∑ i, (f i).toNat * 2 ^ i.val
  | 0, _, _ => rfl
  | n + 1, f, hn => by
    have hlow := sum_bits_lt n fun i => f i.castSucc
    rw [orBits, BitVec.toNat_or, orBits_toNat n _ (by omega), bitAt_toNat (by omega), Nat.or_comm,
      Nat.mul_comm, ← Nat.two_pow_add_eq_or_of_lt hlow, Fin.sum_univ_castSucc, Nat.add_comm,
      Nat.mul_comm (2 ^ n)]
    rfl

theorem orBits_eq_ofNat {n : Nat} (hn : n ≤ 32) (f : Fin n → Bool) :
    orBits n f = BitVec.ofNat 32 (∑ i, (f i).toNat * 2 ^ i.val) := by
  rw [← orBits_toNat n f hn, BitVec.ofNat_toNat, BitVec.setWidth_eq]

theorem State.signWord_eq (s : State) :
    s.signWord = BitVec.ofNat 32 (∑ r : Fin 16, s.regs[r].neg.toNat * 2 ^ r.val) := by
  have hbits : s.signWord = orBits 16 fun r => s.regs[r].neg := by
    simp only [orBits, BitVec.zero_or]
    rfl
  rw [hbits, orBits_eq_ofNat (by decide)]

theorem State.statusWord_eq (s : State) :
    s.statusWord = BitVec.ofNat 32 (s.lt.toNat * 64 + s.z.toNat * 32 + s.prime.toNat * 16 +
      s.rej.toNat * 8 + s.err.toNat * 4 + s.done.toNat * 2 + s.busy.toNat) := by
  have hbits : s.statusWord = orBits 7 ![s.busy, s.done, s.err, s.rej, s.prime, s.z, s.lt] := by
    simp only [orBits, BitVec.zero_or]
    rfl
  rw [hbits, orBits_eq_ofNat (by decide), Fin.sum_univ_seven]
  congr 1
  change s.busy.toNat * 1 + s.done.toNat * 2 + s.err.toNat * 4 + s.rej.toNat * 8 +
    s.prime.toNat * 16 + s.z.toNat * 32 + s.lt.toNat * 64 = _
  ring

theorem State.ieWord_eq (s : State) :
    s.ieWord = BitVec.ofNat 32 (s.errIe.toNat * 4 + s.doneIe.toNat * 2) := by
  unfold State.ieWord
  cases s.errIe <;> cases s.doneIe <;> rfl

/-! Where a word index leads. -/

section
variable {s : State} {addr : BitVec 15} {l : Loc} {d : Word}

theorem State.locate_of_offset {off : Nat} (h : 4 * addr.toNat = off) :
    s.locate addr = locateOffset s.limbs off := congrArg (locateOffset s.limbs) h

theorem State.locate_gap (h : 0x2C ≤ 4 * addr.toNat) (h' : 4 * addr.toNat < 0x10000) :
    s.locate addr = .reserved := locateOffset_gap s.limbs h h'

theorem State.locate_limb_of_offset (hw : s.legalWidth = true) {r : Reg} {i : Nat}
    (h : 4 * addr.toNat = 0x10000 + 0x1000 * r.val + 4 * i) (hi : i < s.limbs) :
    s.locate addr = .limb r i := by
  obtain ⟨-, hL⟩ := State.legalWidth_limbs hw
  exact (locateOffset_window s.limbs r (by omega) h).trans (if_pos hi)

theorem State.locate_beyond_limbs {r : Reg} {i : Nat}
    (h : 4 * addr.toNat = 0x10000 + 0x1000 * r.val + 4 * i) (hi : s.limbs ≤ i) (hi' : i < 1024) :
    s.locate addr = .reserved :=
  (locateOffset_window s.limbs r hi' h).trans (if_neg (Nat.not_lt.mpr hi))

/-! The read. -/

theorem hostAccess_read (h : s.locate addr = l) :
    hostAccess (.read addr) s = { s.readEffect l with rdata := s.readWord l } := by
  rw [hostAccess, hostRead, h]

theorem hostAccess_read_limb_busy {r : Reg} {i : Nat} (h : s.locate addr = .limb r i)
    (hb : s.busy = true) : hostAccess (.read addr) s = { s with rej := true, rdata := 0#32 } := by
  simp [hostAccess_read h, State.readEffect, State.readWord, State.reject, hb]

theorem hostAccess_read_limb_idle {r : Reg} {i : Nat} (h : s.locate addr = .limb r i)
    (hb : s.busy = false) :
    hostAccess (.read addr) s = { s with rdata := limbOf s.regs[r].mag i } := by
  simp [hostAccess_read h, State.readEffect, State.readWord, hb]

/-! The write. -/

theorem hostAccess_write (h : s.locate addr = l) :
    hostAccess (.write addr d) s = s.writeLoc d l := by
  rw [hostAccess, hostWrite, h]

theorem State.whenIdle_idle (hb : s.busy = false) (t : State) : s.whenIdle t = t := by
  simp [State.whenIdle, hb]

theorem State.whenIdle_busy (hb : s.busy = true) (t : State) : s.whenIdle t = s.reject := by
  simp [State.whenIdle, hb]

/-- A write of `STATUS` that clears a raised `ERR` clears the error record with it
(10_state.md R28). -/
theorem State.w1c_clears_err (he : s.err = true) (hd : d.getLsbD 2 = true) :
    s.w1c d = { s with done := s.done && !d.getLsbD 1, err := false, rej := s.rej && !d.getLsbD 3,
                       errcode := 0#8, errcmd := 0#32 } := by
  simp [State.w1c, State.clearErr, he, hd]

/-- A write of `STATUS` that clears no raised `ERR` leaves the error record alone
(10_state.md R28). -/
theorem State.w1c_leaves_err (h : s.err = false ∨ d.getLsbD 2 = false) :
    s.w1c d = { s with done := s.done && !d.getLsbD 1, rej := s.rej && !d.getLsbD 3 } := by
  obtain he | hd := h
  · simp [State.w1c, State.clearErr, he]
  · rw [State.w1c, hd]
    rfl

theorem State.writeCmd_accepted (hb : s.busy = false) (he : s.err = false) :
    s.writeCmd d = s.accept d := by
  simp [State.writeCmd, hb, he]

theorem State.writeCmd_refused (h : s.busy = true ∨ s.err = true) : s.writeCmd d = s.reject := by
  obtain hb | he := h
  · simp [State.writeCmd, hb]
  · simp [State.writeCmd, he]

theorem State.writeSigns_reg (r : Reg) :
    (s.writeSigns d).regs[r] = ⟨s.regs[r].mag, d.getLsbD r.val⟩ := by
  simp [State.writeSigns]

end

/-- Settles O32: one case per row of the address map. -/
theorem hostReadReturnsTheMappedWord : Obligations.HostReadReturnsTheMappedWord := by
  intro s addr hw
  have read {off : Nat} (h : 4 * addr.toNat = off) :=
    hostAccess_read (s := s) (State.locate_of_offset h)
  refine ⟨read, fun h => ?cap, read, fun h => ?status, fun h => ?ie, fun h => ?errcode, read, read,
    fun h => ?mrk, fun h => ?pbits, fun h => ?sign,
    fun h h' => ?gap,
    fun r i h => ⟨fun hi => ?limbBusy, fun hi => ?limbIdle, fun hi hi' => ?beyond⟩⟩
  case cap => exact s.capWord_eq ▸ read h
  case status => exact s.statusWord_eq ▸ read h
  case ie => exact s.ieWord_eq ▸ read h
  case errcode => exact BitVec.ofNat_toNat 32 s.errcode ▸ read h
  case mrk => exact BitVec.ofNat_toNat 32 s.mrk ▸ read h
  case pbits => exact BitVec.ofNat_toNat 32 s.pbits ▸ read h
  case sign => exact s.signWord_eq ▸ read h
  case gap => exact hostAccess_read (State.locate_gap h h')
  case limbBusy => exact hostAccess_read_limb_busy (State.locate_limb_of_offset hw h hi)
  case limbIdle => exact hostAccess_read_limb_idle (State.locate_limb_of_offset hw h hi)
  case beyond => exact hostAccess_read (State.locate_beyond_limbs h hi hi')

/-- Settles O33: one case per row of the address map. -/
theorem hostWriteDoesTheMappedAction : Obligations.HostWriteDoesTheMappedAction := by
  intro s addr d hw
  have write {off : Nat} (h : 4 * addr.toNat = off) :=
    hostAccess_write (s := s) (d := d) (State.locate_of_offset h)
  refine ⟨fun h hd => (write h).trans (if_pos hd),
    fun h hd => (write h).trans (if_neg (Bool.eq_false_iff.mp hd)),
    fun h he hd => (write h).trans (State.w1c_clears_err he hd),
    fun h hed => (write h).trans (State.w1c_leaves_err hed), write,
    fun h hb he => (write h).trans (State.writeCmd_accepted hb he),
    fun h hbe => (write h).trans (State.writeCmd_refused hbe),
    fun h hb => ?mrk, fun h hb => ?pbits, fun h hb => ?sign, fun h hb => ?busy,
    fun r i h => ⟨fun hi hb => ?limbBusy, fun hi hb => ?limbIdle, fun hi hi' => ?beyond⟩, ?rest⟩
  case mrk =>
    rw [BitVec.ofNat_toNat]
    exact (write h).trans (State.whenIdle_idle hb _)
  case pbits =>
    rw [BitVec.ofNat_toNat]
    exact (write h).trans (State.whenIdle_idle hb _)
  case sign =>
    exact ⟨_, (write h).trans (State.whenIdle_idle hb _), fun r => State.writeSigns_reg r⟩
  case busy =>
    simp only [List.mem_cons, List.not_mem_nil, or_false] at h
    obtain h | h | h := h <;> exact (write h).trans (State.whenIdle_busy hb _)
  case limbBusy =>
    exact (hostAccess_write (State.locate_limb_of_offset hw h hi)).trans (State.whenIdle_busy hb _)
  case limbIdle =>
    exact ⟨_, (hostAccess_write (State.locate_limb_of_offset hw h hi)).trans
      (State.whenIdle_idle hb _), testBit_setLimb s.regs[r].mag i d⟩
  case beyond => exact hostAccess_write (State.locate_beyond_limbs h hi hi')
  case rest =>
    simp only [List.mem_cons, List.not_mem_nil, or_false]
    rintro ((h | h | h | h) | ⟨h, h'⟩)
    exacts [write h, write h, write h, write h, hostAccess_write (State.locate_gap h h')]

end Sys2Proof.Machine
end

section
/-! PROOFS. The encoding family (30_encoding.md): what the decoder accepts (R104), read off the
opcode table (R105), and what an illegal word does (R106). -/

namespace Sys2Proof.Machine

/-! The decoder, from its answer back to the word. -/

/-- The checks of 30_encoding.md R104, all passed. -/
theorem decode_eq_ok_iff {w : Word} {i : Instr} :
    decode w = .ok i ↔ ∃ row, opRow (opOf w) = some row ∧
      w &&& row.format.mask = matchWord (opOf w) ∧ row.build w = i ∧ i.wf = true := by
  unfold decode
  constructor
  · intro h
    split at h
    · cases h
    · next row hrow =>
      split_ifs at h with hmask hwf
      cases h
      exact ⟨row, hrow, hmask, rfl, hwf⟩
  · rintro ⟨row, hrow, hmask, rfl, hwf⟩
    simp only [hrow, if_pos hmask, if_pos hwf]

/-- A row of the opcode map is the opcode table's row for that opcode: its `match` and its mask
(30_encoding.md R105). -/
theorem opRow_mem_opcodeTable {op : BitVec 8} {row : OpRow} (h : opRow op = some row) :
    (op.toNat, matchWord op, row.format.mask) ∈ opcodeTable := by
  have opcode {n : Nat} (hn : op.toNat = n) : op = BitVec.ofNat 8 n := by
    rw [← hn, BitVec.ofNat_toNat, BitVec.setWidth_eq]
  unfold opRow at h
  split at h
  case h_15 => cases h
  all_goals
    next hn =>
      cases h
      cases opcode hn
      decide

/-! The word's fields as numbers (30_encoding.md R101). -/

theorem opOf_toNat (w : Word) : (opOf w).toNat = w.toNat / 2 ^ 24 := by
  have := w.isLt
  rw [opOf, BitVec.extractLsb'_toNat, Nat.shiftRight_eq_div_pow]
  omega

theorem rdOf_val (w : Word) : (rdOf w).val = w.toNat / 2 ^ 20 % 16 := field_val w 20

theorem rxOf_val (w : Word) : (rxOf w).val = w.toNat / 2 ^ 4 % 16 := field_val w 4

theorem ryOf_val (w : Word) : (ryOf w).val = w.toNat % 16 := by
  rw [ryOf, field_val, pow_zero, Nat.div_one]

theorem distinctDests_iff {rd rx ry : Reg} :
    distinctDests rd rx ry = true ↔ rd ≠ rx ∧ rd ≠ ry ∧ rx ≠ ry := by
  simp [distinctDests, and_assoc]

/-- An `XGCD` word the decoder accepts has three different destinations (30_encoding.md R104). -/
theorem decode_xgcd_distinct {w : Word} {i : Instr} (h : decode w = .ok i)
    (hop : opOf w = 0x30#8) : rdOf w ≠ rxOf w ∧ rdOf w ≠ ryOf w ∧ rxOf w ≠ ryOf w := by
  obtain ⟨row, hrow, -, rfl, hwf⟩ := decode_eq_ok_iff.mp h
  rw [hop] at hrow
  cases hrow
  exact distinctDests_iff.mp hwf

theorem legalWord_of_decode {w : Word} {i : Instr} (h : decode w = .ok i) : legalWord w := by
  obtain ⟨row, hrow, hmask, -, -⟩ := decode_eq_ok_iff.mp h
  refine ⟨⟨_, opRow_mem_opcodeTable hrow, hmask⟩, fun hxgcd => ?_⟩
  have hop : opOf w = 0x30#8 := BitVec.eq_of_toNat_eq ((opOf_toNat w).trans hxgcd)
  simpa only [ne_eq, Fin.ext_iff, rdOf_val, rxOf_val, ryOf_val] using decode_xgcd_distinct h hop

/-! The illegal word. -/

/-- What the decoder refuses completes with `IllegalCommand` (30_encoding.md R106). -/
theorem engineTurn_illegal {s : State} {e : DecodeError} (hb : s.busy = true)
    (h : decode s.cmdreg = .error e) : engineTurn s = .next (s.raise .illegalCommand) := by
  rw [engineTurn, if_pos hb, completeCommand, h]

/-- Fourteen opcode values have a row. -/
theorem opRow_isNone_count :
    ((List.range 256).filter fun op => (opRow (BitVec.ofNat 8 op)).isNone).length = 242 := by
  decide +kernel

/-- Settles O5: a word the decoder accepts is legal, so it refuses an illegal one, and a refused
word raises `IllegalCommand`. -/
theorem illegalWordRaisesIllegalCommand : Obligations.IllegalWordRaisesIllegalCommand := by
  refine ⟨fun s hb hillegal => ?_, opRow_isNone_count⟩
  cases h : decode s.cmdreg with
  | ok i => exact absurd (legalWord_of_decode h) hillegal
  | error e => exact engineTurn_illegal hb h

end Sys2Proof.Machine
end

section
/-! PROOFS. The adder/subtractor family (40_addsub.md): `NOP` (R130), `ADD` (R132), `SUB` (R134),
`CMP` (R136) and `MUL` (R138). -/

namespace Sys2Proof.Machine

/-! The word of a command, written as a number (30_encoding.md R101), decodes to it. -/

theorem wordOf_eq_packWord (op : BitVec 8) (rd ra rb rc rx ry : Reg) :
    wordOf op.toNat rd ra rb rc rx ry = packWord op rd ra rb rc rx ry := by
  rw [wordOf, ← packWord_toNat, BitVec.ofNat_toNat, BitVec.setWidth_eq]

theorem decode_encode_of_matches {i : Instr} (h : Laws.EncodeMatches.Statement i)
    (hwf : i.wf = true) : decode (encode i) = .ok i := by
  obtain ⟨row, hrow, hmask, hbuild⟩ := h
  exact decode_eq_ok_iff.mpr ⟨row, hrow, hmask, hbuild, hwf⟩

/-- The number `wordOf` of a command's fields decodes to the command. -/
theorem decode_wordOf {i : Instr} (h : Laws.EncodeMatches.Statement i) (hwf : i.wf = true)
    (op : BitVec 8) (rd ra rb rc rx ry : Reg) (hword : encode i = packWord op rd ra rb rc rx ry) :
    decode (wordOf op.toNat rd ra rb rc rx ry) = .ok i := by
  rw [wordOf_eq_packWord, ← hword]
  exact decode_encode_of_matches h hwf

/-! The meanings. -/

section
variable (rd ra rb : Reg) (s : State)

theorem exec_nop : exec .nop s = .next s.endsOk := rfl

theorem exec_add :
    exec (.add rd ra rb) s = settle s (writeChecked s rd (s.val ra + s.val rb)) := rfl

theorem exec_sub :
    exec (.sub rd ra rb) s = settle s (writeChecked s rd (s.val ra - s.val rb)) := rfl

theorem exec_cmp :
    exec (.cmp ra rb) s = .next (s.compareFlags (s.val ra) (s.val rb)).endsOk := rfl

theorem exec_mul :
    exec (.mul rd ra rb) s = settle s (writeChecked s rd (s.val ra * s.val rb)) := rfl

/-- The end of `ADD`, `SUB` and `MUL`: the exact result where it fits, else `Overflow`
(40_addsub.md R131). -/
theorem settle_writeChecked (v : Int) :
    (v.natAbs < 2 ^ (32 * s.limbs) →
      settle s (writeChecked s rd v) = .next (s.putReg rd v).endsOk) ∧
    (2 ^ (32 * s.limbs) ≤ v.natAbs → settle s (writeChecked s rd v) = .next (s.endsErr 4#8)) := by
  constructor
  · intro hfits
    rw [writeChecked_fits rd hfits]
    rfl
  · intro hover
    rw [writeChecked_overflow rd hover]
    rfl

end

/-- The engine's turn with a legal command in flight. -/
theorem engineTurn_decoded {s : State} {i : Instr} (hb : s.busy = true)
    (h : decode s.cmdreg = .ok i) : engineTurn s = exec i s := by
  rw [engineTurn, if_pos hb, completeCommand, h]

theorem decode_zero_word : decode 0x00000000#32 = .ok .nop :=
  decode_wordOf Laws.EncodeMatches.nop rfl 0x00 0 0 0 0 0 0 rfl

/-- Settles O7: the accepted word is in flight and decodes to `NOP`, whose completion undoes the
`BUSY` that accepting it set. -/
theorem nopRunsTheLifeCycleOnly : Obligations.NopRunsTheLifeCycleOnly := by
  refine ⟨decode_zero_word, exec_nop, fun s hb he => ?_⟩
  rw [hostAccess_write_cmd, State.writeCmd_accepted hb he,
    engineTurn_decoded (i := .nop) rfl decode_zero_word, exec_nop, State.endsOk, State.accept, hb]

/-- Settles O8: `ADD` is a checked write of the sum. -/
theorem addStoresTheSumOrOverflows : Obligations.AddStoresTheSumOrOverflows := fun rd ra rb =>
  ⟨decode_wordOf (Laws.EncodeMatches.add rd ra rb) rfl 0x01 rd ra rb 0 0 0 rfl,
    fun s => exec_add rd ra rb s ▸ settle_writeChecked rd s (s.val ra + s.val rb)⟩

/-- Settles O9: `SUB` is a checked write of the difference. -/
theorem subStoresTheDifferenceOrOverflows : Obligations.SubStoresTheDifferenceOrOverflows :=
  fun rd ra rb =>
  ⟨decode_wordOf (Laws.EncodeMatches.sub rd ra rb) rfl 0x02 rd ra rb 0 0 0 rfl,
    fun s => exec_sub rd ra rb s ▸ settle_writeChecked rd s (s.val ra - s.val rb)⟩

/-- Settles O10: `CMP` commits the comparison's flags and cannot fail. -/
theorem cmpSetsZeroAndLess : Obligations.CmpSetsZeroAndLess := fun ra rb =>
  ⟨decode_wordOf (Laws.EncodeMatches.cmp ra rb) rfl 0x03 0 ra rb 0 0 0 rfl, exec_cmp ra rb⟩

/-- Settles O11: `MUL` is a checked write of the product. -/
theorem mulStoresTheProductOrOverflows : Obligations.MulStoresTheProductOrOverflows :=
  fun rd ra rb =>
  ⟨decode_wordOf (Laws.EncodeMatches.mul rd ra rb) rfl 0x04 rd ra rb 0 0 0 rfl,
    fun s => exec_mul rd ra rb s ▸ settle_writeChecked rd s (s.val ra * s.val rb)⟩

end Sys2Proof.Machine
end

section
/-! PROOFS. The reduction family (41_reduction.md): `BRED` (R151), `MONTMUL` (R154), `MONTIN`
(R156) and `MONTOUT` (R157), on the Bezout equation of the Euclid unit (42_xgcd.md R170) that makes
`Rinv(N)` (R153) an inverse of the radix. -/

namespace Sys2Proof.Machine

/-! The extended Euclidean algorithm. -/

/-- Within its depth the recursion gives the gcd. -/
theorem xgcdFuel_fst : ∀ {fuel a b : Nat}, b < fuel → (xgcdFuel fuel a b).1 = Nat.gcd a b := by
  intro fuel
  induction fuel with
  | zero => intro a b h; omega
  | succ fuel ih =>
    intro a b h
    rw [xgcdFuel]
    split_ifs with hb
    · rw [hb, Nat.gcd_zero_right]
    · have hlt : a % b < b := Nat.mod_lt a (Nat.pos_of_ne_zero hb)
      rw [ih (by omega), Nat.gcd_comm, ← Nat.gcd_rec, Nat.gcd_comm]

/-- Each call keeps the Bezout equation of the one inside it, whatever the depth. -/
theorem xgcdFuel_bezout : ∀ (fuel a b : Nat),
    (a : Int) * (xgcdFuel fuel a b).2.1 + (b : Int) * (xgcdFuel fuel a b).2.2 =
      (xgcdFuel fuel a b).1 := by
  intro fuel
  induction fuel with
  | zero => intro a b; simp [xgcdFuel]
  | succ fuel ih =>
    intro a b
    rw [xgcdFuel]
    split_ifs with hb
    · simp
    · have hdiv : (b : Int) * (a / b : Nat) + (a % b : Nat) = a := by
        exact_mod_cast Nat.div_add_mod a b
      linear_combination ih b (a % b) - (xgcdFuel fuel b (a % b)).2.2 * hdiv

theorem xgcd_fst (a b : Nat) : (xgcd a b).1 = Nat.gcd a b := xgcdFuel_fst (Nat.lt_succ_self b)

theorem xgcd_bezout (a b : Nat) :
    (a : Int) * (xgcd a b).2.1 + (b : Int) * (xgcd a b).2.2 = Nat.gcd a b := by
  rw [← xgcd_fst]
  exact xgcdFuel_bezout (b + 1) a b

/-! The inverses. -/

theorem inverseMod_cast {m : Nat} (hm : 0 < m) (a : Nat) :
    (inverseMod a m : Int) = (xgcd a m).2.1 % (m : Int) :=
  Int.toNat_of_nonneg (Int.emod_nonneg _ (by omega))

theorem inverseMod_lt {m : Nat} (hm : 0 < m) (a : Nat) : inverseMod a m < m := by
  have hlt : (xgcd a m).2.1 % (m : Int) < m := Int.emod_lt_of_pos _ (by omega)
  rw [← inverseMod_cast hm] at hlt
  exact_mod_cast hlt

/-- Modulo `m` the Bezout equation says that the first coefficient is an inverse of `a`. -/
theorem mul_inverseMod_modEq {a m : Nat} (hm : 0 < m) (hgcd : Nat.gcd a m = 1) :
    a * inverseMod a m ≡ 1 [MOD m] := by
  have hbezout := xgcd_bezout a m
  rw [hgcd] at hbezout
  rw [← Int.natCast_modEq_iff, Nat.cast_mul, inverseMod_cast hm, ← hbezout]
  calc (a : Int) * ((xgcd a m).2.1 % m)
      ≡ a * (xgcd a m).2.1 [ZMOD m] := (Int.mod_modEq _ _).mul_left _
    _ ≡ a * (xgcd a m).2.1 + m * (xgcd a m).2.2 [ZMOD m] := Int.modEq_add_fac_self.symm

theorem rinv_lt {n : Nat} (hodd : n % 2 = 1) (width : Nat) : rinv width n < n :=
  inverseMod_lt (by omega) _

/-- The radix is a power of 2, so it has an inverse modulo an odd number (41_reduction.md R153). -/
theorem radix_mul_rinv_modEq {n : Nat} (hodd : n % 2 = 1) (width : Nat) :
    2 ^ width * rinv width n ≡ 1 [MOD n] := by
  have hcoprime : Nat.gcd (2 ^ width % n) n = 1 := by
    rw [← Nat.gcd_rec, Nat.gcd_comm]
    exact Nat.Coprime.pow_left width (Nat.coprime_two_left.mpr (Nat.odd_iff.mpr hodd))
  calc 2 ^ width * rinv width n
      ≡ 2 ^ width % n * rinv width n [MOD n] := ((Nat.mod_modEq _ _).mul_right _).symm
    _ ≡ 1 [MOD n] := mul_inverseMod_modEq (by omega) hcoprime

/-! The verdict the commands share: a result that cannot overflow, or `InvalidParameter`. -/

/-- A write of `v` where the operands are in the command's domain. -/
def writeInDomain (s : State) (domain : Bool) (rd : Reg) (v : Int) : Verdict :=
  if domain then .commit (s.wr rd v) else .error .invalidParameter

section
variable {s : State} {domain : Bool} {rd : Reg} {v : Int}

theorem settle_writeInDomain (h : domain = true) :
    settle s (writeInDomain s domain rd v) = .next (s.putReg rd v).endsOk := by
  rw [writeInDomain, if_pos h]
  rfl

theorem settle_writeInDomain_error (h : ¬domain = true) :
    settle s (writeInDomain s domain rd v) = .next (s.endsErr 1#8) := by
  rw [writeInDomain, if_neg h]
  rfl

end

/-! The domains. -/

theorem bredDomain_iff {hi lo n : Int} : bredDomain hi lo n = true ↔ 0 ≤ hi ∧ 0 ≤ lo ∧ 1 ≤ n :=
  decide_eq_true_iff

theorem montmulDomain_iff {a b n : Int} :
    montmulDomain a b n = true ↔ (1 ≤ n ∧ n % 2 = 1) ∧ (0 ≤ a ∧ a < n) ∧ 0 ≤ b ∧ b < n := by
  simp only [montmulDomain, montModulus, reduced, Bool.and_eq_true, decide_eq_true_iff, and_assoc]

theorem montinDomain_iff {a n : Int} :
    montinDomain a n = true ↔ (1 ≤ n ∧ n % 2 = 1) ∧ 0 ≤ a := by
  simp only [montinDomain, montModulus, Bool.and_eq_true, decide_eq_true_iff]

theorem montoutDomain_iff {a n : Int} :
    montoutDomain a n = true ↔ (1 ≤ n ∧ n % 2 = 1) ∧ 0 ≤ a ∧ a < n := by
  simp only [montoutDomain, montModulus, reduced, Bool.and_eq_true, decide_eq_true_iff]

/-! The meanings. -/

section
variable (rd ra rb rc : Reg) (s : State)

theorem exec_bred :
    exec (.bred rd ra rb rc) s =
      settle s (writeInDomain s (bredDomain (s.val ra) (s.val rb) (s.val rc)) rd
        ((s.val ra * 2 ^ (32 * s.limbs) + s.val rb) % s.val rc)) := rfl

theorem exec_montmul :
    exec (.montmul rd ra rb rc) s =
      settle s (writeInDomain s (montmulDomain (s.val ra) (s.val rb) (s.val rc)) rd
        (montMul (32 * s.limbs) (s.val ra).toNat (s.val rb).toNat (s.val rc).toNat)) := rfl

theorem exec_montin :
    exec (.montin rd ra rc) s =
      settle s (writeInDomain s (montinDomain (s.val ra) (s.val rc)) rd
        (montIn (32 * s.limbs) (s.val ra).toNat (s.val rc).toNat)) := rfl

theorem exec_montout :
    exec (.montout rd ra rc) s =
      settle s (writeInDomain s (montoutDomain (s.val ra) (s.val rc)) rd
        (montOut (32 * s.limbs) (s.val ra).toNat (s.val rc).toNat)) := rfl

end

/-- Settles O13: `MONTMUL` is a write in its domain, and the model's `Rinv(N)` is the inverse. -/
theorem montmulStoresTheMontgomeryProduct : Obligations.MontmulStoresTheMontgomeryProduct := by
  intro rd ra rb rc
  refine ⟨decode_wordOf (Laws.EncodeMatches.montmul rd ra rb rc) rfl 0x11 rd ra rb rc 0 0 rfl,
    fun s => ⟨fun a b n ha hb hn hodd han hbn => ?_, fun hout => ?_⟩⟩
  · refine ⟨rinv (32 * s.limbs) n, rinv_lt hodd _, radix_mul_rinv_modEq hodd _, ?_⟩
    rw [exec_montmul, ha, hb, hn, settle_writeInDomain (montmulDomain_iff.mpr (by omega))]
    rfl
  · rw [exec_montmul, settle_writeInDomain_error (by rw [montmulDomain_iff]; omega)]

/-- Settles O15: `MONTOUT` is a write in its domain, and the model's `Rinv(N)` is the inverse. -/
theorem montoutLeavesTheMontgomeryForm : Obligations.MontoutLeavesTheMontgomeryForm := by
  intro rd ra rc
  refine ⟨decode_wordOf (Laws.EncodeMatches.montout rd ra rc) rfl 0x13 rd ra 0 rc 0 0 rfl,
    fun s => ⟨fun a n ha hn hodd han => ?_, fun hout => ?_⟩⟩
  · refine ⟨rinv (32 * s.limbs) n, rinv_lt hodd _, radix_mul_rinv_modEq hodd _, ?_⟩
    rw [exec_montout, ha, hn, settle_writeInDomain (montoutDomain_iff.mpr (by omega))]
    rfl
  · rw [exec_montout, settle_writeInDomain_error (by rw [montoutDomain_iff]; omega)]

/-- Settles O12: `BRED` is a write in its domain. -/
theorem bredStoresTheRemainder : Obligations.BredStoresTheRemainder := by
  intro rd ra rb rc
  refine ⟨decode_wordOf (Laws.EncodeMatches.bred rd ra rb rc) rfl 0x10 rd ra rb rc 0 0 rfl,
    fun s => ⟨fun hi lo n hhi hlo hn hpos => ?_, fun hout => ?_⟩⟩
  · rw [exec_bred, hhi, hlo, hn, settle_writeInDomain (bredDomain_iff.mpr (by omega))]
    push_cast
    rfl
  · rw [exec_bred, settle_writeInDomain_error (by rw [bredDomain_iff]; omega)]

/-- Settles O14: `MONTIN` is a write in its domain. -/
theorem montinStoresTheMontgomeryForm : Obligations.MontinStoresTheMontgomeryForm := by
  intro rd ra rc
  refine ⟨decode_wordOf (Laws.EncodeMatches.montin rd ra rc) rfl 0x12 rd ra 0 rc 0 0 rfl,
    fun s => ⟨fun a n ha hn hodd => ?_, fun hout => ?_⟩⟩
  · rw [exec_montin, ha, hn, settle_writeInDomain (montinDomain_iff.mpr (by omega))]
    rfl
  · rw [exec_montin, settle_writeInDomain_error (by rw [montinDomain_iff]; omega)]

end Sys2Proof.Machine
end

section
/-! PROOFS. The Euclid family (42_xgcd.md): `XGcd` (R170), `XGCD` (R171) and `MODINV` (R175). The
postcondition of R170 and the inverse it gives stand with the reduction family above. -/

namespace Sys2Proof.Machine

/-! The recursion. -/

theorem xgcd_zero_right (a : Nat) : xgcd a 0 = (a, 1, 0) := rfl

/-- The inner call has depth to spare, so it is `xgcd` again. -/
theorem xgcd_of_ne_zero {b : Nat} (hb : b ≠ 0) (a : Nat) :
    xgcd a b = ((xgcd b (a % b)).1, (xgcd b (a % b)).2.2,
      (xgcd b (a % b)).2.1 - ((a / b : Nat) : Int) * (xgcd b (a % b)).2.2) := by
  have hlt : a % b < b := Nat.mod_lt a (Nat.pos_of_ne_zero hb)
  have hdepth : xgcdFuel b b (a % b) = xgcd b (a % b) :=
    xgcdFuel_enough b (a % b + 1) b (a % b) hlt (Nat.lt_succ_self _)
  rw [← hdepth, xgcd, xgcdFuel, if_neg hb]

/-- Settles O50: the recursion does not see its depth bound, and it keeps the gcd and the Bezout
equation. -/
theorem xgcdFollowsItsRecursion : Obligations.XgcdFollowsItsRecursion := fun a b =>
  ⟨xgcd_zero_right a, fun hb => xgcd_of_ne_zero hb a, xgcd_fst a b, xgcd_bezout a b⟩

/-! The word of a command that is not well formed. -/

/-- Only an `XGCD` can fail the decoder's last check (30_encoding.md R106 item 3). -/
theorem decode_encode_of_not_wf {i : Instr} (h : Laws.EncodeMatches.Statement i)
    (hwf : ¬i.wf = true) : decode (encode i) = .error .equalDestinations := by
  obtain ⟨row, hrow, hmask, hbuild⟩ := h
  simp only [decode, hrow, if_pos hmask, hbuild, if_neg hwf]

/-! The domains. -/

theorem xgcdDomain_iff {a b : Int} : xgcdDomain a b = true ↔ 0 ≤ a ∧ 0 ≤ b := decide_eq_true_iff

theorem modinvDomain_iff {a m : Int} : modinvDomain a m = true ↔ 0 ≤ a ∧ 1 ≤ m :=
  decide_eq_true_iff

/-! The meanings, a case each, in the order of the checks (60_exceptions.md R277). -/

section
variable {rd rx ry ra rb rc : Reg} {s : State}

theorem exec_xgcd_of_not_distinct (hdests : ¬distinctDests rd rx ry = true) :
    exec (.xgcd rd rx ry ra rb) s = .next (s.endsErr 3#8) :=
  congrArg (settle s) (if_neg hdests)

theorem exec_xgcd_of_not_domain (hdests : distinctDests rd rx ry = true)
    (hout : ¬xgcdDomain (s.val ra) (s.val rb) = true) :
    exec (.xgcd rd rx ry ra rb) s = .next (s.endsErr 1#8) :=
  congrArg (settle s) ((if_pos hdests).trans (if_neg hout))

theorem exec_xgcd_of_val {a b : Nat} (hdests : distinctDests rd rx ry = true)
    (ha : s.val ra = a) (hb : s.val rb = b) :
    exec (.xgcd rd rx ry ra rb) s =
      .next (((s.putReg rd ((xgcd a b).1 : Int)).putReg rx (xgcd a b).2.1).putReg ry
        (xgcd a b).2.2).endsOk := by
  have hin : xgcdDomain (s.val ra) (s.val rb) = true := xgcdDomain_iff.mpr (by omega)
  refine (congrArg (settle s) ((if_pos hdests).trans (if_pos hin))).trans ?_
  rw [ha, hb]
  rfl

theorem exec_modinv_of_not_domain (hout : ¬modinvDomain (s.val ra) (s.val rc) = true) :
    exec (.modinv rd ra rc) s = .next (s.endsErr 1#8) :=
  congrArg (settle s) (if_neg hout)

/-- In its domain `MODINV` is decided by the gcd. -/
theorem exec_modinv_of_val {a m : Nat} (ha : s.val ra = a) (hm : s.val rc = m) (hpos : 1 ≤ m) :
    exec (.modinv rd ra rc) s =
      if Nat.gcd a m = 1 then .next (s.putReg rd (inverseMod a m : Int)).endsOk
      else .next (s.endsErr 2#8) := by
  have hin : modinvDomain (s.val ra) (s.val rc) = true := modinvDomain_iff.mpr (by omega)
  refine (congrArg (settle s) (if_pos hin)).trans ?_
  rw [ha, hm, Int.toNat_natCast, Int.toNat_natCast, xgcd_fst, apply_ite (settle s)]
  rfl

end

/-- Settles O17: the decoder and the command share the test of the destinations, and on
non-negative sources the results are those of the recursion. -/
theorem xgcdStoresGcdAndCoefficients : Obligations.XgcdStoresGcdAndCoefficients := by
  intro rd rx ry ra rb
  refine ⟨fun hdx hdy hxy => ?distinct, fun heq => ?equal⟩
  case distinct =>
    have hdests : distinctDests rd rx ry = true := distinctDests_iff.mpr ⟨hdx, hdy, hxy⟩
    refine ⟨decode_wordOf (Laws.EncodeMatches.xgcd rd rx ry ra rb) hdests 0x30 rd ra rb 0 rx ry rfl,
      fun s => ⟨fun a b ha hb => ⟨xgcd_fst a b, xgcd_bezout a b, exec_xgcd_of_val hdests ha hb⟩,
        fun hneg => exec_xgcd_of_not_domain hdests ?_⟩⟩
    rw [xgcdDomain_iff]
    omega
  case equal =>
    have hdests : ¬distinctDests rd rx ry = true := by
      rw [distinctDests_iff]
      tauto
    refine ⟨?_, fun s => exec_xgcd_of_not_distinct hdests⟩
    rw [← decode_encode_of_not_wf (Laws.EncodeMatches.xgcd rd rx ry ra rb) hdests]
    exact congrArg decode (wordOf_eq_packWord 0x30 rd ra rb 0 rx ry)

/-- Settles O18: the first Bezout coefficient, reduced, is the inverse where the gcd is 1. -/
theorem modinvStoresTheInverseOrFails : Obligations.ModinvStoresTheInverseOrFails := by
  intro rd ra rc
  refine ⟨decode_wordOf (Laws.EncodeMatches.modinv rd ra rc) rfl 0x31 rd ra 0 rc 0 0 rfl,
    fun s => ⟨fun a m ha hm hpos hgcd => ?inverse, fun a m ha hm hpos hgcd => ?noInverse,
      fun hout => ?outOfDomain⟩⟩
  case inverse =>
    rw [← inverseMod_cast hpos]
    refine ⟨by exact_mod_cast inverseMod_lt hpos a, by exact_mod_cast mul_inverseMod_modEq hpos hgcd,
      ?_⟩
    rw [exec_modinv_of_val ha hm hpos, if_pos hgcd]
  case noInverse => rw [exec_modinv_of_val ha hm hpos, if_neg hgcd]
  case outOfDomain =>
    refine exec_modinv_of_not_domain ?_
    rw [modinvDomain_iff]
    omega

end Sys2Proof.Machine
end

section
/-! PROOFS. The exponentiation family (43_modexp.md): `MODEXP` (R190), on square-and-multiply
(R191). -/

namespace Sys2Proof.Machine

/-! Square-and-multiply. -/

theorem modExpLoop_lt {b e m : Nat} (hm : 0 < m) : ∀ {i r : Nat}, r < m →
    modExpLoop b e m i r < m := by
  intro i
  induction i with
  | zero => intro r hr; exact hr
  | succ i ih =>
    intro r _
    refine ih ?_
    split
    · exact Nat.mod_lt _ hm
    · exact Nat.mod_lt _ hm

/-- One pass squares, and multiplies by `b` where the bit of the exponent is 1. -/
theorem modExp_pass_modEq (b e m i r : Nat) :
    (if e.testBit i then r * r % m * b % m else r * r % m) ≡
      r ^ 2 * b ^ (e.testBit i).toNat [MOD m] := by
  have hsq : r * r % m ≡ r ^ 2 [MOD m] := by
    rw [pow_two]
    exact Nat.mod_modEq _ _
  cases e.testBit i with
  | false => simpa using hsq
  | true => simpa using (Nat.mod_modEq _ _).trans (hsq.mul_right b)

/-- `i` passes square `r` `i` times and multiply by the power that the low `i` bits of the exponent
stand for. -/
theorem modExpLoop_modEq (b e m : Nat) : ∀ i r : Nat,
    modExpLoop b e m i r ≡ r ^ 2 ^ i * b ^ (e % 2 ^ i) [MOD m] := by
  intro i
  induction i with
  | zero => intro r; simp [modExpLoop, Nat.mod_one, Nat.ModEq.refl]
  | succ i ih =>
    intro r
    calc modExpLoop b e m (i + 1) r
        ≡ (if e.testBit i then r * r % m * b % m else r * r % m) ^ 2 ^ i * b ^ (e % 2 ^ i)
            [MOD m] := ih _
      _ ≡ (r ^ 2 * b ^ (e.testBit i).toNat) ^ 2 ^ i * b ^ (e % 2 ^ i) [MOD m] :=
          ((modExp_pass_modEq b e m i r).pow _).mul_right _
      _ = r ^ 2 ^ (i + 1) * b ^ (e % 2 ^ (i + 1)) := by
          rw [Nat.mod_pow_succ, Nat.toNat_testBit]
          ring

/-- `ModExp` is the power modulo `m` (43_modexp.md R190, R191). The modulus 1 stands apart because
the loop begins with 1, which is reduced only above it. -/
theorem modExp_eq {m : Nat} (hm : 1 ≤ m) (b e : Nat) : modExp b e m = b ^ e % m := by
  rw [modExp]
  split_ifs with h1
  · rw [h1, Nat.mod_one]
  · have hlt : modExpLoop (b % m) e m (bitlen e) 1 < m := modExpLoop_lt hm (by omega)
    have hpow : modExpLoop (b % m) e m (bitlen e) 1 ≡ b ^ e [MOD m] := by
      calc modExpLoop (b % m) e m (bitlen e) 1
          ≡ 1 ^ 2 ^ bitlen e * (b % m) ^ (e % 2 ^ bitlen e) [MOD m] := modExpLoop_modEq _ _ _ _ _
        _ = (b % m) ^ e := by rw [one_pow, one_mul, Nat.mod_eq_of_lt (lt_two_pow_bitlen e)]
        _ ≡ b ^ e [MOD m] := (Nat.mod_modEq b m).pow e
    exact (Nat.mod_eq_of_lt hlt).symm.trans hpow

/-! The command. -/

theorem modexpDomain_iff {b e m : Int} : modexpDomain b e m = true ↔ 0 ≤ b ∧ 0 ≤ e ∧ 1 ≤ m :=
  decide_eq_true_iff

theorem exec_modexp (rd ra rb rc : Reg) (s : State) :
    exec (.modexp rd ra rb rc) s =
      settle s (writeInDomain s (modexpDomain (s.val ra) (s.val rb) (s.val rc)) rd
        (modExp (s.val ra).toNat (s.val rb).toNat (s.val rc).toNat)) := rfl

/-- Settles O16: `MODEXP` is a write in its domain, of the power that square-and-multiply finds. -/
theorem modexpStoresThePowerModulo : Obligations.ModexpStoresThePowerModulo := by
  intro rd ra rb rc
  refine ⟨decode_wordOf (Laws.EncodeMatches.modexp rd ra rb rc) rfl 0x20 rd ra rb rc 0 0 rfl,
    fun s => ⟨fun b e m hb he hm hpos => ?_, fun hout => ?_⟩⟩
  · rw [exec_modexp, hb, he, hm, settle_writeInDomain (modexpDomain_iff.mpr (by omega)),
      Int.toNat_natCast, Int.toNat_natCast, Int.toNat_natCast, modExp_eq hpos]
  · rw [exec_modexp, settle_writeInDomain_error (by rw [modexpDomain_iff]; omega)]

end Sys2Proof.Machine
end

section
/-! PROOFS. The primality family (44_primality.md): the sieve (R202), the decomposition (R203), one
round (R204) and `MRTEST` (R206). -/

namespace Sys2Proof.Machine

/-! The sieve. -/

theorem smallPrimes_prime : ∀ p ∈ smallPrimes, p.Prime := by
  norm_num [smallPrimes]

/-- The sieve leaves undecided what no small prime divides. -/
theorem sieve_eq_none_iff {n : Nat} : sieve n = none ↔ ∀ p ∈ smallPrimes, n % p ≠ 0 := by
  simp [sieve]

/-- Whichever small divisor the sieve finds first, the verdict is the same: a small prime is
divided by no other small prime. -/
theorem sieve_of_dvd {n p : Nat} (hp : p ∈ smallPrimes) (hdvd : n % p = 0) :
    sieve n = some (decide (n ∈ smallPrimes)) := by
  obtain ⟨q, hfind⟩ : ∃ q, smallPrimes.find? (fun q => n % q == 0) = some q :=
    Option.isSome_iff_exists.mp (List.find?_isSome.mpr ⟨p, hp, beq_iff_eq.mpr hdvd⟩)
  have hq : q ∈ smallPrimes := List.mem_of_find?_eq_some hfind
  have hqn : q ∣ n := Nat.dvd_of_mod_eq_zero (by simpa using List.find?_some hfind)
  have hmem : n = q ↔ n ∈ smallPrimes :=
    ⟨fun h => h ▸ hq, fun hn =>
      ((Nat.prime_dvd_prime_iff_eq (smallPrimes_prime q hq) (smallPrimes_prime n hn)).mp hqn).symm⟩
  rw [sieve, hfind, Option.map_some, beq_eq_decide, decide_eq_decide.mpr hmem]

theorem exists_small_dvd_of_lt : ∀ n < 31, 2 ≤ n → ∃ p ∈ smallPrimes, n % p = 0 := by decide

/-- The least integer above 1 with no prime factor up to 29 is 31. -/
theorem le_of_sieve_eq_none {n : Nat} (h2 : 2 ≤ n) (h : sieve n = none) : 31 ≤ n := by
  by_contra hlt
  obtain ⟨p, hp, hdvd⟩ := exists_small_dvd_of_lt n (by omega) h2
  exact sieve_eq_none_iff.mp h p hp hdvd

/-! The test, by what the sieve answers (44_primality.md R207). -/

section
variable {n : Int} (k : Nat) (ws : List Word)

theorem millerRabin_of_lt_two (h : n < 2) : millerRabin n k ws = some (false, ws) := by
  rw [millerRabin, if_pos h]

theorem millerRabin_of_sieve_some {verdict : Bool} (h2 : 2 ≤ n)
    (h : sieve n.toNat = some verdict) : millerRabin n k ws = some (verdict, ws) := by
  rw [millerRabin, if_neg (by omega), h]

theorem millerRabin_of_sieve_none (h2 : 2 ≤ n) (h : sieve n.toNat = none) :
    millerRabin n k ws = mrRounds n.toNat (decompose n.toNat).1 (decompose n.toNat).2 k ws := by
  rw [millerRabin, if_neg (by omega), h]

end

/-- Settles O43: the test draws only past the sieve, and a survivor of the sieve has none of the
small primes as a divisor. -/
theorem sieveDecidesSmallFactors : Obligations.SieveDecidesSmallFactors := by
  refine ⟨fun n k ws h => millerRabin_of_lt_two k ws h, fun n k ws p h2 hp hdvd => ?_,
    fun n h2 h => ?_⟩
  · exact millerRabin_of_sieve_some k ws (by omega) (sieve_of_dvd hp hdvd)
  · have hsurvives := sieve_eq_none_iff.mp h
    have hodd := hsurvives 2 (by decide)
    exact ⟨by omega, hsurvives, le_of_sieve_eq_none h2 h⟩

/-! The decomposition. -/

/-- A pass of the loop moves one factor 2 from `d` into `2^s`. -/
theorem halve_mul (fuel d s : Nat) :
    2 ^ (halve fuel d s).1 * (halve fuel d s).2 = 2 ^ s * d := by
  induction fuel generalizing d s with
  | zero => rfl
  | succ fuel ih =>
    rw [halve]
    split_ifs with heven
    · rw [ih, pow_succ, mul_assoc, Nat.mul_div_cancel' (Nat.dvd_of_mod_eq_zero heven)]
    · rfl

/-- The loop ends at an odd number within as many passes as `d` has bits. -/
theorem halve_odd {fuel d : Nat} (hpos : 0 < d) (hfuel : d < 2 ^ fuel) (s : Nat) :
    (halve fuel d s).2 % 2 = 1 := by
  induction fuel generalizing d s with
  | zero => rw [pow_zero] at hfuel; omega
  | succ fuel ih =>
    rw [halve]
    split_ifs with heven
    · exact ih (by omega) (by rw [pow_succ] at hfuel; omega) _
    · exact Nat.mod_two_ne_zero.mp heven

theorem decompose_mul (n : Nat) : 2 ^ (decompose n).1 * (decompose n).2 = n - 1 := by
  rw [decompose, halve_mul, pow_zero, one_mul]

theorem decompose_odd {n : Nat} (hn : 2 ≤ n) : (decompose n).2 % 2 = 1 :=
  halve_odd (by omega) (lt_two_pow_bitlen _) 0

/-- An odd `n` gives at least one factor 2: without one the odd part would be the even `n - 1`. -/
theorem decompose_fst_pos {n : Nat} (hodd : n % 2 = 1) (hn : 2 ≤ n) : 1 ≤ (decompose n).1 := by
  have hmul := decompose_mul n
  have hd := decompose_odd hn
  by_contra hlt
  have hzero : (decompose n).1 = 0 := by omega
  rw [hzero, pow_zero, one_mul] at hmul
  omega

/-- Settles O44: the loop keeps the product `2^s · d` and stops at an odd `d`. -/
theorem decompositionSplitsOffTwos : Obligations.DecompositionSplitsOffTwos := by
  intro n hodd hn
  have hd := decompose_odd (n := n) (by omega)
  exact ⟨decompose_mul n, hd, decompose_fst_pos hodd (by omega), by omega⟩

/-! One round. -/

/-- The squarings look for `n - 1` among the powers `x^(2^j)`, `1 ≤ j ≤ k`, modulo `n`. -/
theorem squarings_iff {n k x : Nat} :
    squarings n k x = true ↔ ∃ j < k, x ^ 2 ^ (j + 1) % n = n - 1 := by
  induction k generalizing x with
  | zero => simp [squarings]
  | succ k ih =>
    have hpow (j : Nat) : (x * x % n) ^ 2 ^ (j + 1) % n = x ^ 2 ^ (j + 1 + 1) % n := by
      rw [← Nat.pow_mod, ← pow_two, ← pow_mul, ← pow_succ']
    rw [Nat.exists_lt_succ_left, squarings]
    simp only [← hpow, zero_add, pow_one, pow_two, Bool.if_true_left, Bool.or_eq_true,
      decide_eq_true_eq, ih]

/-- A round passes exactly if the base's residues are those of a strong probable prime
(44_primality.md R204). -/
theorem roundPasses_iff {n s : Nat} (hn : 1 ≤ n) (hs : 1 ≤ s) (d a : Nat) :
    roundPasses n s d a = true ↔
      a ^ d % n = 1 ∨ ∃ j < s, a ^ (2 ^ j * d) % n = n - 1 := by
  obtain ⟨k, rfl⟩ := Nat.exists_eq_add_of_le' hs
  have hpow (j : Nat) : (a ^ d % n) ^ 2 ^ (j + 1) % n = a ^ (2 ^ (j + 1) * d) % n := by
    rw [← Nat.pow_mod, ← pow_mul, mul_comm]
  rw [Nat.exists_lt_succ_left, roundPasses, modExp_eq hn]
  simp only [← hpow, squarings_iff, pow_zero, one_mul, Nat.add_sub_cancel, Bool.if_true_left,
    Bool.or_eq_true, decide_eq_true_eq, or_assoc]

section
variable {n : Nat} (s d : Nat) {ws : List Word}

theorem mrRound_of_randRange_none (h : randRange 2 (n - 2) ws = none) :
    mrRound n s d ws = none := by
  rw [mrRound, h]

theorem mrRound_of_randRange_some {a : Nat} {rest : List Word}
    (h : randRange 2 (n - 2) ws = some (a, rest)) :
    mrRound n s d ws = some (roundPasses n s d a, rest) := by
  rw [mrRound, h]

end

/-- Settles O45: the draw decides whether the round ends, the drawn base whether it passes. -/
theorem roundPassesForStrongProbablePrimes : Obligations.RoundPassesForStrongProbablePrimes :=
  fun n s d _ hn hs =>
  ⟨mrRound_of_randRange_none s d, fun a _ ha =>
    ⟨roundPasses n s d a, mrRound_of_randRange_some s d ha, roundPasses_iff (by omega) hs d a⟩⟩

/-! The command. -/

/-- Where the words ready bring the test to a verdict, `MRTEST` stores it and takes the words. -/
theorem exec_mrtest_of_verdict {ra : Reg} {s : State} {verdict : Bool} {rest : List Word}
    (h : millerRabin (s.val ra) s.mrk.toNat s.rng = some (verdict, rest)) :
    exec (.mrtest ra) s =
      .next { s with prime := verdict, rng := rest, busy := false, done := true } := by
  rw [exec, execMrtest, State.testDraw, h]
  rfl

/-- Settles O19: the two values of `PRIME` without a draw are verdicts that leave every word. -/
theorem mrtestStoresTheVerdict : Obligations.MrtestStoresTheVerdict := by
  intro ra
  refine ⟨decode_wordOf (Laws.EncodeMatches.mrtest ra) rfl 0x40 0 ra 0 0 0 0 rfl,
    fun s => ⟨fun _ _ h => exec_mrtest_of_verdict h, fun hlt => ?_, fun h2 hsurvives hk => ?_⟩⟩
  · exact exec_mrtest_of_verdict (millerRabin_of_lt_two _ _ hlt)
  · refine exec_mrtest_of_verdict ((millerRabin_of_sieve_none _ _ h2 hsurvives).trans ?_)
    rw [hk]
    rfl

end Sys2Proof.Machine
end

section
/-! PROOFS. The prime generator family (45_primegen.md): the search for a candidate and `GENPRIME`
(R221). -/

namespace Sys2Proof.Machine

/-! The search. -/

/-- A candidate drawn and tested has taken a word or more. -/
theorem candidate_tested_shorter {bits k v : Nat} {n : Int} {verdict : Bool}
    {ws rest rest' : List Word} (hbits : 0 < bits) (hdraw : randBits bits ws = some (v, rest))
    (htest : millerRabin n k rest = some (verdict, rest')) : rest'.length < ws.length :=
  (millerRabin_suffix htest).length_le.trans_lt (randBits_shorter hbits hdraw)

/-- The search does not see its bound, as long as there are fewer words than passes. -/
theorem genPrimeLoop_eq_of_length_lt {bits k m n : Nat} {ws : List Word} (hbits : 0 < bits)
    (hm : ws.length < m) (hn : ws.length < n) :
    genPrimeLoop bits k m ws = genPrimeLoop bits k n ws := by
  induction m generalizing n ws with
  | zero => omega
  | succ m ih =>
    cases n with
    | zero => omega
    | succ n =>
      rw [genPrimeLoop, genPrimeLoop]
      split
      · rfl
      · next drawn rest hdraw =>
        split
        · rfl
        · rfl
        · next rest' htest =>
          have hshort := candidate_tested_shorter hbits hdraw htest
          exact ih (by omega) (by omega)

section
variable {bits k v : Nat} {ws rest rest' : List Word}

theorem genPrime_of_randBits_none (hdraw : randBits bits ws = none) :
    genPrime bits k ws = none := by
  simp only [genPrime, genPrimeLoop, hdraw]

theorem genPrime_of_test_none (hdraw : randBits bits ws = some (v, rest))
    (htest : millerRabin (candidate bits v : Nat) k rest = none) :
    genPrime bits k ws = none := by
  simp only [genPrime, genPrimeLoop, hdraw, htest]

theorem genPrime_of_accepted (hdraw : randBits bits ws = some (v, rest))
    (htest : millerRabin (candidate bits v : Nat) k rest = some (true, rest')) :
    genPrime bits k ws = some (candidate bits v, rest') := by
  simp only [genPrime, genPrimeLoop, hdraw, htest]

/-- After a rejection the search begins anew on the words that are left. -/
theorem genPrime_of_rejected (hbits : 0 < bits) (hdraw : randBits bits ws = some (v, rest))
    (htest : millerRabin (candidate bits v : Nat) k rest = some (false, rest')) :
    genPrime bits k ws = genPrime bits k rest' := by
  simp only [genPrime, genPrimeLoop, hdraw, htest]
  exact genPrimeLoop_eq_of_length_lt hbits (candidate_tested_shorter hbits hdraw htest)
    (Nat.lt_succ_self _)

end

/-! The command. -/

theorem genprimeDomain_iff {bits width : Nat} :
    genprimeDomain bits width = true ↔ 2 ≤ bits ∧ bits ≤ width := decide_eq_true_iff

section
variable {rd : Reg} {s : State}

theorem exec_genprime_of_not_domain (hout : ¬genprimeDomain s.pbits.toNat s.width = true) :
    exec (.genprime rd) s = .next (s.endsErr 1#8) :=
  congrArg (settle s) (if_neg hout)

/-- Where the words ready bring the search to a candidate, `GENPRIME` stores it and takes the
words. -/
theorem exec_genprime_of_found {c : Nat} {rest : List Word}
    (hin : genprimeDomain s.pbits.toNat s.width = true)
    (hfound : genPrime s.pbits.toNat s.mrk.toNat s.rng = some (c, rest)) :
    exec (.genprime rd) s =
      .next ({ s with prime := true, rng := rest }.putReg rd (c : Int)).endsOk := by
  rw [exec, execGenprime, if_pos hin, State.primeDraw, hfound]
  rfl

end

/-- Settles O20: the completion is decided by the parameter check and then by the search, and the
search goes by the outcome of its first candidate. -/
theorem genprimeStoresAnAcceptedCandidate : Obligations.GenprimeStoresAnAcceptedCandidate := by
  refine ⟨fun rd => ⟨decode_wordOf (Laws.EncodeMatches.genprime rd) rfl 0x41 rd 0 0 0 0 0 rfl,
    fun s => ⟨fun c rest hlo hhi hfound => ?found, fun hout => ?outOfRange⟩⟩,
    fun bits k ws hbits => ?search⟩
  case found => exact exec_genprime_of_found (genprimeDomain_iff.mpr ⟨hlo, hhi⟩) hfound
  case outOfRange =>
    refine exec_genprime_of_not_domain ?_
    rw [genprimeDomain_iff, State.width_eq]
    omega
  case search =>
    split
    · next hdraw => exact genPrime_of_randBits_none hdraw
    · next v rest hdraw =>
      split
      · next htest => exact genPrime_of_test_none hdraw htest
      · next rest' htest => exact genPrime_of_accepted hdraw htest
      · next rest' htest => exact genPrime_of_rejected (by omega) hdraw htest

end Sys2Proof.Machine
end

section
/-! PROOFS. The exception family (60_exceptions.md): an error is precise (R272), and the causes of
`NoInverseExists` (R274) and `Overflow` (R276). Both rest on one inversion: what a completion that
leaves `ERR = 1` has raised, and why. -/

namespace Sys2Proof.Machine

/-! What a verdict raises. -/

/-- The error of a verdict, if it is one, satisfies `P`, and what it commits keeps `ERR` as it is
in `s`. -/
def Verdict.RaisesOnly (P : ErrKind → Prop) (s : State) : Verdict → Prop
  | .commit u => u.err = s.err
  | .error e => P e
  | .wait => True

section
variable {P : ErrKind → Prop} {s : State}

theorem Verdict.RaisesOnly.ite {c : Prop} [Decidable c] {v w : Verdict}
    (hv : c → v.RaisesOnly P s) (hw : ¬c → w.RaisesOnly P s) :
    (if c then v else w).RaisesOnly P s := by
  split
  · next hc => exact hv hc
  · next hc => exact hw hc

/-- A checked write raises `Overflow` alone, on a value that is too wide (40_addsub.md R131). -/
theorem writeChecked_raisesOnly {v : Int} (rd : Reg)
    (h : 2 ^ (32 * s.limbs) ≤ v.natAbs → P .overflow) : (writeChecked s rd v).RaisesOnly P s :=
  .ite (fun _ => s.wr_err rd v) fun hwide => h (by rwa [s.fits_iff, not_lt] at hwide)

/-- A write in a domain raises `InvalidParameter` alone. -/
theorem writeInDomain_raisesOnly {domain : Bool} (rd : Reg) (v : Int) (h : P .invalidParameter) :
    (writeInDomain s domain rd v).RaisesOnly P s :=
  .ite (fun _ => s.wr_err rd v) fun _ => h

/-- A completion that sets `ERR` is the five assignments of 60_exceptions.md R272: a commit and a
wait leave `ERR` as it was. -/
theorem settle_raises {v : Verdict} {t : State} (hv : v.RaisesOnly P s) (hs : s.err = false)
    (h : settle s v = .next t) (ht : t.err = true) : ∃ e, P e ∧ t = s.raise e := by
  obtain ⟨u, rfl, rfl⟩ | ⟨e, rfl, rfl⟩ | ⟨-, rfl⟩ := settle_next h
  · have hkept : u.err = s.err := hv
    rw [State.succeed_err, hkept, hs] at ht
    cases ht
  · exact ⟨e, hv, rfl⟩
  · rw [hs] at ht
    cases ht

end

/-! What a command raises. -/

/-- What a command and its state are where it raises `NoInverseExists` or `Overflow`
(60_exceptions.md R274, R276). The other two kinds are left open. -/
def ErrKind.CauseIn (i : Instr) (s : State) : ErrKind → Prop
  | .noInverseExists => ∃ rd ra rc, i = .modinv rd ra rc ∧ 0 ≤ s.val ra ∧ 1 ≤ s.val rc ∧
      Int.gcd (s.val ra) (s.val rc) ≠ 1
  | .overflow => ∃ rd ra rb,
      (i = .add rd ra rb ∧ 2 ^ (32 * s.limbs) ≤ (s.val ra + s.val rb).natAbs) ∨
      (i = .sub rd ra rb ∧ 2 ^ (32 * s.limbs) ≤ (s.val ra - s.val rb).natAbs) ∨
      (i = .mul rd ra rb ∧ 2 ^ (32 * s.limbs) ≤ (s.val ra * s.val rb).natAbs)
  | .invalidParameter => True
  | .illegalCommand => True

/-- On non-negative values the recursion's gcd is the integers' gcd. -/
theorem xgcd_fst_toNat {a b : Int} (ha : 0 ≤ a) (hb : 0 ≤ b) :
    (xgcd a.toNat b.toNat).1 = Int.gcd a b := by
  rw [xgcd_fst, ← Int.gcd_natCast_natCast, Int.toNat_of_nonneg ha, Int.toNat_of_nonneg hb]

theorem ErrKind.code_eq_two_iff {e : ErrKind} : e.code = 2#8 ↔ e = .noInverseExists := by
  cases e <;> decide

theorem ErrKind.code_eq_four_iff {e : ErrKind} : e.code = 4#8 ↔ e = .overflow := by
  cases e <;> decide

/-- The verdict of every command raises an error for its cause only. -/
theorem exec_verdict_raisesOnly (i : Instr) (s : State) :
    ∃ v, exec i s = settle s v ∧ v.RaisesOnly (ErrKind.CauseIn i s) s := by
  cases i with
  | nop => exact ⟨.commit s, rfl, rfl⟩
  | cmp ra rb => exact ⟨.commit (s.compareFlags (s.val ra) (s.val rb)), rfl, rfl⟩
  | add rd ra rb =>
    exact ⟨_, rfl, writeChecked_raisesOnly rd fun hwide => ⟨rd, ra, rb, .inl ⟨rfl, hwide⟩⟩⟩
  | sub rd ra rb =>
    exact ⟨_, rfl, writeChecked_raisesOnly rd fun hwide => ⟨rd, ra, rb, .inr (.inl ⟨rfl, hwide⟩)⟩⟩
  | mul rd ra rb =>
    exact ⟨_, rfl, writeChecked_raisesOnly rd fun hwide => ⟨rd, ra, rb, .inr (.inr ⟨rfl, hwide⟩)⟩⟩
  | bred rd ra rb rc =>
    exact ⟨_, exec_bred rd ra rb rc s, writeInDomain_raisesOnly rd _ trivial⟩
  | montmul rd ra rb rc =>
    exact ⟨_, exec_montmul rd ra rb rc s, writeInDomain_raisesOnly rd _ trivial⟩
  | montin rd ra rc => exact ⟨_, exec_montin rd ra rc s, writeInDomain_raisesOnly rd _ trivial⟩
  | montout rd ra rc => exact ⟨_, exec_montout rd ra rc s, writeInDomain_raisesOnly rd _ trivial⟩
  | modexp rd ra rb rc =>
    exact ⟨_, exec_modexp rd ra rb rc s, writeInDomain_raisesOnly rd _ trivial⟩
  | xgcd rd rx ry ra rb =>
    exact ⟨_, rfl, .ite (fun _ => .ite (fun _ => rfl) fun _ => trivial) fun _ => trivial⟩
  | modinv rd ra rc =>
    refine ⟨_, rfl, .ite (fun hin => .ite (fun _ => rfl) fun hgcd => ?_) fun _ => trivial⟩
    obtain ⟨ha, hm⟩ := modinvDomain_iff.mp hin
    exact ⟨rd, ra, rc, rfl, ha, hm, xgcd_fst_toNat ha (by omega : 0 ≤ s.val rc) ▸ hgcd⟩
  | mrtest ra =>
    refine ⟨_, rfl, ?_⟩
    split
    · trivial
    · rfl
  | genprime rd =>
    refine ⟨_, rfl, .ite (fun _ => ?_) fun _ => trivial⟩
    split
    · trivial
    · rfl

/-- A command that sets `ERR` has raised one error, for its cause. -/
theorem exec_raises {i : Instr} {s t : State} (hs : s.err = false) (h : exec i s = .next t)
    (ht : t.err = true) : ∃ e : ErrKind, e.CauseIn i s ∧ t = s.raise e := by
  obtain ⟨v, hexec, hv⟩ := exec_verdict_raisesOnly i s
  exact settle_raises hv hs (hexec ▸ h) ht

/-- Settles O21: the state after an error is `raise` of one kind, and its code is one of four. -/
theorem errorsArePrecise : Obligations.ErrorsArePrecise := by
  intro i s t hs h ht
  obtain ⟨e, -, rfl⟩ := exec_raises hs h ht
  exact ⟨e.code, e.code_range, rfl⟩

/-- Settles O22: the code names the kind, and the kind has its cause. -/
theorem inverseAndOverflowErrorsHaveOneCause :
    Obligations.InverseAndOverflowErrorsHaveOneCause := by
  intro i s t hs h ht
  obtain ⟨e, hcause, rfl⟩ := exec_raises hs h ht
  refine ⟨fun hcode => ?_, fun hcode => ?_⟩
  · obtain rfl := ErrKind.code_eq_two_iff.mp hcode
    exact hcause
  · obtain rfl := ErrKind.code_eq_four_iff.mp hcode
    exact hcause

end Sys2Proof.Machine
end

section
/-! PROOFS. The encoding round trips (30_encoding.md R101, R104, R105, R120): the decoder and the
encoder undo each other, and the decoder accepts exactly the legal words. -/

namespace Sys2Proof.Machine

/-! From a command to its word. -/

/-- The family `EncodeMatches`, over the whole map. -/
theorem encodeMatches : ∀ i : Instr, Laws.EncodeMatches.Statement i
  | .nop => Laws.EncodeMatches.nop
  | .add rd ra rb => Laws.EncodeMatches.add rd ra rb
  | .sub rd ra rb => Laws.EncodeMatches.sub rd ra rb
  | .cmp ra rb => Laws.EncodeMatches.cmp ra rb
  | .mul rd ra rb => Laws.EncodeMatches.mul rd ra rb
  | .bred rd ra rb rc => Laws.EncodeMatches.bred rd ra rb rc
  | .montmul rd ra rb rc => Laws.EncodeMatches.montmul rd ra rb rc
  | .montin rd ra rc => Laws.EncodeMatches.montin rd ra rc
  | .montout rd ra rc => Laws.EncodeMatches.montout rd ra rc
  | .modexp rd ra rb rc => Laws.EncodeMatches.modexp rd ra rb rc
  | .xgcd rd rx ry ra rb => Laws.EncodeMatches.xgcd rd rx ry ra rb
  | .modinv rd ra rc => Laws.EncodeMatches.modinv rd ra rc
  | .mrtest ra => Laws.EncodeMatches.mrtest ra
  | .genprime rd => Laws.EncodeMatches.genprime rd

/-- Settles O2: the word of a command finds the command's row and passes its mask. -/
theorem decodeOfEncodeIsIdentity : Obligations.DecodeOfEncodeIsIdentity := fun i hwf =>
  decode_encode_of_matches (encodeMatches i) hwf

/-- Settles O1: each word is the packed word of its command. -/
theorem writtenOutWordsDecode : Obligations.WrittenOutWordsDecode :=
  ⟨decodeOfEncodeIsIdentity (.add 3 1 2) rfl, decodeOfEncodeIsIdentity (.modexp 4 0 1 2) rfl,
    decodeOfEncodeIsIdentity (.xgcd 5 6 7 0 1) rfl, decodeOfEncodeIsIdentity (.mrtest 9) rfl,
    decodeOfEncodeIsIdentity (.genprime 10) rfl⟩

/-! From a word to its command. -/

/-- A word is its seven fields (30_encoding.md R101). -/
theorem packWord_fields (w : Word) :
    packWord (opOf w) (rdOf w) (raOf w) (rbOf w) (rcOf w) (rxOf w) (ryOf w) = w := by
  apply BitVec.eq_of_toNat_eq
  rw [packWord_toNat, opOf_toNat, rdOf_val, rxOf_val, ryOf_val, raOf, rbOf, rcOf, field_val,
    field_val, field_val]
  omega

theorem matchWord_toNat (op : BitVec 8) : (matchWord op).toNat = 2 ^ 24 * op.toNat :=
  (BitVec.toNat_append op 0#24).trans (by simp [Nat.shiftLeft_eq, Nat.mul_comm])

/-- A field that the format's mask fixes is 0 in a word that passes the mask
(30_encoding.md R102). -/
theorem unusedField_eq_zero {w : Word} {f : Format} (hmask : w &&& f.mask = matchWord (opOf w))
    {lo : Nat} (hlo : lo ≤ 20) (hfixed : f.mask.extractLsb' lo 4 = BitVec.allOnes 4) :
    (w.extractLsb' lo 4).toFin = 0 := by
  have hmatch : (matchWord (opOf w)).extractLsb' lo 4 = 0#4 := by
    apply BitVec.eq_of_toNat_eq
    have hzero : (matchWord (opOf w)).toNat = 2 ^ lo * (2 ^ (24 - lo) * (opOf w).toNat) := by
      rw [← mul_assoc, ← pow_add, Nat.add_sub_cancel' (by omega), matchWord_toNat]
    rw [BitVec.extractLsb'_toNat, hzero, Nat.shiftRight_eq_div_pow,
      Nat.mul_div_cancel_left _ (by positivity), show 24 - lo = 4 + (20 - lo) by omega, pow_add,
      mul_assoc, Nat.mul_mod_right]
    rfl
  have hfield := congrArg (BitVec.extractLsb' lo 4) hmask
  rw [BitVec.extractLsb'_and, hfixed, BitVec.and_allOnes, hmatch] at hfield
  rw [hfield]
  rfl

/-- A word that passes its row's mask is the word of the command that the row builds. -/
theorem encode_build {w : Word} {row : OpRow} (hrow : opRow (opOf w) = some row)
    (hmask : w &&& row.format.mask = matchWord (opOf w)) : encode (row.build w) = w := by
  have opcode {n : Nat} (hn : (opOf w).toNat = n) : opOf w = BitVec.ofNat 8 n := by
    rw [← hn, BitVec.ofNat_toNat, BitVec.setWidth_eq]
  unfold opRow at hrow
  split at hrow
  case h_15 => cases hrow
  all_goals
    next hn =>
      cases hrow
      conv_rhs => rw [← packWord_fields w, opcode hn]
      simp (disch := decide) only [encode, rdOf, raOf, rbOf, rcOf, rxOf, ryOf,
        unusedField_eq_zero hmask]

/-- Settles O3: the checks of the decoder say that the word is the packed word of its fields. -/
theorem encodeOfDecodeIsIdentity : Obligations.EncodeOfDecodeIsIdentity := by
  intro w i h
  obtain ⟨row, hrow, hmask, rfl, hwf⟩ := decode_eq_ok_iff.mp h
  exact ⟨encode_build hrow hmask, hwf⟩

/-! From the opcode table to the decoder. -/

/-- Every row of the table is in the decoder's map, with the table's mask, and a table row fixes the
opcode. -/
theorem opcodeTable_rows : ∀ r ∈ opcodeTable,
    (opRow (opOf r.2.1)).map (fun row => row.format.mask) = some r.2.2 ∧
      matchWord (opOf r.2.1) = r.2.1 ∧ opOf r.2.2 = BitVec.allOnes 8 := by decide

/-- Only the check of the destinations can fail past the mask (30_encoding.md R104). -/
theorem build_wf {w : Word} {row : OpRow} (hrow : opRow (opOf w) = some row)
    (hdests : opOf w = 0x30#8 → distinctDests (rdOf w) (rxOf w) (ryOf w) = true) :
    (row.build w).wf = true := by
  unfold opRow at hrow
  split at hrow
  case h_11 hn =>
    cases hrow
    exact hdests (BitVec.eq_of_toNat_eq hn)
  case h_15 => cases hrow
  all_goals
    cases hrow
    rfl

theorem decode_of_legalWord {w : Word} (h : legalWord w) : ∃ i, decode w = .ok i := by
  obtain ⟨⟨r, hr, hmatch⟩, hdests⟩ := h
  obtain ⟨hrow, hop, hfix⟩ := opcodeTable_rows r hr
  have hopw : opOf w = opOf r.2.1 := by
    rw [← hmatch, opOf, opOf, BitVec.extractLsb'_and]
    exact (BitVec.and_allOnes (x := opOf w)).symm.trans (congrArg (opOf w &&& ·) hfix.symm)
  rw [← hopw] at hrow hop
  obtain ⟨row, hrow, hmask⟩ := Option.map_eq_some_iff.mp hrow
  refine ⟨row.build w, decode_eq_ok_iff.mpr ⟨row, hrow, ?_, rfl, build_wf hrow fun h30 => ?_⟩⟩
  · rw [hmask, hmatch, hop]
  · have hdistinct := hdests (by rw [← opOf_toNat, h30]; rfl)
    simpa only [distinctDests_iff, ne_eq, Fin.ext_iff, rdOf_val, rxOf_val, ryOf_val] using hdistinct

/-- Settles O4: the decoder's map and the opcode table have the same rows, and both ask for
distinct destinations. -/
theorem decoderAcceptsExactlyLegalWords : Obligations.DecoderAcceptsExactlyLegalWords := fun _ =>
  ⟨fun ⟨_, h⟩ => legalWord_of_decode h, decode_of_legalWord⟩

end Sys2Proof.Machine
end

section
/-! PROOFS. The draws (20_memory.md R80 to R82): `RandBits`, `RandRange`, and what later words
change: nothing. -/

namespace Sys2Proof.Machine

/-! `RandBits`. -/

theorem wordsValue_take (k : Nat) (ws : List Word) (h : k ≤ ws.length) :
    wordsValue (ws.take k) = ∑ i ∈ Finset.range k, (ws.getD i 0#32).toNat * 2 ^ (32 * i) := by
  induction k with
  | zero => rfl
  | succ k ih =>
    have hk : k < ws.length := by omega
    rw [List.take_succ_eq_append_getElem hk, wordsValue_append, ih hk.le, Finset.sum_range_succ,
      List.length_take_of_le hk.le, List.getD_eq_getElem _ _ hk, wordsValue, wordsValue, mul_zero,
      add_zero, Nat.mul_comm (2 ^ _)]

/-- Settles O40: the value of the words taken is their weighted sum. -/
theorem randBitsReadsLittleEndianWords : Obligations.RandBitsReadsLittleEndianWords := by
  refine fun n ws => ⟨fun h => if_pos h, fun h => ?_⟩
  rw [← wordsValue_take _ ws h]
  exact randBits_isSome h

/-! `RandRange`. -/

theorem randRange_single (lo : Nat) (ws : List Word) : randRange lo lo ws = some (lo, ws) := by
  rw [randRange, if_pos (by omega)]

/-- The rejection loop does not see its bound, as long as there are fewer words than passes. -/
theorem randRangeLoop_eq_of_length_lt {lo span nb m n : Nat} {ws : List Word} (hnb : 0 < nb)
    (hm : ws.length < m) (hn : ws.length < n) :
    randRangeLoop lo span nb m ws = randRangeLoop lo span nb n ws := by
  induction m generalizing n ws with
  | zero => omega
  | succ m ih =>
    cases n with
    | zero => omega
    | succ n =>
      rw [randRangeLoop, randRangeLoop]
      split
      · rfl
      · next v rest hdraw =>
        have hshort := randBits_shorter hnb hdraw
        rw [ih (n := n) (by omega) (by omega)]

section
variable {lo hi : Nat} {ws : List Word}

theorem randRange_of_lt (h : lo < hi) :
    randRange lo hi ws =
      randRangeLoop lo (hi - lo + 1) (bitlen (hi - lo)) (ws.length + 1) ws := by
  rw [randRange, if_neg (by omega)]

theorem randRange_of_randBits_none (h : lo < hi) (hdraw : randBits (bitlen (hi - lo)) ws = none) :
    randRange lo hi ws = none := by
  simp only [randRange_of_lt h, randRangeLoop, hdraw]

/-- A draw below the span is the result; after another the loop begins anew on the words left. -/
theorem randRange_of_randBits_some (h : lo < hi) {v : Nat} {rest : List Word}
    (hdraw : randBits (bitlen (hi - lo)) ws = some (v, rest)) :
    randRange lo hi ws = if v < hi - lo + 1 then some (lo + v, rest) else randRange lo hi rest := by
  have hnb : 0 < bitlen (hi - lo) := bitlen_pos (by omega)
  have hshort := randBits_shorter hnb hdraw
  rw [randRange_of_lt h, randRange_of_lt h, randRangeLoop, hdraw,
    randRangeLoop_eq_of_length_lt (n := ws.length) hnb (Nat.lt_succ_self _) hshort]

end

/-- More than half of the bit patterns drawn are below the span. -/
theorem two_pow_bitlen_lt_two_mul {v : Nat} (h : v ≠ 0) : 2 ^ bitlen v < 2 * (v + 1) := by
  have hle := two_pow_le_of_bitlen h
  have hpos := bitlen_pos h
  rw [show bitlen v = bitlen v - 1 + 1 by omega, pow_succ]
  omega

theorem randRangeLoop_range {lo span nb fuel v : Nat} {ws rest : List Word}
    (h : randRangeLoop lo span nb fuel ws = some (v, rest)) : lo ≤ v ∧ v < lo + span := by
  induction fuel generalizing ws with
  | zero => cases h
  | succ fuel ih =>
    unfold randRangeLoop at h
    split at h
    · cases h
    · split_ifs at h with hlt
      · cases h
        omega
      · exact ih h

theorem randRange_range {lo hi v : Nat} {ws rest : List Word} (hle : lo ≤ hi)
    (h : randRange lo hi ws = some (v, rest)) : lo ≤ v ∧ v ≤ hi := by
  obtain rfl | hlt := hle.eq_or_lt
  · rw [randRange_single] at h
    cases h
    exact ⟨le_rfl, le_rfl⟩
  · rw [randRange_of_lt hlt] at h
    have := randRangeLoop_range h
    omega

/-- Settles O41: the loop is unrolled once, and its end is in the span. -/
theorem randRangeRejectsUntilInRange : Obligations.RandRangeRejectsUntilInRange := by
  refine fun lo hi ws => ⟨randRange_single lo ws, fun hlt =>
    ⟨two_pow_bitlen_lt_two_mul (by omega), ?_⟩, fun hle _ _ h => randRange_range hle h⟩
  split
  · next hdraw => exact randRange_of_randBits_none hlt hdraw
  · next v rest hdraw => exact randRange_of_randBits_some hlt hdraw

/-! Later words. -/

section
variable {n : Nat} {ws rest : List Word} (more : List Word)

theorem randBits_append {v : Nat} (h : randBits n ws = some (v, rest)) :
    randBits n (ws ++ more) = some (v, rest ++ more) := by
  obtain ⟨hl, rfl, rfl⟩ := randBits_some h
  rw [randBits_isSome (by rw [List.length_append]; omega), List.take_append_of_le_length hl,
    List.drop_append_of_le_length hl]

/-- With more words behind, and as many passes or more, the loop ends in the same pass. -/
theorem randRangeLoop_append {lo span nb fuel fuel' v : Nat} (hle : fuel ≤ fuel')
    (h : randRangeLoop lo span nb fuel ws = some (v, rest)) :
    randRangeLoop lo span nb fuel' (ws ++ more) = some (v, rest ++ more) := by
  induction fuel generalizing fuel' ws with
  | zero => cases h
  | succ fuel ih =>
    obtain ⟨fuel', rfl⟩ := Nat.exists_eq_add_of_le' (Nat.one_le_of_lt hle)
    unfold randRangeLoop at h
    split at h
    · cases h
    · next u rest' hdraw =>
      simp only [randRangeLoop, randBits_append more hdraw]
      split_ifs at h ⊢ with hlt
      · cases h
        rfl
      · exact ih (by omega) h

theorem randRange_append {lo hi v : Nat} (h : randRange lo hi ws = some (v, rest)) :
    randRange lo hi (ws ++ more) = some (v, rest ++ more) := by
  unfold randRange at h ⊢
  split_ifs at h ⊢
  · cases h
    rfl
  · exact randRangeLoop_append more (by simp) h

theorem mrRound_append {s d : Nat} {b : Bool} (h : mrRound n s d ws = some (b, rest)) :
    mrRound n s d (ws ++ more) = some (b, rest ++ more) := by
  unfold mrRound at h
  split at h
  · cases h
  · next a rest' hdraw =>
    cases h
    exact mrRound_of_randRange_some s d (randRange_append more hdraw)

theorem mrRounds_append {s d k : Nat} {b : Bool} (h : mrRounds n s d k ws = some (b, rest)) :
    mrRounds n s d k (ws ++ more) = some (b, rest ++ more) := by
  induction k generalizing ws with
  | zero =>
    cases h
    rfl
  | succ k ih =>
    unfold mrRounds at h
    split at h
    · cases h
    · next hround =>
      cases h
      simp only [mrRounds, mrRound_append more hround]
    · next hround =>
      simp only [mrRounds, mrRound_append more hround]
      exact ih h

theorem millerRabin_append {n : Int} {k : Nat} {b : Bool}
    (h : millerRabin n k ws = some (b, rest)) :
    millerRabin n k (ws ++ more) = some (b, rest ++ more) := by
  unfold millerRabin at h ⊢
  split_ifs at h ⊢ with h2
  · cases h
    rfl
  · split at h
    · cases h
      rfl
    · exact mrRounds_append more h

/-- With more words behind, and as many candidates or more, the search ends with the same one. -/
theorem genPrimeLoop_append {bits k fuel fuel' c : Nat} (hle : fuel ≤ fuel')
    (h : genPrimeLoop bits k fuel ws = some (c, rest)) :
    genPrimeLoop bits k fuel' (ws ++ more) = some (c, rest ++ more) := by
  induction fuel generalizing fuel' ws with
  | zero => cases h
  | succ fuel ih =>
    obtain ⟨fuel', rfl⟩ := Nat.exists_eq_add_of_le' (Nat.one_le_of_lt hle)
    unfold genPrimeLoop at h
    split at h
    · cases h
    · next drawn rest1 hdraw =>
      split at h
      · cases h
      · next htest =>
        cases h
        simp only [genPrimeLoop, randBits_append more hdraw, millerRabin_append more htest]
      · next rest2 htest =>
        simp only [genPrimeLoop, randBits_append more hdraw, millerRabin_append more htest]
        exact ih (by omega) h

end

/-- Settles O42: every draw within is the same with more words behind. -/
theorem drawsIgnoreLaterWords : Obligations.DrawsIgnoreLaterWords :=
  ⟨fun _ _ _ more _ _ h => millerRabin_append more h,
    fun _ _ _ _ more _ _ h => genPrimeLoop_append more (by simp) h⟩

end Sys2Proof.Machine
end

section
/-! PROOFS. The primality kernel and the prime generator, beyond one round (44_primality.md R207 to
R209; 45_primegen.md R222, R224). -/

namespace Sys2Proof.Machine

/-! The rounds of a test (44_primality.md R207, R209). -/

theorem millerRabin_of_survivor {n : Nat} (k : Nat) (ws : List Word) (h2 : 2 ≤ n)
    (h : sieve n = none) :
    millerRabin (n : Int) k ws = mrRounds n (decompose n).1 (decompose n).2 k ws :=
  millerRabin_of_sieve_none k ws (by omega) h

theorem millerRabin_of_decided {n : Nat} {verdict : Bool} (k : Nat) (ws : List Word) (h2 : 2 ≤ n)
    (h : sieve n = some verdict) : millerRabin (n : Int) k ws = some (verdict, ws) :=
  millerRabin_of_sieve_some k ws (by omega) h

theorem randRangeLoop_words {lo span nb fuel v : Nat} {ws rest : List Word}
    (h : randRangeLoop lo span nb fuel ws = some (v, rest)) :
    ∃ passes : Nat, 1 ≤ passes ∧ ws.length = rest.length + passes * wordsFor nb := by
  induction fuel generalizing ws with
  | zero => cases h
  | succ fuel ih =>
    unfold randRangeLoop at h
    split at h
    · cases h
    · next u rest' hdraw =>
      obtain ⟨hlen, -, rfl⟩ := randBits_some hdraw
      split_ifs at h
      · cases h
        exact ⟨1, le_rfl, by rw [List.length_drop]; omega⟩
      · obtain ⟨passes, -, hwords⟩ := ih h
        refine ⟨passes + 1, by omega, ?_⟩
        rw [List.length_drop] at hwords
        rw [Nat.add_mul]
        omega

/-- A round takes one draw or more of `bitlen(n - 4)` bits each. -/
theorem mrRound_words {n s d : Nat} {b : Bool} {ws rest : List Word} (hn : 5 ≤ n)
    (h : mrRound n s d ws = some (b, rest)) :
    ∃ passes : Nat, 1 ≤ passes ∧ ws.length = rest.length + passes * wordsFor (bitlen (n - 4)) := by
  unfold mrRound at h
  split at h
  · cases h
  · next a rest' hdraw =>
    cases h
    rw [randRange, if_neg (by omega), Nat.sub_sub] at hdraw
    exact randRangeLoop_words hdraw

theorem mrRounds_words {n s d k : Nat} {b : Bool} {ws rest : List Word} (hn : 5 ≤ n)
    (h : mrRounds n s d k ws = some (b, rest)) :
    ∃ passes : Nat, ws.length = rest.length + passes * wordsFor (bitlen (n - 4)) ∧
      (b = true → k ≤ passes) ∧ (b = false → 1 ≤ passes) := by
  induction k generalizing ws with
  | zero =>
    cases h
    exact ⟨0, by omega, by simp⟩
  | succ k ih =>
    unfold mrRounds at h
    split at h
    · cases h
    · next rest' hround =>
      cases h
      obtain ⟨passes, hpos, hwords⟩ := mrRound_words hn hround
      exact ⟨passes, hwords, by simp, fun _ => hpos⟩
    · next rest' hround =>
      obtain ⟨first, hpos, hwords⟩ := mrRound_words hn hround
      obtain ⟨passes, hwords', htrue, -⟩ := ih h
      refine ⟨first + passes, by rw [Nat.add_mul]; omega, fun hb => ?_, fun _ => by omega⟩
      have := htrue hb
      omega

/-- Settles O46: past the sieve a test is its rounds, each of whole draws. -/
theorem testRunsItsRoundsOnWholeDraws : Obligations.TestRunsItsRoundsOnWholeDraws := by
  refine ⟨fun n k ws h2 h => ⟨millerRabin_of_survivor 0 ws h2 h, ?round⟩,
    fun n k ws rest b h2 htest => ⟨fun hsieve => ?decided, fun hsieve => ?survivor⟩⟩
  case round =>
    rw [millerRabin_of_survivor _ ws h2 h, mrRounds]
    obtain _ | ⟨_ | _, rest⟩ := mrRound n (decompose n).1 (decompose n).2 ws
    · rfl
    · rfl
    · exact (millerRabin_of_survivor k rest h2 h).symm
  case decided =>
    obtain ⟨verdict, hverdict⟩ := Option.ne_none_iff_exists'.mp hsieve
    rw [millerRabin_of_decided k ws (by omega) hverdict] at htest
    cases htest
    rfl
  case survivor =>
    have hbig := le_of_sieve_eq_none h2 hsieve
    rw [millerRabin_of_survivor k ws h2 hsieve] at htest
    exact mrRounds_words (by omega) htest

/-! What the sieve decides. -/

theorem sieve_eq_some {n : Nat} {verdict : Bool} (h : sieve n = some verdict) :
    verdict = decide (n ∈ smallPrimes) := by
  obtain ⟨p, hp, hdvd⟩ : ∃ p ∈ smallPrimes, n % p = 0 := by
    by_contra hnone
    push Not at hnone
    rw [sieve_eq_none_iff.mpr hnone] at h
    cases h
  rw [sieve_of_dvd hp hdvd] at h
  exact (Option.some.inj h).symm

theorem sieve_of_prime {n : Nat} {verdict : Bool} (hn : n.Prime) (h : sieve n = some verdict) :
    verdict = true := by
  by_contra hfalse
  have hsmall : n ∉ smallPrimes := by
    intro hmem
    rw [sieve_eq_some h, decide_eq_true hmem] at hfalse
    exact hfalse rfl
  have hnone : sieve n = none := sieve_eq_none_iff.mpr fun p hp hdvd => by
    have hpn := (Nat.prime_dvd_prime_iff_eq (smallPrimes_prime p hp) hn).mp
      (Nat.dvd_of_mod_eq_zero hdvd)
    exact hsmall (hpn ▸ hp)
  rw [hnone] at h
  cases h

/-- A survivor below `31^2` is a prime: a proper factor of it would have a small prime factor. -/
theorem prime_of_sieve_eq_none {n : Nat} (h2 : 2 ≤ n) (h : sieve n = none) (hlt : n < 961) :
    n.Prime := by
  by_contra hn
  have hsq : n.minFac ^ 2 ≤ n := Nat.minFac_sq_le_self (by omega) hn
  have hfac : n.minFac < 31 := by nlinarith
  have htwo : 2 ≤ n.minFac := (Nat.minFac_prime (by omega)).two_le
  obtain ⟨p, hp, hdvd⟩ := exists_small_dvd_of_lt n.minFac hfac htwo
  exact sieve_eq_none_iff.mp h p hp
    (Nat.mod_eq_zero_of_dvd ((Nat.dvd_of_mod_eq_zero hdvd).trans n.minFac_dvd))

/-! No false negatives (44_primality.md R208). -/

section
variable {n : Nat}

theorem natCast_eq_one_iff (hn : 2 ≤ n) (x : Nat) : (x : ZMod n) = 1 ↔ x % n = 1 := by
  have h := ZMod.natCast_eq_natCast_iff' x 1 n
  rwa [Nat.cast_one, Nat.mod_eq_of_lt (show 1 < n by omega)] at h

theorem natCast_eq_neg_one_iff (hn : 1 ≤ n) (x : Nat) : (x : ZMod n) = -1 ↔ x % n = n - 1 := by
  have h := ZMod.natCast_eq_natCast_iff' x (n - 1) n
  rwa [Nat.cast_sub hn, Nat.cast_one, ZMod.natCast_self, zero_sub,
    Nat.mod_eq_of_lt (show n - 1 < n by omega)] at h

/-- Modulo a prime only 1 and -1 square to 1, so a power that squares up to 1 is 1 or passes
through -1. -/
theorem one_or_neg_one_of_pow_two_pow {F : Type} [CommRing F] [NoZeroDivisors F] {x : F} {s : Nat}
    (h : x ^ 2 ^ s = 1) : x = 1 ∨ ∃ j < s, x ^ 2 ^ j = -1 := by
  induction s with
  | zero => exact .inl (by simpa using h)
  | succ s ih =>
    rw [pow_succ, pow_mul, pow_two, mul_self_eq_one_iff] at h
    obtain h | h := h
    · obtain h | ⟨j, hj, h⟩ := ih h
      · exact .inl h
      · exact .inr ⟨j, by omega, h⟩
    · exact .inr ⟨s, by omega, h⟩

/-- To a base prime to it, every prime is a strong probable prime. -/
theorem roundPasses_of_prime (hn : n.Prime) (hodd : n % 2 = 1) {a : Nat} (hpos : 0 < a)
    (hlt : a < n) : roundPasses n (decompose n).1 (decompose n).2 a = true := by
  have h2 := hn.two_le
  have := Fact.mk hn
  rw [roundPasses_iff (by omega) (decompose_fst_pos hodd h2)]
  have hbase : (a : ZMod n) ≠ 0 := by
    rw [Ne, ZMod.natCast_eq_zero_iff]
    exact Nat.not_dvd_of_pos_of_lt hpos hlt
  have hfermat : ((a : ZMod n) ^ (decompose n).2) ^ 2 ^ (decompose n).1 = 1 := by
    rw [← pow_mul, Nat.mul_comm, decompose_mul, ZMod.pow_card_sub_one_eq_one hbase]
  obtain h | ⟨j, hj, h⟩ := one_or_neg_one_of_pow_two_pow hfermat
  · exact .inl ((natCast_eq_one_iff h2 _).mp (by exact_mod_cast h))
  · refine .inr ⟨j, hj, (natCast_eq_neg_one_iff (by omega) _).mp ?_⟩
    rw [← pow_mul, Nat.mul_comm] at h
    exact_mod_cast h

theorem mrRounds_of_prime (hn : n.Prime) (h5 : 5 ≤ n) (hodd : n % 2 = 1) {k : Nat} {b : Bool}
    {ws rest : List Word}
    (h : mrRounds n (decompose n).1 (decompose n).2 k ws = some (b, rest)) : b = true := by
  have hround {b : Bool} {ws rest : List Word}
      (h : mrRound n (decompose n).1 (decompose n).2 ws = some (b, rest)) : b = true := by
    unfold mrRound at h
    split at h
    · cases h
    · next a rest' hdraw =>
      cases h
      have hrange := randRange_range (by omega) hdraw
      exact roundPasses_of_prime hn hodd (by omega) (by omega)
  induction k generalizing ws with
  | zero =>
    cases h
    rfl
  | succ k ih =>
    unfold mrRounds at h
    split at h
    · cases h
    · next hfail => cases hround hfail
    · exact ih h

end

theorem oracleAnswers_true_of_prime {n : Nat} (hn : n.Prime) : OracleAnswers n true := by
  intro k ws rest verdict h
  have h2 := hn.two_le
  cases hsieve : sieve n with
  | some decided =>
    rw [millerRabin_of_decided k ws (by omega) hsieve] at h
    cases h
    exact sieve_of_prime hn hsieve
  | none =>
    rw [millerRabin_of_survivor k ws h2 hsieve] at h
    have hbig := le_of_sieve_eq_none h2 hsieve
    have hodd := sieve_eq_none_iff.mp hsieve 2 (by decide)
    exact mrRounds_of_prime hn (by omega) (by omega) h

/-- A multiple of a small prime that is no small prime itself is declared composite. -/
theorem oracleAnswers_false_of_dvd {n p : Nat} (h2 : 2 ≤ n) (hp : p ∈ smallPrimes)
    (hdvd : n % p = 0) (hlarge : n ∉ smallPrimes) : OracleAnswers n false := by
  intro k ws rest verdict h
  rw [millerRabin_of_decided k ws h2 (sieve_of_dvd hp hdvd), decide_eq_false hlarge] at h
  cases h
  rfl

/-- Settles O47: a prime is a strong probable prime to every base drawn, and the three composites
have the small factors 2, 3 and 11. -/
theorem primesAlwaysPassTheTest : Obligations.PrimesAlwaysPassTheTest := by
  refine ⟨fun n hn => oracleAnswers_true_of_prime hn, fun n hn => ?_⟩
  simp only [List.mem_cons, List.not_mem_nil, or_false] at hn
  obtain rfl | rfl | rfl := hn
  · exact oracleAnswers_false_of_dvd (p := 2) (by decide) (by decide) (by decide) (by decide)
  · exact oracleAnswers_false_of_dvd (p := 3) (by decide) (by decide) (by decide) (by decide)
  · exact oracleAnswers_false_of_dvd (p := 11) (by decide) (by decide) (by decide) (by decide)

/-! What the generator gives (45_primegen.md R222). -/

theorem bitlen_eq_of_bounds {v n : Nat} (hn : 0 < n) (hlo : 2 ^ (n - 1) ≤ v) (hhi : v < 2 ^ n) :
    bitlen v = n := by
  have hv : v ≠ 0 := by
    have : 0 < 2 ^ (n - 1) := by positivity
    omega
  have hpos := bitlen_pos hv
  have h1 := (Nat.pow_lt_pow_iff_right (by decide)).mp (hlo.trans_lt (lt_two_pow_bitlen v))
  have h2 := (Nat.pow_lt_pow_iff_right (by decide)).mp ((two_pow_le_of_bitlen hv).trans_lt hhi)
  omega

theorem candidate_odd (bits drawn : Nat) : candidate bits drawn % 2 = 1 := by
  have hbit : (candidate bits drawn).testBit 0 = true := by simp [candidate]
  simpa [Nat.testBit_zero] using hbit

theorem candidate_ge (bits drawn : Nat) : 2 ^ (bits - 1) ≤ candidate bits drawn :=
  Nat.ge_two_pow_of_testBit (by simp [candidate, Nat.testBit_two_pow_self])

theorem candidate_lt {bits drawn : Nat} (hbits : 1 ≤ bits) (h : drawn < 2 ^ bits) :
    candidate bits drawn < 2 ^ bits :=
  Nat.or_lt_two_pow (Nat.or_lt_two_pow h (Nat.pow_lt_pow_right (by decide) (by omega)))
    (Nat.one_lt_two_pow (by omega))

/-- The candidate is odd and the power is even, so the bound is strict. -/
theorem candidate_gt {bits : Nat} (hbits : 2 ≤ bits) (drawn : Nat) :
    2 ^ (bits - 1) + 1 ≤ candidate bits drawn := by
  have hge := candidate_ge bits drawn
  have hodd := candidate_odd bits drawn
  have heven : 2 ^ (bits - 1) % 2 = 0 := by
    rw [show bits - 1 = bits - 2 + 1 by omega, pow_succ, Nat.mul_mod_left]
  omega

/-- The search ends with a candidate that the oracle accepted on an end of the words. -/
theorem genPrimeLoop_found {bits k fuel c : Nat} {ws rest : List Word}
    (h : genPrimeLoop bits k fuel ws = some (c, rest)) :
    ∃ drawn < 2 ^ bits, c = candidate bits drawn ∧
      ∃ ws', ws' <:+ ws ∧ millerRabin (c : Int) k ws' = some (true, rest) := by
  induction fuel generalizing ws with
  | zero => cases h
  | succ fuel ih =>
    unfold genPrimeLoop at h
    split at h
    · cases h
    · next drawn rest1 hdraw =>
      split at h
      · cases h
      · next htest =>
        cases h
        exact ⟨drawn, randBits_lt hdraw, rfl, rest1, randBits_suffix hdraw, htest⟩
      · next rest2 htest =>
        obtain ⟨drawn', hlt, hc, ws', hsuffix, haccept⟩ := ih h
        exact ⟨drawn', hlt, hc, ws',
          hsuffix.trans ((millerRabin_suffix htest).trans (randBits_suffix hdraw)), haccept⟩

theorem prime_of_accepted {c k : Nat} {ws rest : List Word} (h2 : 2 ≤ c) (hlt : c < 961)
    (h : millerRabin (c : Int) k ws = some (true, rest)) : c.Prime := by
  cases hsieve : sieve c with
  | some verdict =>
    rw [millerRabin_of_decided k ws (by omega) hsieve] at h
    cases h
    exact smallPrimes_prime c (of_decide_eq_true (sieve_eq_some hsieve).symm)
  | none => exact prime_of_sieve_eq_none h2 hsieve hlt

theorem genPrime_bounds {bits k c : Nat} {ws rest : List Word} (hbits : 2 ≤ bits)
    (h : genPrime bits k ws = some (c, rest)) : 2 ^ (bits - 1) + 1 ≤ c ∧ c < 2 ^ bits := by
  obtain ⟨drawn, hlt, rfl, -⟩ := genPrimeLoop_found h
  exact ⟨candidate_gt hbits drawn, candidate_lt (by omega) hlt⟩

/-- Settles O48: the form is the candidate's, and below `31^2` the oracle's sieve is exact. -/
theorem generatedPrimesHaveTheirForm : Obligations.GeneratedPrimesHaveTheirForm := by
  intro bits k c ws rest hbits h
  obtain ⟨hlo, hhi⟩ := genPrime_bounds hbits h
  obtain ⟨drawn, -, hc, ws', hsuffix, haccept⟩ := genPrimeLoop_found h
  have hpos : 0 < 2 ^ (bits - 1) := by positivity
  exact ⟨hc ▸ candidate_odd bits drawn, bitlen_eq_of_bounds (by omega) (by omega) hhi, hlo, hhi,
    ⟨ws', hsuffix, haccept⟩, fun hlt => prime_of_accepted (by omega) hlt haccept⟩

/-! The wait (20_memory.md R84, 45_primegen.md R224). -/

theorem exec_mrtest_of_starved {ra : Reg} {s : State}
    (h : millerRabin (s.val ra) s.mrk.toNat s.rng = none) : exec (.mrtest ra) s = .next s := by
  rw [exec, execMrtest, State.testDraw, h]
  rfl

theorem exec_genprime_of_starved {rd : Reg} {s : State}
    (hin : genprimeDomain s.pbits.toNat s.width = true)
    (h : genPrime s.pbits.toNat s.mrk.toNat s.rng = none) : exec (.genprime rd) s = .next s := by
  rw [exec, execGenprime, if_pos hin, State.primeDraw, h]
  rfl

/-- Settles O25: the verdict of a drawing command without its words is to wait. -/
theorem drawingCommandsWaitForWords : Obligations.DrawingCommandsWaitForWords :=
  ⟨fun _ _ h => exec_mrtest_of_starved h,
    fun _ _ hlo hhi h => exec_genprime_of_starved (genprimeDomain_iff.mpr ⟨hlo, hhi⟩) h⟩

/-- Eight zero bits give the candidate `129 = 3 · 43`, which the sieve rejects without a draw. -/
theorem genPrime_zero_words (k m : Nat) : genPrime 8 k (List.replicate m 0#32) = none := by
  induction m with
  | zero => rfl
  | succ m ih =>
    have hdraw : randBits 8 (List.replicate (m + 1) 0#32) = some (0, List.replicate m 0#32) := rfl
    have htest : millerRabin (candidate 8 0 : Nat) k (List.replicate m 0#32) =
        some (false, List.replicate m 0#32) :=
      millerRabin_of_decided k _ (by decide) (by decide)
    rw [genPrime_of_rejected (by decide) hdraw htest, ih]

/-- Settles O49: every candidate on zero words is rejected, so the search never ends. -/
theorem zeroWordsNeverGenerate : Obligations.ZeroWordsNeverGenerate := by
  intro rd s m hbits hlimbs hrng
  have height : s.pbits.toNat = 8 := by rw [hbits]; rfl
  refine exec_genprime_of_starved (genprimeDomain_iff.mpr ?_) ?_
  · rw [State.width_eq]
    omega
  · rw [height, hrng]
    exact genPrime_zero_words _ m

end Sys2Proof.Machine
end

section
/-! PROOFS. The Euclidean algorithm once more (42_xgcd.md): the bounds of the Bezout coefficients
(R172) and the iterative form (R173). -/

namespace Sys2Proof.Machine

/-! The bounds. -/

theorem xgcd_of_dvd {a b : Nat} (hb : 0 < b) (hdvd : b ∣ a) : xgcd a b = (b, 0, 1) := by
  rw [xgcd_of_ne_zero hb.ne', Nat.mod_eq_zero_of_dvd hdvd, xgcd_zero_right]
  simp

/-- The remainder's gcd with the divisor is the pair's own. -/
theorem gcd_divisor_remainder (a b : Nat) : Nat.gcd b (a % b) = Nat.gcd a b := by
  rw [Nat.gcd_comm b, ← Nat.gcd_rec, Nat.gcd_comm]

theorem natAbs_sub_mul_le (x y : Int) (q : Nat) :
    (x - (q : Int) * y).natAbs ≤ x.natAbs + q * y.natAbs := by
  calc (x - (q : Int) * y).natAbs ≤ x.natAbs + ((q : Int) * y).natAbs := Int.natAbs_sub_le _ _
    _ = x.natAbs + q * y.natAbs := by rw [Int.natAbs_mul, Int.natAbs_natCast]

/-- Where the divisor does not divide, twice the gcd times a coefficient stays within the other
operand: one step of the recursion adds up the bounds as the division adds up `a`. -/
theorem xgcd_coefficients_le {b : Nat} (hb : 0 < b) (a : Nat) (hdvd : ¬b ∣ a) :
    2 * Nat.gcd a b * (xgcd a b).2.1.natAbs ≤ b ∧ 2 * Nat.gcd a b * (xgcd a b).2.2.natAbs ≤ a := by
  induction b using Nat.strong_induction_on generalizing a with
  | _ b ih =>
    have hlt : a % b < b := Nat.mod_lt a hb
    have hpos : 0 < a % b := Nat.pos_of_ne_zero fun h => hdvd (Nat.dvd_of_mod_eq_zero h)
    have hdiv : b * (a / b) + a % b = a := Nat.div_add_mod a b
    rw [xgcd_of_ne_zero hb.ne', ← gcd_divisor_remainder]
    by_cases hlast : a % b ∣ b
    · have htwice : 2 * (a % b) ≤ b := by
        obtain ⟨c, hc⟩ := hlast
        have hc2 : 2 ≤ c := by
          by_contra hlt2
          obtain rfl | rfl : c = 0 ∨ c = 1 := by omega
          all_goals omega
        calc 2 * (a % b) ≤ c * (a % b) := Nat.mul_le_mul_right _ hc2
          _ = b := by rw [Nat.mul_comm, ← hc]
      rw [xgcd_of_dvd hpos hlast, Nat.gcd_eq_right hlast]
      simp only [Int.natAbs_one, mul_one, zero_sub, Int.natAbs_neg, Int.natAbs_natCast]
      refine ⟨htwice, ?_⟩
      calc 2 * (a % b) * (a / b) ≤ b * (a / b) := Nat.mul_le_mul_right _ htwice
        _ ≤ a := Nat.mul_div_le a b
    · obtain ⟨hx, hy⟩ := ih (a % b) hlt hpos b hlast
      refine ⟨hy, ?_⟩
      calc 2 * Nat.gcd b (a % b) * ((xgcd b (a % b)).2.1 -
            ((a / b : Nat) : Int) * (xgcd b (a % b)).2.2).natAbs
          ≤ 2 * Nat.gcd b (a % b) * ((xgcd b (a % b)).2.1.natAbs +
              a / b * (xgcd b (a % b)).2.2.natAbs) :=
            Nat.mul_le_mul_left _ (natAbs_sub_mul_le _ _ _)
        _ = 2 * Nat.gcd b (a % b) * (xgcd b (a % b)).2.1.natAbs +
              2 * Nat.gcd b (a % b) * (xgcd b (a % b)).2.2.natAbs * (a / b) := by ring
        _ ≤ a % b + b * (a / b) := Nat.add_le_add hx (Nat.mul_le_mul_right _ hy)
        _ = a := by omega

/-- For `b ≥ 1` each coefficient is at most 1 or at most the other operand over twice the gcd. -/
theorem xgcd_coefficients_le_max {a b : Nat} (hb : 0 < b) :
    (xgcd a b).2.1.natAbs ≤ max 1 (b / (2 * Nat.gcd a b)) ∧
      (xgcd a b).2.2.natAbs ≤ max 1 (a / (2 * Nat.gcd a b)) := by
  by_cases hdvd : b ∣ a
  · rw [xgcd_of_dvd hb hdvd]
    exact ⟨by simp, by simp⟩
  · obtain ⟨hx, hy⟩ := xgcd_coefficients_le hb a hdvd
    have hgcd : 0 < 2 * Nat.gcd a b := Nat.mul_pos (by decide) (Nat.gcd_pos_of_pos_right a hb)
    refine ⟨le_max_of_le_right ?_, le_max_of_le_right ?_⟩
    · rwa [Nat.le_div_iff_mul_le hgcd, Nat.mul_comm]
    · rwa [Nat.le_div_iff_mul_le hgcd, Nat.mul_comm]

theorem xgcd_coefficients_fit (a b : Nat) :
    (xgcd a b).2.1.natAbs ≤ max 1 b ∧ (xgcd a b).2.2.natAbs ≤ max 1 a := by
  obtain rfl | hb := Nat.eq_zero_or_pos b
  · rw [xgcd_zero_right]
    exact ⟨by simp, by simp⟩
  · obtain ⟨hx, hy⟩ := xgcd_coefficients_le_max (a := a) hb
    exact ⟨hx.trans (max_le_max_left 1 (Nat.div_le_self _ _)),
      hy.trans (max_le_max_left 1 (Nat.div_le_self _ _))⟩

/-- Settles O51: the wide bounds follow from the narrow ones, and the narrow ones are kept by each
step of the recursion. -/
theorem bezoutCoefficientsAreBounded : Obligations.BezoutCoefficientsAreBounded := fun a b =>
  ⟨xgcd_coefficients_fit a b, fun _ hb => xgcd_coefficients_le_max hb⟩

/-! The iterative form. -/

/-- The loop's four coefficients carry the linear map that the recursion unwinds at its end. -/
theorem xgcdLoop_eq (fuel r0 r1 : Nat) (s0 s1 t0 t1 : Int) :
    xgcdLoop fuel r0 r1 s0 s1 t0 t1 =
      ((xgcdFuel fuel r0 r1).1,
        s0 * (xgcdFuel fuel r0 r1).2.1 + s1 * (xgcdFuel fuel r0 r1).2.2,
        t0 * (xgcdFuel fuel r0 r1).2.1 + t1 * (xgcdFuel fuel r0 r1).2.2) := by
  induction fuel generalizing r0 r1 s0 s1 t0 t1 with
  | zero => simp [xgcdLoop, xgcdFuel]
  | succ fuel ih =>
    rw [xgcdLoop, xgcdFuel]
    split_ifs with h
    · simp
    · have hrem : r0 - r0 / r1 * r1 = r0 % r1 := by
        rw [Nat.mul_comm, ← Nat.mod_eq_sub_mul_div]
      simp only [ih, hrem, Prod.mk.injEq, true_and]
      constructor <;> ring

/-- Settles O52: the loop starts at the identity map. -/
theorem iterativeEuclidAgrees : Obligations.IterativeEuclidAgrees := by
  intro a b
  rw [xgcdIter, xgcdLoop_eq]
  simp [xgcd]

end Sys2Proof.Machine
end

section
/-! PROOFS. What all commands have in common (10_state.md R24, R45; 60_exceptions.md R272): the
frame of a completion, its two ends, and the bound of every register it writes. -/

namespace Sys2Proof.Machine

/-! What a verdict comes to. -/

/-- What a verdict commits, if it commits, satisfies `P`, and it waits only if `W`. -/
def Verdict.Ends (W : Prop) (P : State → Prop) : Verdict → Prop
  | .commit u => P u
  | .error _ => True
  | .wait => W

section
variable {W : Prop} {P : State → Prop} {s : State}

theorem Verdict.Ends.ite {c : Prop} [Decidable c] {v w : Verdict} (hv : c → v.Ends W P)
    (hw : ¬c → w.Ends W P) : (if c then v else w).Ends W P := by
  split
  · next hc => exact hv hc
  · next hc => exact hw hc

theorem writeChecked_ends {rd : Reg} {v : Int}
    (h : v.natAbs < 2 ^ (32 * s.limbs) → P (s.wr rd v)) : (writeChecked s rd v).Ends W P :=
  .ite (fun hfits => h ((s.fits_iff v).mp hfits)) fun _ => trivial

theorem writeInDomain_ends {domain : Bool} {rd : Reg} {v : Int}
    (h : domain = true → P (s.wr rd v)) : (writeInDomain s domain rd v).Ends W P :=
  .ite h fun _ => trivial

theorem settle_ends {v : Verdict} {t : State} (hv : v.Ends W P) (h : settle s v = .next t) :
    (∃ u, P u ∧ t = u.succeed) ∨ (∃ e, t = s.raise e) ∨ (W ∧ t = s) := by
  obtain ⟨u, rfl, rfl⟩ | ⟨e, rfl, rfl⟩ | ⟨rfl, rfl⟩ := settle_next h
  · exact .inl ⟨u, hv, rfl⟩
  · exact .inr (.inl ⟨e, rfl⟩)
  · exact .inr (.inr ⟨hv, rfl⟩)

end

/-! The frame. -/

/-- What a command can commit: registers; the flags of the one that compares; registers, `PRIME`
and the queue for those that draw. -/
def CommitsFor (i : Instr) (s u : State) : Prop :=
  (∃ regs, u = { s with regs := regs }) ∨
    (i.compares = true ∧ ∃ a b, u = s.compareFlags a b) ∨
    (i.draws = true ∧ ∃ regs rest verdict,
      u = { s with regs := regs, rng := rest, prime := verdict })

theorem CommitsFor.wr (i : Instr) (s : State) (rd : Reg) (v : Int) : CommitsFor i s (s.wr rd v) :=
  .inl ⟨_, rfl⟩

theorem exec_verdict_commits (i : Instr) (s : State) :
    ∃ v, exec i s = settle s v ∧ v.Ends (i.draws = true) (CommitsFor i s) := by
  cases i with
  | nop => exact ⟨.commit s, rfl, .inl ⟨s.regs, rfl⟩⟩
  | cmp ra rb =>
    exact ⟨.commit (s.compareFlags (s.val ra) (s.val rb)), rfl, .inr (.inl ⟨rfl, _, _, rfl⟩)⟩
  | add rd ra rb => exact ⟨_, rfl, writeChecked_ends fun _ => .wr _ _ _ _⟩
  | sub rd ra rb => exact ⟨_, rfl, writeChecked_ends fun _ => .wr _ _ _ _⟩
  | mul rd ra rb => exact ⟨_, rfl, writeChecked_ends fun _ => .wr _ _ _ _⟩
  | bred rd ra rb rc => exact ⟨_, exec_bred rd ra rb rc s, writeInDomain_ends fun _ => .wr _ _ _ _⟩
  | montmul rd ra rb rc =>
    exact ⟨_, exec_montmul rd ra rb rc s, writeInDomain_ends fun _ => .wr _ _ _ _⟩
  | montin rd ra rc => exact ⟨_, exec_montin rd ra rc s, writeInDomain_ends fun _ => .wr _ _ _ _⟩
  | montout rd ra rc => exact ⟨_, exec_montout rd ra rc s, writeInDomain_ends fun _ => .wr _ _ _ _⟩
  | modexp rd ra rb rc =>
    exact ⟨_, exec_modexp rd ra rb rc s, writeInDomain_ends fun _ => .wr _ _ _ _⟩
  | xgcd rd rx ry ra rb =>
    exact ⟨_, rfl, .ite (fun _ => .ite (fun _ => .inl ⟨_, rfl⟩) fun _ => trivial) fun _ => trivial⟩
  | modinv rd ra rc =>
    exact ⟨_, rfl, .ite (fun _ => .ite (fun _ => .wr _ _ _ _) fun _ => trivial) fun _ => trivial⟩
  | mrtest ra =>
    refine ⟨_, rfl, ?_⟩
    split
    · rfl
    · exact .inr (.inr ⟨rfl, s.regs, _, _, rfl⟩)
  | genprime rd =>
    refine ⟨_, rfl, .ite (fun _ => ?_) fun _ => trivial⟩
    split
    · rfl
    · exact .inr (.inr ⟨rfl, _, _, _, rfl⟩)

/-- A command commits, raises, or waits. -/
theorem exec_cases {i : Instr} {s t : State} (h : exec i s = .next t) :
    (∃ u, CommitsFor i s u ∧ t = u.succeed) ∨ (∃ e, t = s.raise e) ∨ (i.draws = true ∧ t = s) := by
  obtain ⟨v, hexec, hv⟩ := exec_verdict_commits i s
  exact settle_ends hv (hexec ▸ h)

/-- Settles O23: the registers are those of `exec_writesOnly`, and the other fields are read off
what a command can commit. -/
theorem commandsKeepEverythingElse : Obligations.CommandsKeepEverythingElse := by
  intro i s t h
  have hregs : ∀ r : Reg, r ∉ i.dests → t.regs[r] = s.regs[r] := fun r hr =>
    (exec_writesOnly h r).resolve_right fun hwritten => hr hwritten.1
  obtain ⟨u, hu, rfl⟩ | ⟨e, rfl⟩ | ⟨-, rfl⟩ := exec_cases h
  · obtain ⟨regs, rfl⟩ | ⟨hcmp, a, b, rfl⟩ | ⟨hdraw, regs, rest, verdict, rfl⟩ := hu
    · exact ⟨by simp [State.SameSettings], hregs, by simp⟩
    · exact ⟨by simp [State.SameSettings], hregs, by simp [hcmp]⟩
    · exact ⟨by simp [State.SameSettings], hregs, by simp [hdraw]⟩
  · exact ⟨by simp [State.SameSettings], hregs, by simp⟩
  · exact ⟨by simp [State.SameSettings], hregs, by simp⟩

/-- Settles O24: a commit and an error end the command, and only a drawing command waits. -/
theorem commandsEndOrWait : Obligations.CommandsEndOrWait := by
  intro i s t h
  obtain ⟨u, -, rfl⟩ | ⟨e, rfl⟩ | hwait := exec_cases h
  · exact .inl ⟨rfl, rfl⟩
  · exact .inl ⟨rfl, rfl⟩
  · exact .inr hwait

/-! The bound of the registers (10_state.md R21). -/

section
variable {s : State}

theorem State.RegsBounded.wr (h : s.RegsBounded) {v : Int} (hv : v.natAbs < 2 ^ (32 * s.limbs))
    (rd : Reg) : (s.wr rd v).RegsBounded := by
  intro r
  by_cases hr : r = rd
  · subst hr
    rw [← State.natAbs_val, State.val_wr_same]
    exact hv
  · rw [State.regs_wr_other s v hr]
    exact h r

theorem State.RegsBounded.toNat_val_lt (h : s.RegsBounded) (r : Reg) :
    (s.val r).toNat < 2 ^ (32 * s.limbs) := by
  have hmag := h r
  rw [← s.natAbs_val] at hmag
  omega

/-- A result below a register's value fits. -/
theorem State.RegsBounded.fits_of_lt (h : s.RegsBounded) {r : Reg} {n : Nat}
    (hn : n < (s.val r).toNat) : (n : Int).natAbs < 2 ^ (32 * s.limbs) :=
  (Int.natAbs_natCast n).trans_lt (hn.trans (h.toNat_val_lt r))

/-- The gcd of two registers and its coefficients fit (42_xgcd.md R172). -/
theorem State.RegsBounded.xgcd_fits (h : s.RegsBounded) (hlimbs : 1 ≤ s.limbs) (ra rb : Reg) :
    ((xgcd (s.val ra).toNat (s.val rb).toNat).1 : Int).natAbs < 2 ^ (32 * s.limbs) ∧
      (xgcd (s.val ra).toNat (s.val rb).toNat).2.1.natAbs < 2 ^ (32 * s.limbs) ∧
      (xgcd (s.val ra).toNat (s.val rb).toNat).2.2.natAbs < 2 ^ (32 * s.limbs) := by
  have ha := h.toNat_val_lt ra
  have hb := h.toNat_val_lt rb
  have hone : 1 < 2 ^ (32 * s.limbs) := Nat.one_lt_two_pow (by omega)
  obtain ⟨hx, hy⟩ := xgcd_coefficients_fit (s.val ra).toNat (s.val rb).toNat
  refine ⟨?_, hx.trans_lt (max_lt hone hb), hy.trans_lt (max_lt hone ha)⟩
  rw [Int.natAbs_natCast, xgcd_fst]
  obtain hzero | hpos := Nat.eq_zero_or_pos (s.val ra).toNat
  · rwa [hzero, Nat.gcd_zero_left]
  · exact (Nat.gcd_le_left _ hpos).trans_lt ha

end

/-- The candidate of a legal length fits the width (45_primegen.md R222). -/
theorem State.primeDraw_fits {s : State} (hin : genprimeDomain s.pbits.toNat s.width = true)
    {c : Nat} {rest : List Word} (h : s.primeDraw = some (c, rest)) :
    (c : Int).natAbs < 2 ^ (32 * s.limbs) := by
  obtain ⟨hlo, hhi⟩ := genprimeDomain_iff.mp hin
  rw [State.width_eq] at hhi
  rw [Int.natAbs_natCast]
  exact (genPrime_bounds hlo h).2.trans_le (Nat.pow_le_pow_right (by decide) hhi)

/-- What a command commits keeps the bound: the results are checked, or below the modulus, or
bounded by the operands. -/
theorem exec_verdict_bounded (i : Instr) {s : State} (hlimbs : 1 ≤ s.limbs) (h : s.RegsBounded) :
    ∃ v, exec i s = settle s v ∧ v.Ends True State.RegsBounded := by
  cases i with
  | nop => exact ⟨.commit s, rfl, h⟩
  | cmp ra rb => exact ⟨.commit (s.compareFlags (s.val ra) (s.val rb)), rfl, h⟩
  | add rd ra rb => exact ⟨_, rfl, writeChecked_ends fun hfits => h.wr hfits rd⟩
  | sub rd ra rb => exact ⟨_, rfl, writeChecked_ends fun hfits => h.wr hfits rd⟩
  | mul rd ra rb => exact ⟨_, rfl, writeChecked_ends fun hfits => h.wr hfits rd⟩
  | bred rd ra rb rc =>
    refine ⟨_, exec_bred rd ra rb rc s, writeInDomain_ends fun hin => h.wr ?_ rd⟩
    obtain ⟨-, -, hn⟩ := bredDomain_iff.mp hin
    have hnonneg := Int.emod_nonneg (s.val ra * 2 ^ (32 * s.limbs) + s.val rb)
      (show s.val rc ≠ 0 by omega)
    have hlt := Int.emod_lt_of_pos (s.val ra * 2 ^ (32 * s.limbs) + s.val rb)
      (show 0 < s.val rc by omega)
    have hbound := h.toNat_val_lt rc
    omega
  | montmul rd ra rb rc =>
    refine ⟨_, exec_montmul rd ra rb rc s, writeInDomain_ends fun hin => h.wr ?_ rd⟩
    obtain ⟨⟨hn, -⟩, -⟩ := montmulDomain_iff.mp hin
    exact h.fits_of_lt (Nat.mod_lt _ (by omega))
  | montin rd ra rc =>
    refine ⟨_, exec_montin rd ra rc s, writeInDomain_ends fun hin => h.wr ?_ rd⟩
    obtain ⟨⟨hn, -⟩, -⟩ := montinDomain_iff.mp hin
    exact h.fits_of_lt (Nat.mod_lt _ (by omega))
  | montout rd ra rc =>
    refine ⟨_, exec_montout rd ra rc s, writeInDomain_ends fun hin => h.wr ?_ rd⟩
    obtain ⟨⟨hn, -⟩, -⟩ := montoutDomain_iff.mp hin
    exact h.fits_of_lt (Nat.mod_lt _ (by omega))
  | modexp rd ra rb rc =>
    refine ⟨_, exec_modexp rd ra rb rc s, writeInDomain_ends fun hin => h.wr ?_ rd⟩
    obtain ⟨-, -, hm⟩ := modexpDomain_iff.mp hin
    rw [modExp_eq (by omega)]
    exact h.fits_of_lt (Nat.mod_lt _ (by omega))
  | xgcd rd rx ry ra rb =>
    obtain ⟨hg, hx, hy⟩ := h.xgcd_fits hlimbs ra rb
    exact ⟨_, rfl, .ite (fun _ => .ite (fun _ => ((h.wr hg rd).wr hx rx).wr hy ry) fun _ => trivial)
      fun _ => trivial⟩
  | modinv rd ra rc =>
    refine ⟨_, rfl, .ite (fun hin => .ite (fun _ => h.wr ?_ rd) fun _ => trivial) fun _ => trivial⟩
    obtain ⟨-, hm⟩ := modinvDomain_iff.mp hin
    exact h.fits_of_lt (inverseMod_lt (by omega) _)
  | mrtest ra =>
    refine ⟨_, rfl, ?_⟩
    split
    · trivial
    · exact h
  | genprime rd =>
    refine ⟨_, rfl, .ite (fun hin => ?_) fun _ => trivial⟩
    split
    · trivial
    · next c rest hfound =>
      have hrest : { s with rng := rest }.RegsBounded := h
      exact hrest.wr (State.primeDraw_fits hin hfound) rd

theorem exec_keeps_RegsBounded {i : Instr} {s t : State} (hlimbs : 1 ≤ s.limbs)
    (hs : s.RegsBounded) (h : exec i s = .next t) : t.RegsBounded := by
  obtain ⟨v, hexec, hv⟩ := exec_verdict_bounded i hlimbs hs
  obtain ⟨u, hu, rfl⟩ | ⟨e, rfl⟩ | ⟨-, rfl⟩ := settle_ends hv (hexec ▸ h)
  · exact hu
  · exact hs
  · exact hs

end Sys2Proof.Machine
end

section
/-! PROOFS. The register space once more (20_memory.md R61 to R67; 10_state.md R32;
70_reset_and_hazards.md R311): what a host write can do, which accesses are refused, what a busy
block keeps, and which random words a reset loses. -/

namespace Sys2Proof.Machine

/-! The address map, from a location back to the offset. -/

/-- The offsets at which a location stands. -/
def Loc.At (limbs off : Nat) : Loc → Prop
  | .id => off = 0x00
  | .cap => off = 0x04
  | .ctrl => off = 0x08
  | .status => off = 0x0C
  | .ie => off = 0x10
  | .errcode => off = 0x14
  | .errcmd => off = 0x18
  | .cmd => off = 0x1C
  | .mrk => off = 0x20
  | .pbits => off = 0x24
  | .sign => off = 0x28
  | .limb _ i => 0x10000 ≤ off ∧ off % 0x1000 / 4 = i ∧ i < limbs
  | .reserved => True

section
variable {s : State} {addr : BitVec 15}

theorem State.locate_at (s : State) (addr : BitVec 15) :
    (s.locate addr).At s.limbs (4 * addr.toNat) := by
  have haddr := addr.isLt
  obtain h | ⟨h, h'⟩ | ⟨r, i, hi, h⟩ :=
    offset_cases (off := 4 * addr.toNat) (by omega) (by omega)
  · obtain h | h | h | h | h | h | h | h | h | h | h := h <;>
      (rw [State.locate_of_offset h]; exact h)
  · rw [State.locate_gap h h']
    trivial
  · have hl : s.locate addr = if i < s.limbs then .limb r i else .reserved :=
      locateOffset_window s.limbs r hi h
    rw [hl]
    split_ifs with hlimb
    · exact ⟨by omega, by omega, hlimb⟩
    · trivial

theorem State.offset_of_locate {l : Loc} (h : s.locate addr = l) :
    l.At s.limbs (4 * addr.toNat) :=
  h ▸ s.locate_at addr

theorem State.addr_of_locate_ctrl (h : s.locate addr = .ctrl) : addr = 2#15 := by
  have hoff : 4 * addr.toNat = 0x08 := State.offset_of_locate h
  apply BitVec.eq_of_toNat_eq
  show addr.toNat = 2
  omega

theorem State.locate_of_inWindow (h : s.inWindow addr) :
    ∃ (r : Reg) (i : Nat), s.locate addr = .limb r i := by
  obtain ⟨hlo, hlimb⟩ := h
  have haddr := addr.isLt
  obtain h | ⟨-, h⟩ | ⟨r, i, hi, h⟩ :=
    offset_cases (off := 4 * addr.toNat) (by omega) (by omega)
  · omega
  · omega
  · exact ⟨r, i, (locateOffset_window s.limbs r hi h).trans (if_pos (by omega))⟩

theorem State.inWindow_of_locate {r : Reg} {i : Nat} (h : s.locate addr = .limb r i) :
    s.inWindow addr := by
  obtain ⟨hlo, hi, hlt⟩ := State.offset_of_locate h
  exact ⟨hlo, by omega⟩

end

/-! What a host write can do (20_memory.md R63). -/

/-- The outcomes of a write of `d` at a location, with what each needs. -/
inductive WriteEffect (s : State) (d : Word) : Loc → State → Prop
  | kept (l : Loc) : WriteEffect s d l s
  | softReset (h : d.getLsbD 0 = true) : WriteEffect s d .ctrl s.resetBlock
  | status : WriteEffect s d .status (s.w1c d)
  | ie : WriteEffect s d .ie (s.writeIe d)
  | accepted (hb : s.busy = false) (he : s.err = false) : WriteEffect s d .cmd (s.accept d)
  | refusedCmd (h : s.busy = true ∨ s.err = true) : WriteEffect s d .cmd s.reject
  | refused (l : Loc) (hb : s.busy = true)
      (h : l = .mrk ∨ l = .pbits ∨ l = .sign ∨ ∃ r i, l = .limb r i) : WriteEffect s d l s.reject
  | mrk (hb : s.busy = false) : WriteEffect s d .mrk { s with mrk := d.setWidth 16 }
  | pbits (hb : s.busy = false) : WriteEffect s d .pbits { s with pbits := d.setWidth 16 }
  | sign (hb : s.busy = false) : WriteEffect s d .sign (s.writeSigns d)
  | limb (r : Reg) (i : Nat) (hb : s.busy = false) :
      WriteEffect s d (.limb r i) (s.writeLimb r i d)

theorem State.writeLoc_effect (s : State) (d : Word) (l : Loc) :
    WriteEffect s d l (s.writeLoc d l) := by
  have idle {t : State} (hidle : s.busy = false → WriteEffect s d l t)
      (h : l = .mrk ∨ l = .pbits ∨ l = .sign ∨ ∃ r i, l = .limb r i) :
      WriteEffect s d l (s.whenIdle t) := by
    obtain ⟨hb, e⟩ | ⟨hb, e⟩ := s.whenIdle_cases t
    · rw [e]
      exact hidle hb
    · rw [e]
      exact .refused l hb h
  cases l with
  | ctrl =>
    change WriteEffect s d .ctrl (if d.getLsbD 0 then s.resetBlock else s)
    split
    · next h => exact .softReset h
    · exact .kept _
  | status => exact .status
  | ie => exact .ie
  | cmd =>
    change WriteEffect s d .cmd (s.writeCmd d)
    obtain ⟨hb, he, e⟩ | ⟨h, e⟩ := s.writeCmd_cases d
    · rw [e]
      exact .accepted hb he
    · rw [e]
      exact .refusedCmd h
  | mrk => exact idle .mrk (.inl rfl)
  | pbits => exact idle .pbits (.inr (.inl rfl))
  | sign => exact idle .sign (.inr (.inr (.inl rfl)))
  | limb r i => exact idle (.limb r i) (.inr (.inr (.inr ⟨r, i, rfl⟩)))
  | id => exact .kept _
  | cap => exact .kept _
  | errcode => exact .kept _
  | errcmd => exact .kept _
  | reserved => exact .kept _

theorem hostAccess_write_effect (s : State) (addr : BitVec 15) (d : Word) :
    WriteEffect s d (s.locate addr) (hostAccess (.write addr d) s) :=
  s.writeLoc_effect d (s.locate addr)

/-! The refused accesses (10_state.md R32). -/

/-- Only a refused write raises `REJ`. -/
theorem State.refuses_of_write {s : State} {addr : BitVec 15} {d : Word}
    (hset : (hostAccess (.write addr d) s).rej = true) (hclear : s.rej = false) :
    s.refuses (.write addr d) := by
  have heffect := hostAccess_write_effect s addr d
  generalize hl : s.locate addr = l at heffect
  generalize hostAccess (.write addr d) s = t at heffect hset
  have hoff := State.offset_of_locate hl
  cases heffect with
  | refusedCmd h => exact .inl ⟨hoff, h⟩
  | refused _ hb h =>
    obtain rfl | rfl | rfl | ⟨r, i, rfl⟩ := h
    · exact .inr ⟨hb, .inl (by simp [show 4 * addr.toNat = 0x20 from hoff])⟩
    · exact .inr ⟨hb, .inl (by simp [show 4 * addr.toNat = 0x24 from hoff])⟩
    · exact .inr ⟨hb, .inl (by simp [show 4 * addr.toNat = 0x28 from hoff])⟩
    · exact .inr ⟨hb, .inr (State.inWindow_of_locate hl)⟩
  | softReset => cases hset
  | status => simp [(s.w1c_flags d).2.2, hclear] at hset
  | kept => simp [hclear] at hset
  | ie => simp [hclear] at hset
  | accepted => simp [hclear] at hset
  | mrk => simp [hclear] at hset
  | pbits => simp [hclear] at hset
  | sign => simp [hclear] at hset
  | limb => simp [hclear] at hset

theorem hostAccess_write_refused {s : State} {addr : BitVec 15} {d : Word}
    (h : s.refuses (.write addr d)) : hostAccess (.write addr d) s = s.reject := by
  obtain ⟨hoff, hbe⟩ | ⟨hb, hoff | hwindow⟩ := h
  · exact (hostAccess_write (State.locate_of_offset hoff)).trans (State.writeCmd_refused hbe)
  · simp only [List.mem_cons, List.not_mem_nil, or_false] at hoff
    obtain hoff | hoff | hoff := hoff <;>
      exact (hostAccess_write (State.locate_of_offset hoff)).trans (State.whenIdle_busy hb _)
  · obtain ⟨r, i, hl⟩ := State.locate_of_inWindow hwindow
    exact (hostAccess_write hl).trans (State.whenIdle_busy hb _)

/-- Settles O34: a write raises `REJ` only by the two refusals, and a read only in the window of a
busy block. -/
theorem refusedAccessesSetRejOnly : Obligations.RefusedAccessesSetRejOnly := by
  rintro s (addr | ⟨addr, d⟩) -
  · refine ⟨fun ⟨hb, hwindow⟩ => ?_, fun hok hset => ?_⟩
    · obtain ⟨r, i, hl⟩ := State.locate_of_inWindow hwindow
      exact hostAccess_read_limb_busy hl hb
    · rw [hostAccess_read rfl] at hset
      obtain hkept | ⟨hb, ⟨r, i, hl⟩, -⟩ := s.readEffect_cases (s.locate addr)
      · rwa [hkept] at hset
      · exact absurd ⟨hb, State.inWindow_of_locate hl⟩ hok
  · refine ⟨hostAccess_write_refused, fun hok hset => ?_⟩
    by_contra hclear
    exact hok (State.refuses_of_write hset (Bool.eq_false_iff.mpr hclear))

/-! The busy block (20_memory.md R67, R73). -/

/-- A read leaves the block as it is, or sets `REJ`; and it sets the port. -/
theorem hostAccess_read_cases (s : State) (addr : BitVec 15) :
    ∃ u, (u = s ∨ u = s.reject) ∧
      hostAccess (.read addr) s = { u with rdata := s.readWord (s.locate addr) } := by
  refine ⟨_, ?_, hostAccess_read rfl⟩
  obtain h | ⟨-, -, h⟩ := s.readEffect_cases (s.locate addr)
  · exact .inl h
  · exact .inr h

/-- What a busy block protects. -/
def State.SameWork (s t : State) : Prop :=
  t.regs = s.regs ∧ t.mrk = s.mrk ∧ t.pbits = s.pbits ∧ t.cmdreg = s.cmdreg ∧ t.busy = s.busy ∧
    t.prime = s.prime ∧ t.z = s.z ∧ t.lt = s.lt ∧ t.rng = s.rng

/-- While busy, a write that is no soft reset can only be refused, or reach `STATUS` or `IE`. -/
theorem WriteEffect.sameWork {s t : State} {d : Word} {l : Loc} (h : WriteEffect s d l t)
    (hb : s.busy = true) (hreset : l = .ctrl → d.getLsbD 0 = false) : s.SameWork t := by
  have idle_absurd (hidle : s.busy = false) : s.SameWork t := by simp [hb] at hidle
  cases h with
  | softReset h =>
    rw [hreset rfl] at h
    cases h
  | status =>
    obtain ⟨-, hregs, hbusy, hprime, hz, hlt, -, -, hcmdreg, hmrk, hpbits, hrng, -⟩ := s.w1c_keeps d
    exact ⟨hregs, hmrk, hpbits, hcmdreg, hbusy, hprime, hz, hlt, hrng⟩
  | kept => simp [State.SameWork]
  | ie => simp [State.SameWork]
  | refusedCmd => simp [State.SameWork]
  | refused => simp [State.SameWork]
  | accepted hidle => exact idle_absurd hidle
  | mrk hidle => exact idle_absurd hidle
  | pbits hidle => exact idle_absurd hidle
  | sign hidle => exact idle_absurd hidle
  | limb _ _ hidle => exact idle_absurd hidle

theorem hostAccess_sameWork {s : State} {a : HostAccess} (hb : s.busy = true)
    (hreset : ∀ d, a = .write 2#15 d → d.getLsbD 0 = false) : s.SameWork (hostAccess a s) := by
  cases a with
  | read addr =>
    obtain ⟨u, rfl | rfl, h⟩ := hostAccess_read_cases s addr
    · simp [h, State.SameWork]
    · simp [h, State.SameWork]
  | write addr d =>
    refine (hostAccess_write_effect s addr d).sameWork hb fun hctrl => hreset d ?_
    rw [State.addr_of_locate_ctrl hctrl]

/-- Settles O36: the work of a busy block is out of reach of every access but a soft reset. -/
theorem busyBlockIsProtected : Obligations.BusyBlockIsProtected := by
  intro s a hb hreset
  obtain ⟨hregs, hmrk, hpbits, hcmdreg, hbusy, hrest⟩ := hostAccess_sameWork hb hreset
  exact ⟨hregs, hmrk, hpbits, hcmdreg, hbusy.trans hb, hrest⟩

/-! The random words a reset loses (70_reset_and_hazards.md R311). -/

theorem hardReset_rng (p : Option HostAccess) (s : State) :
    ∃ k ≤ s.inFlightBound, (hardReset p s).rng = s.rng.drop k := by
  obtain ⟨k, hk, n, h⟩ := s.resetBlock_shape
  refine ⟨k, hk, ?_⟩
  have hrng : (hardReset p s).rng = s.resetBlock.rng := by
    obtain _ | _ | _ := p <;> rfl
  rw [hrng, h]

theorem State.inFlightBound_eq {s : State} {i : Instr} (hb : s.busy = true)
    (h : decode s.cmdreg = .ok i) : s.inFlightBound = drawBound i s := by
  simp [State.inFlightBound, hb, h]

theorem drawBound_of_not_draws {i : Instr} (s : State) (h : i.draws = false) :
    drawBound i s = 0 := by
  cases i with
  | mrtest ra => cases h
  | genprime rd => cases h
  | _ => rfl

theorem hardReset_rng_of_bound_zero {s : State} (h : s.inFlightBound = 0)
    (p : Option HostAccess) : (hardReset p s).rng = s.rng := by
  obtain ⟨k, hk, hrng⟩ := hardReset_rng p s
  rw [h, Nat.le_zero] at hk
  rw [hrng, hk, List.drop_zero]

/-- The words behind those a draw took are an end of the words left by dropping no more. -/
theorem suffix_drop_of_drawTaken {α : Type} {ws rest : List Word} {a : α} {k : Nat}
    (hrest : rest <:+ ws) (hk : k ≤ drawTaken ws (some (a, rest))) : rest <:+ ws.drop k := by
  have hk : k ≤ ws.length - rest.length := hk
  rw [List.suffix_iff_eq_drop.mp hrest]
  exact List.drop_suffix_drop_left ws hk

/-- Settles O38: a reset drops no more words than the command in flight would have taken. -/
theorem resetLosesOnlyAbandonedWords : Obligations.ResetLosesOnlyAbandonedWords := by
  intro s p
  obtain ⟨k, hk, hrng⟩ := hardReset_rng p s
  refine ⟨hrng ▸ List.drop_suffix k s.rng, fun hidle => hardReset_rng_of_bound_zero ?_ p,
    fun ra hb hdec verdict rest htest => ?mrtest,
    fun rd hb hdec => ⟨fun hlo hhi c rest hfound => ?genprime,
      fun hout => hardReset_rng_of_bound_zero ?_ p⟩⟩
  · obtain hb | hdraws := hidle
    · exact State.inFlightBound_idle hb
    · unfold State.inFlightBound
      split_ifs
      · split
        · next i hdec => exact drawBound_of_not_draws s (hdraws i hdec)
        · rfl
      · rfl
  case mrtest =>
    rw [State.inFlightBound_eq hb hdec, drawBound, State.testDraw, htest] at hk
    rw [hrng]
    exact suffix_drop_of_drawTaken (millerRabin_suffix htest) hk
  case genprime =>
    have hin : genprimeDomain s.pbits.toNat s.width = true := genprimeDomain_iff.mpr ⟨hlo, hhi⟩
    rw [State.inFlightBound_eq hb hdec, drawBound, if_pos hin, State.primeDraw, hfound] at hk
    rw [hrng]
    exact suffix_drop_of_drawTaken (genPrime_suffix hfound) hk
  · rw [State.inFlightBound_eq hb hdec, drawBound, if_neg]
    rw [genprimeDomain_iff, State.width_eq]
    omega

end Sys2Proof.Machine
end

section
/-! PROOFS. The step (10_state.md R45; 20_memory.md R71, R80): what each event does, which states
answer, who writes the result flags and who consumes random words, and the invariant that every
step of every agent keeps. -/

namespace Sys2Proof.Machine

/-! The step of each event. -/

section
variable {s : State}

theorem step_of_script_nil (hw : s.legalWidth = true) (h : s.script = []) :
    step s = engineTurn s := by
  rw [step, stepBlock, if_pos hw, turn, h]

theorem step_of_script_cons (hw : s.legalWidth = true) {e : Event} {rest : List Event}
    (h : s.script = e :: rest) : step s = happens e { s with script := rest } := by
  rw [step, stepBlock, if_pos hw, turn, h]

theorem engineTurn_idle (hb : s.busy = false) : engineTurn s = .next s := by
  rw [engineTurn, hb]
  rfl

end

/-- Settles O26: the step is the engine's turn or the next event, and the engine goes by `BUSY` and
the decoder. -/
theorem stepRunsTheDecodedCommand : Obligations.StepRunsTheDecodedCommand := fun s hw =>
  ⟨fun _ hb hdec => ⟨fun h => (step_of_script_nil hw h).trans (engineTurn_decoded hb hdec),
      fun rest h => (step_of_script_cons hw h).trans
        (engineTurn_decoded (s := { s with script := rest }) hb hdec)⟩,
    fun _ hb hdec => ⟨fun h => (step_of_script_nil hw h).trans (engineTurn_illegal hb hdec),
      fun rest h => (step_of_script_cons hw h).trans
        (engineTurn_illegal (s := { s with script := rest }) hb hdec)⟩,
    fun hb => ⟨fun h => (step_of_script_nil hw h).trans (engineTurn_idle hb),
      fun rest h => (step_of_script_cons hw h).trans
        (engineTurn_idle (s := { s with script := rest }) hb)⟩,
    fun _ _ h => step_of_script_cons hw h, fun _ _ h => step_of_script_cons hw h,
    fun _ _ h => step_of_script_cons hw h⟩

/-! Every step answers. -/

theorem engineTurn_total (s : State) : ∃ t, engineTurn s = .next t := by
  unfold engineTurn completeCommand
  split_ifs
  · split
    · next i hdec =>
      obtain ⟨v, hv⟩ := exec_is_settle i s
      rw [hv]
      exact settle_total s v
    · exact ⟨_, rfl⟩
  · exact ⟨_, rfl⟩

theorem happens_total (e : Event) (s : State) : ∃ t, happens e s = .next t := by
  cases e with
  | host a => exact ⟨_, rfl⟩
  | engine => exact engineTurn_total s
  | source w => exact ⟨_, rfl⟩
  | reset p => exact ⟨_, rfl⟩

theorem step_total {s : State} (hw : s.legalWidth = true) : ∃ t, step s = .next t := by
  cases h : s.script with
  | nil => exact step_of_script_nil hw h ▸ engineTurn_total s
  | cons e rest => exact step_of_script_cons hw h ▸ happens_total e _

/-! What each event can change beside the registers and the life cycle. -/

/-- The width, the queue and the result flags: what only a reset, the source or the engine
changes. -/
def State.SameResults (s t : State) : Prop :=
  t.limbs = s.limbs ∧ t.rng = s.rng ∧ t.prime = s.prime ∧ t.z = s.z ∧ t.lt = s.lt

theorem WriteEffect.limbs {s t : State} {d : Word} {l : Loc} (h : WriteEffect s d l t) :
    t.limbs = s.limbs := by
  cases h with
  | status => exact (s.w1c_keeps d).1
  | softReset =>
    obtain ⟨_, -, _, h⟩ := s.resetBlock_shape
    rw [h]
  | _ => simp

theorem WriteEffect.sameResults {s t : State} {d : Word} {l : Loc} (h : WriteEffect s d l t)
    (hreset : l = .ctrl → d.getLsbD 0 = false) : s.SameResults t := by
  cases h with
  | softReset h =>
    rw [hreset rfl] at h
    cases h
  | status =>
    obtain ⟨hlimbs, -, -, hprime, hz, hlt, -, -, -, -, -, hrng, -⟩ := s.w1c_keeps d
    exact ⟨hlimbs, hrng, hprime, hz, hlt⟩
  | _ => simp [State.SameResults]

/-- A soft reset (20_memory.md R63, 70_reset_and_hazards.md R312). -/
def HostAccess.SoftReset (a : HostAccess) : Prop := ∃ d, a = .write 2#15 d ∧ d.getLsbD 0 = true

theorem hostAccess_limbs (a : HostAccess) (s : State) : (hostAccess a s).limbs = s.limbs := by
  cases a with
  | read addr =>
    obtain ⟨u, rfl | rfl, h⟩ := hostAccess_read_cases s addr <;> rw [h]
    rfl
  | write addr d => exact (hostAccess_write_effect s addr d).limbs

theorem hostAccess_sameResults {a : HostAccess} (ha : ¬HostAccess.SoftReset a) (s : State) :
    s.SameResults (hostAccess a s) := by
  cases a with
  | read addr =>
    obtain ⟨u, rfl | rfl, h⟩ := hostAccess_read_cases s addr
    · simp [h, State.SameResults]
    · simp [h, State.SameResults]
  | write addr d =>
    refine (hostAccess_write_effect s addr d).sameResults fun hctrl => ?_
    rw [← Bool.not_eq_true]
    exact fun hd => ha ⟨d, by rw [State.addr_of_locate_ctrl hctrl], hd⟩

theorem hardReset_limbs (p : Option HostAccess) (s : State) : (hardReset p s).limbs = s.limbs := by
  obtain ⟨_, -, _, h⟩ := s.resetBlock_shape
  obtain _ | _ | _ := p <;> simp [hardReset, h]

theorem engineTurn_limbs {s t : State} (h : engineTurn s = .next t) : t.limbs = s.limbs := by
  obtain ⟨-, rfl⟩ | ⟨-, i, -, hexec⟩ | ⟨-, -, rfl⟩ := engineTurn_cases h
  · rfl
  · exact (commandsKeepEverythingElse i s t hexec).1.1
  · rfl

theorem happens_limbs {e : Event} {s t : State} (h : happens e s = .next t) :
    t.limbs = s.limbs := by
  cases e with
  | host a =>
    cases h
    exact hostAccess_limbs a s
  | engine => exact engineTurn_limbs h
  | source w =>
    cases h
    rfl
  | reset p =>
    cases h
    exact hardReset_limbs p s

theorem step_limbs {s t : State} (h : step s = .next t) : t.limbs = s.limbs := by
  obtain ⟨-, ⟨-, hturn⟩ | ⟨e, rest, -, hhappens⟩⟩ := step_cases h
  · exact engineTurn_limbs hturn
  · exact happens_limbs (s := { s with script := rest }) hhappens

/-- Settles O27: every event answers with the width it found, and the width is what the step
tests. -/
theorem everyStepAnswers : Obligations.EveryStepAnswers := by
  refine fun s => ⟨fun hlo hhi => ?_, fun hout => ?_⟩
  · obtain ⟨t, ht⟩ := step_total (s := s) (decide_eq_true ⟨hlo, hhi⟩)
    exact ⟨t, ht, step_limbs ht⟩
  · refine if_neg fun hw => ?_
    have := State.legalWidth_limbs hw
    omega

/-! The writers of the result flags, and the consumers of words. -/

/-- A step that is neither a reset nor a delivery, in terms of whose turn it is: the host's turn
leaves the results alone, and the engine's turn is a command's where it does not. -/
theorem step_results {s t : State} (h : step s = .next t) :
    (∃ w rest, s.script = .source w :: rest ∧ t = { s with rng := s.rng ++ [w], script := rest }) ∨
      (∃ p rest, s.script = .reset p :: rest) ∨
      (∃ d rest, s.script = .host (.write 2#15 d) :: rest ∧ d.getLsbD 0 = true) ∨
      s.SameResults t ∨
      ((s.script = [] ∨ ∃ rest, s.script = .engine :: rest) ∧ s.busy = true ∧
        ∃ i script, decode s.cmdreg = .ok i ∧ exec i { s with script := script } = .next t) := by
  have engine {script : List Event} (hturn : engineTurn { s with script := script } = .next t) :
      s.SameResults t ∨ (s.busy = true ∧
        ∃ i script, decode s.cmdreg = .ok i ∧ exec i { s with script := script } = .next t) := by
    obtain ⟨-, rfl⟩ | ⟨hb, i, hdec, hexec⟩ | ⟨-, -, rfl⟩ := engineTurn_cases hturn
    · exact .inl ⟨rfl, rfl, rfl, rfl, rfl⟩
    · exact .inr ⟨hb, i, script, hdec, hexec⟩
    · exact .inl ⟨rfl, rfl, rfl, rfl, rfl⟩
  obtain ⟨-, ⟨hscript, hturn⟩ | ⟨e, rest, hscript, hhappens⟩⟩ := step_cases h
  · obtain hsame | hexec := engine (script := s.script) hturn
    · exact .inr (.inr (.inr (.inl hsame)))
    · exact .inr (.inr (.inr (.inr ⟨.inl hscript, hexec⟩)))
  · cases e with
    | host a =>
      cases hhappens
      by_cases ha : HostAccess.SoftReset a
      · obtain ⟨d, rfl, hd⟩ := ha
        exact .inr (.inr (.inl ⟨d, rest, hscript, hd⟩))
      · exact .inr (.inr (.inr (.inl (hostAccess_sameResults ha { s with script := rest }))))
    | engine =>
      obtain hsame | hexec := engine hhappens
      · exact .inr (.inr (.inr (.inl hsame)))
      · exact .inr (.inr (.inr (.inr ⟨.inr ⟨rest, hscript⟩, hexec⟩)))
    | source w =>
      cases hhappens
      exact .inl ⟨w, rest, hscript, rfl⟩
    | reset p => exact .inr (.inl ⟨p, rest, hscript⟩)

/-- A command that changes the queue draws. -/
theorem draws_of_rng_ne {i : Instr} {s t : State} (h : exec i s = .next t) (hne : t.rng ≠ s.rng) :
    i.draws = true := by
  obtain ⟨-, -, hdraw, -⟩ := commandsKeepEverythingElse i s t h
  rw [← Bool.not_eq_false]
  exact fun hno => hne (hdraw hno).2

/-- A command that changes the queue takes words from its front, as many as its bound says. -/
theorem exec_takes_words {i : Instr} {s t : State} (h : exec i s = .next t)
    (hne : t.rng ≠ s.rng) :
    t.rng <:+ s.rng ∧ drawBound i s = s.rng.length - t.rng.length := by
  have hdraws := draws_of_rng_ne h hne
  cases i with
  | mrtest ra =>
    cases htest : millerRabin (s.val ra) s.mrk.toNat s.rng with
    | none =>
      rw [exec_mrtest_of_starved htest] at h
      cases h
      exact absurd rfl hne
    | some drawn =>
      rw [exec_mrtest_of_verdict htest] at h
      cases h
      refine ⟨millerRabin_suffix htest, ?_⟩
      rw [drawBound, State.testDraw, htest]
      rfl
  | genprime rd =>
    by_cases hin : genprimeDomain s.pbits.toNat s.width = true
    · cases hfound : genPrime s.pbits.toNat s.mrk.toNat s.rng with
      | none =>
        rw [exec_genprime_of_starved hin hfound] at h
        cases h
        exact absurd rfl hne
      | some drawn =>
        rw [exec_genprime_of_found hin hfound] at h
        cases h
        refine ⟨genPrime_suffix hfound, ?_⟩
        rw [drawBound, if_pos hin, State.primeDraw, hfound]
        rfl
    · rw [exec_genprime_of_not_domain hin] at h
      cases h
      exact absurd rfl hne
  | _ => cases hdraws

/-- A command that changes the queue needs words while it is in flight (log 17). -/
theorem needsWords_of_rng_ne {i : Instr} {s t : State} (h : exec i s = .next t)
    (hne : t.rng ≠ s.rng) : needsWords i s = true := by
  obtain ⟨hsuffix, hbound⟩ := exec_takes_words h hne
  have hlt : t.rng.length < s.rng.length :=
    lt_of_le_of_ne hsuffix.length_le fun heq => hne (hsuffix.eq_of_length heq)
  simp [needsWords, hbound, hlt]

theorem needsWords_script (i : Instr) (s : State) (script : List Event) :
    needsWords i { s with script := script } = needsWords i s := by
  cases i <;> rfl

/-- Settles O30: past a delivery and the resets, only a command that draws changes the queue. -/
theorem onlyDrawingCommandsConsumeWords : Obligations.OnlyDrawingCommandsConsumeWords := by
  intro s t h hne
  obtain ⟨w, rest, hscript, -⟩ | hreset | hsoft | ⟨-, hrng, -⟩ |
    ⟨hturn, hb, i, script, hdec, hexec⟩ := step_results h
  · exact .inl ⟨w, rest, hscript⟩
  · exact .inr (.inl hreset)
  · exact .inr (.inr (.inl hsoft))
  · exact absurd hrng hne
  · refine .inr (.inr (.inr ⟨hturn, hb, ⟨i, hdec, draws_of_rng_ne hexec hne⟩, ?_⟩))
    have hneeds := needsWords_of_rng_ne hexec hne
    rw [needsWords_script] at hneeds
    simp [State.rngReq, hb, hdec, hneeds]

/-- Settles O31: past the resets, only the command that draws or compares changes its flags. -/
theorem resultFlagsHaveTheirWriters : Obligations.ResultFlagsHaveTheirWriters := by
  intro s t h
  obtain ⟨w, rest, -, rfl⟩ | hreset | hsoft | ⟨-, -, hprime, hz, hlt⟩ |
    ⟨hturn, hb, i, script, hdec, hexec⟩ := step_results h
  · simp
  · exact .inl hreset
  · exact .inr (.inl hsoft)
  · simp [hprime, hz, hlt]
  · obtain ⟨-, -, hdraw, hcompare, -⟩ := commandsKeepEverythingElse i _ t hexec
    refine .inr (.inr ⟨fun _ => hturn, fun hne => ⟨hb, i, hdec, ?_⟩, fun hne => ⟨hb, i, hdec, ?_⟩⟩)
    · rw [← Bool.not_eq_false]
      exact fun hno => hne (hdraw hno).1
    · rw [← Bool.not_eq_false]
      intro hno
      obtain ⟨hz, hlt⟩ := hcompare hno
      exact hne.elim (· hz) (· hlt)

/-! The invariant. -/

section
variable {s t : State}

theorem State.Inv.legalWidth (h : s.Inv) : s.legalWidth = true := h.1

theorem State.Inv.regsBounded (h : s.Inv) : s.RegsBounded := h.2.1

theorem State.reset_inv : State.reset.Inv := by
  refine ⟨rfl, fun r => ?_, nofun, ⟨Iff.intro (fun _ => rfl) fun _ => rfl, fun _ => rfl, nofun⟩,
    nofun⟩
  simp [State.reset]

/-- Settles O28: reset clears every register and every flag. -/
theorem resetMeetsTheInvariant : Obligations.ResetMeetsTheInvariant := State.reset_inv

theorem State.resetBlock_inv (hw : s.legalWidth = true) : s.resetBlock.Inv := by
  obtain ⟨k, -, n, h⟩ := s.resetBlock_shape
  obtain ⟨-, -, hquiet, hrecord, hapart⟩ := State.reset_inv
  rw [h]
  refine ⟨hw, fun r => ?_, hquiet, hrecord, hapart⟩
  simp [State.reset]

theorem hardReset_inv (hw : s.legalWidth = true) (p : Option HostAccess) : (hardReset p s).Inv := by
  obtain _ | _ | _ := p <;> exact State.resetBlock_inv hw

/-- An error leaves a record of it (60_exceptions.md R272). -/
theorem State.Inv.raise (h : s.Inv) (e : ErrKind) : (s.raise e).Inv := by
  obtain ⟨hw, hregs, -, -, hapart⟩ := h
  exact ⟨hw, hregs, nofun, ⟨by simp [e.code_ne_zero], nofun, fun _ => ⟨e.code_range, rfl⟩⟩, hapart⟩

/-- A commit writes no error record, and the flags of a comparison exclude each other. -/
theorem State.Inv.commit {i : Instr} {u : State} (h : s.Inv) (hu : CommitsFor i s u)
    (hregs : u.RegsBounded) : u.succeed.Inv := by
  obtain ⟨hw, -, -, hrecord, hapart⟩ := h
  obtain ⟨regs, rfl⟩ | ⟨-, a, b, rfl⟩ | ⟨-, regs, rest, verdict, rfl⟩ := hu
  · exact ⟨hw, hregs, nofun, hrecord, hapart⟩
  · refine ⟨hw, hregs, nofun, hrecord, ?_⟩
    rintro ⟨hz, hlt⟩
    exact absurd (of_decide_eq_true hz) (of_decide_eq_true hlt).ne
  · exact ⟨hw, hregs, nofun, hrecord, hapart⟩

theorem State.Inv.of_exec {i : Instr} (h : s.Inv) (hexec : exec i s = .next t) : t.Inv := by
  have hregs : t.RegsBounded := by
    obtain ⟨hlo, -⟩ := State.legalWidth_limbs h.legalWidth
    exact exec_keeps_RegsBounded (by omega) h.regsBounded hexec
  obtain ⟨u, hu, rfl⟩ | ⟨e, rfl⟩ | ⟨-, rfl⟩ := exec_cases hexec
  · exact h.commit hu hregs
  · exact h.raise e
  · exact h

theorem State.Inv.of_engineTurn (h : s.Inv) (hturn : engineTurn s = .next t) : t.Inv := by
  obtain ⟨-, rfl⟩ | ⟨-, i, -, hexec⟩ | ⟨-, -, rfl⟩ := engineTurn_cases hturn
  · exact h
  · exact h.of_exec hexec
  · exact h.raise _

/-- Clearing `ERR` clears its record (60_exceptions.md R279). -/
theorem State.Inv.w1c (h : s.Inv) (d : Word) : (s.w1c d).Inv := by
  obtain ⟨hw, hregs, hquiet, hrecord, hapart⟩ := h
  have hdone : s.busy = true → (s.done && !d.getLsbD 1) = false := fun hb => by
    simp [(hquiet hb).1]
  by_cases hclears : s.err = true ∧ d.getLsbD 2 = true
  · rw [State.w1c_clears_err hclears.1 hclears.2]
    exact ⟨hw, hregs, fun hb => ⟨hdone hb, rfl⟩,
      ⟨Iff.intro (fun _ => rfl) fun _ => rfl, fun _ => rfl, nofun⟩, hapart⟩
  · rw [State.w1c_leaves_err (by simpa [imp_iff_not_or] using hclears)]
    exact ⟨hw, hregs, fun hb => ⟨hdone hb, (hquiet hb).2⟩, hrecord, hapart⟩

/-- A word is accepted without an error outstanding, so no record speaks of the old one. -/
theorem State.Inv.accept (h : s.Inv) (he : s.err = false) (d : Word) : (s.accept d).Inv := by
  obtain ⟨hw, hregs, -, ⟨hcode, hcmd, -⟩, hapart⟩ := h
  exact ⟨hw, hregs, fun _ => ⟨rfl, he⟩, ⟨hcode, hcmd, fun herr => by simp [he] at herr⟩, hapart⟩

/-- Registers within the bound are all that the invariant asks of registers. -/
theorem State.Inv.setRegs (h : s.Inv) {regs : Vector BigReg 16}
    (hregs : ∀ r : Reg, regs[r].mag < 2 ^ (32 * s.limbs)) : { s with regs := regs }.Inv := by
  obtain ⟨hw, -, hquiet, hrecord, hapart⟩ := h
  exact ⟨hw, hregs, hquiet, hrecord, hapart⟩

theorem State.Inv.writeSigns (h : s.Inv) (d : Word) : (s.writeSigns d).Inv := by
  refine h.setRegs fun r => ?_
  have hmag : (s.writeSigns d).regs[r].mag = s.regs[r].mag := by rw [State.writeSigns_reg]
  exact hmag.trans_lt (h.regsBounded r)

theorem State.Inv.writeLimb (h : s.Inv) (r : Reg) {i : Nat} (hi : i < s.limbs) (d : Word) :
    (s.writeLimb r i d).Inv := by
  refine h.setRegs fun q => ?_
  by_cases hq : q = r
  · subst hq
    simpa using setLimb_lt d (h.regsBounded q) hi
  · have hne : r.val ≠ q.val := fun e => hq (Fin.ext e.symm)
    simpa [hne] using h.regsBounded q

theorem State.Inv.writeEffect {d : Word} {l : Loc} (h : s.Inv) (ht : WriteEffect s d l t)
    (hlimb : ∀ r i, l = .limb r i → i < s.limbs) : t.Inv := by
  cases ht with
  | softReset => exact State.resetBlock_inv h.legalWidth
  | status => exact h.w1c d
  | accepted _ he => exact h.accept he d
  | sign => exact h.writeSigns d
  | limb r i => exact h.writeLimb r (hlimb r i rfl) d
  | _ => exact h

theorem State.Inv.of_hostAccess (h : s.Inv) (a : HostAccess) : (hostAccess a s).Inv := by
  cases a with
  | read addr =>
    obtain ⟨u, rfl | rfl, hread⟩ := hostAccess_read_cases s addr <;> rw [hread]
    · exact h
    · exact h
  | write addr d =>
    refine h.writeEffect (hostAccess_write_effect s addr d) fun r i hl => ?_
    obtain ⟨-, -, hi⟩ := State.offset_of_locate hl
    exact hi

theorem State.Inv.of_happens {e : Event} (h : s.Inv) (hhappens : happens e s = .next t) :
    t.Inv := by
  cases e with
  | host a =>
    cases hhappens
    exact h.of_hostAccess a
  | engine => exact h.of_engineTurn hhappens
  | source w =>
    cases hhappens
    exact h
  | reset p =>
    cases hhappens
    exact hardReset_inv h.legalWidth p

end

/-- Settles O29: the engine's turn and every event keep the invariant. -/
theorem everyStepKeepsTheInvariant : Obligations.EveryStepKeepsTheInvariant := by
  intro s t h hstep
  obtain ⟨-, ⟨-, hturn⟩ | ⟨e, rest, -, hhappens⟩⟩ := step_cases hstep
  · exact h.of_engineTurn hturn
  · have hrest : { s with script := rest }.Inv := h
    exact hrest.of_happens hhappens

end Sys2Proof.Machine
end

section
/-! PROOFS. The reference algorithms (41_reduction.md R152, R153, R155; 43_modexp.md R191, R192):
Barrett's reduction, Montgomery form, the word-serial product, and exponentiation over either
reducer. -/

namespace Sys2Proof.Machine

/-! Barrett's reduction (41_reduction.md R152). -/

/-- The estimate is at most the quotient: the constant is at most the fraction it stands for. -/
theorem barrettEstimate_le (width x : Nat) {n : Nat} (hn : 1 ≤ n) :
    barrettEstimate width x n ≤ x / n := by
  rw [Nat.le_div_iff_mul_le hn]
  refine Nat.le_of_mul_le_mul_left ?_ (show 0 < 2 ^ (2 * width) by positivity)
  calc 2 ^ (2 * width) * (barrettEstimate width x n * n)
      = 2 ^ (2 * width) * barrettEstimate width x n * n := by ring
    _ ≤ x * barrettMu width n * n := Nat.mul_le_mul_right _ (Nat.mul_div_le _ _)
    _ = x * (n * barrettMu width n) := by ring
    _ ≤ x * 2 ^ (2 * width) := Nat.mul_le_mul_left _ (Nat.mul_div_le _ _)
    _ = 2 ^ (2 * width) * x := Nat.mul_comm _ _

/-- The estimate is at most one too small: what the constant lacks is less than `N`, and the
quotient times `N` is below `2^(2W)`. -/
theorem div_le_barrettEstimate_add_one {width x n : Nat} (hx : x < 2 ^ (2 * width)) (hn : 1 ≤ n) :
    x / n ≤ barrettEstimate width x n + 1 := by
  obtain hzero | hpos := Nat.eq_zero_or_pos (x / n)
  · omega
  have hquot : x / n * n ≤ x := Nat.div_mul_le_self x n
  have hmu : 2 ^ (2 * width) ≤ barrettMu width n * n + n := by
    have := Nat.lt_div_mul_add (a := 2 ^ (2 * width)) hn
    exact this.le
  have hscaled : (x / n - 1) * 2 ^ (2 * width) ≤ x * barrettMu width n := by
    obtain ⟨k, hk⟩ := Nat.exists_eq_add_of_le' hpos
    rw [hk, Nat.add_sub_cancel]
    rw [hk] at hquot
    nlinarith [Nat.mul_le_mul_left (k + 1) hmu, Nat.mul_le_mul_right (barrettMu width n) hquot]
  have hle : x / n - 1 ≤ barrettEstimate width x n :=
    (Nat.le_div_iff_mul_le (by positivity)).mpr hscaled
  omega

/-- With the estimate exact or one too small, one correction leaves the remainder. -/
theorem barrett_eq_mod {width x n : Nat} (hx : x < 2 ^ (2 * width)) (hn : 1 ≤ n) :
    barrett width x n = x % n := by
  have hdiv : x / n * n + x % n = x := Nat.div_add_mod' x n
  have hlt : x % n < n := Nat.mod_lt x hn
  have hle := barrettEstimate_le width x hn
  have hge := div_le_barrettEstimate_add_one hx hn
  simp only [barrett]
  obtain heq | heq : barrettEstimate width x n = x / n ∨ x / n = barrettEstimate width x n + 1 := by
    omega
  · rw [heq, if_neg (by omega)]
    omega
  · rw [heq, Nat.add_mul, one_mul] at hdiv
    rw [if_pos (by omega)]
    omega

/-- Settles O53: the estimate lies between the quotient less one and the quotient. -/
theorem barrettGivesTheRemainder : Obligations.BarrettGivesTheRemainder := by
  intro width x n hx hn _
  refine ⟨barrett_eq_mod hx hn, ?_⟩
  have hle := barrettEstimate_le width x hn
  have hge := div_le_barrettEstimate_add_one hx hn
  omega

/-! Montgomery form (41_reduction.md R153). -/

section
variable {n : Nat} (width a b : Nat)

/-- The product of two forms is the form of the product: one of the two radices is undone. -/
theorem montMul_montIn (hodd : n % 2 = 1) :
    montMul width (montIn width a n) (montIn width b n) n = montIn width (a * b) n := by
  have hin (c : Nat) : montIn width c n ≡ c * 2 ^ width [MOD n] := Nat.mod_modEq _ _
  change montIn width a n * montIn width b n * rinv width n ≡ a * b * 2 ^ width [MOD n]
  calc montIn width a n * montIn width b n * rinv width n
      ≡ a * 2 ^ width * (b * 2 ^ width) * rinv width n [MOD n] :=
        ((hin a).mul (hin b)).mul_right _
    _ = a * b * 2 ^ width * (2 ^ width * rinv width n) := by ring
    _ ≡ a * b * 2 ^ width * 1 [MOD n] := (radix_mul_rinv_modEq hodd width).mul_left _
    _ = a * b * 2 ^ width := Nat.mul_one _

theorem montOut_montIn (hodd : n % 2 = 1) : montOut width (montIn width a n) n = a % n := by
  change a * 2 ^ width % n * rinv width n ≡ a [MOD n]
  calc a * 2 ^ width % n * rinv width n
      ≡ a * 2 ^ width * rinv width n [MOD n] := (Nat.mod_modEq _ _).mul_right _
    _ = a * (2 ^ width * rinv width n) := Nat.mul_assoc _ _ _
    _ ≡ a * 1 [MOD n] := (radix_mul_rinv_modEq hodd width).mul_left _
    _ = a := Nat.mul_one a

end

/-- Settles O55: the third identity is the second after the first. -/
theorem montgomeryFormIsPreserved : Obligations.MontgomeryFormIsPreserved := fun width a b _ hodd =>
  ⟨montMul_montIn width a b hodd, montOut_montIn width a hodd,
    (montMul_montIn width a b hodd).symm ▸ montOut_montIn width (a * b) hodd⟩

/-! The word-serial product (41_reduction.md R155). -/

/-- `n0'` is the negative of the inverse of an odd `N` modulo the limb's radix. -/
theorem montN0_mul_add_one {n : Nat} (hodd : n % 2 = 1) : montN0 n * n + 1 ≡ 0 [MOD 2 ^ 32] := by
  have hcoprime : Nat.gcd (n % 2 ^ 32) (2 ^ 32) = 1 := by
    rw [← Nat.gcd_rec]
    exact Nat.Coprime.pow_left 32 (Nat.coprime_two_left.mpr (Nat.odd_iff.mpr hodd))
  have hinv : inverseMod (n % 2 ^ 32) (2 ^ 32) * n ≡ 1 [MOD 2 ^ 32] := by
    calc inverseMod (n % 2 ^ 32) (2 ^ 32) * n
        ≡ inverseMod (n % 2 ^ 32) (2 ^ 32) * (n % 2 ^ 32) [MOD 2 ^ 32] :=
          ((Nat.mod_modEq _ _).mul_left _).symm
      _ = n % 2 ^ 32 * inverseMod (n % 2 ^ 32) (2 ^ 32) := Nat.mul_comm _ _
      _ ≡ 1 [MOD 2 ^ 32] := mul_inverseMod_modEq (by positivity) hcoprime
  have hlt := inverseMod_lt (show 0 < 2 ^ 32 by positivity) (n % 2 ^ 32)
  have hneg : montN0 n + inverseMod (n % 2 ^ 32) (2 ^ 32) ≡ 0 [MOD 2 ^ 32] := by
    calc montN0 n + inverseMod (n % 2 ^ 32) (2 ^ 32)
        ≡ 2 ^ 32 - inverseMod (n % 2 ^ 32) (2 ^ 32) + inverseMod (n % 2 ^ 32) (2 ^ 32)
          [MOD 2 ^ 32] := (Nat.mod_modEq _ _).add_right _
      _ = 2 ^ 32 := Nat.sub_add_cancel hlt.le
      _ ≡ 0 [MOD 2 ^ 32] := Nat.mod_self _
  calc montN0 n * n + 1
      ≡ montN0 n * n + inverseMod (n % 2 ^ 32) (2 ^ 32) * n [MOD 2 ^ 32] := hinv.symm.add_left _
    _ = (montN0 n + inverseMod (n % 2 ^ 32) (2 ^ 32)) * n := by ring
    _ ≡ 0 * n [MOD 2 ^ 32] := hneg.mul_right n
    _ = 0 := Nat.zero_mul n

/-- A pass divides by the limb's radix without a remainder. -/
theorem montPass_mul (a b i t : Nat) {n : Nat} (hodd : n % 2 = 1) :
    ∃ m < 2 ^ 32, montPass a b n i t * 2 ^ 32 = t + (limbOf a i).toNat * b + m * n := by
  refine ⟨_, Nat.mod_lt _ (by positivity), Nat.div_mul_cancel (Nat.dvd_of_mod_eq_zero ?_)⟩
  generalize t + (limbOf a i).toNat * b = u
  change u + u % 2 ^ 32 * montN0 n % 2 ^ 32 * n ≡ 0 [MOD 2 ^ 32]
  calc u + u % 2 ^ 32 * montN0 n % 2 ^ 32 * n
      ≡ u + u * montN0 n * n [MOD 2 ^ 32] :=
        (((Nat.mod_modEq _ _).trans ((Nat.mod_modEq u _).mul_right _)).mul_right n).add_left u
    _ = u * (montN0 n * n + 1) := by ring
    _ ≡ u * 0 [MOD 2 ^ 32] := (montN0_mul_add_one hodd).mul_left u
    _ = 0 := Nat.mul_zero u

/-- After `i` passes the value, times the limbs' radix, is the product with the low `i` limbs. -/
theorem montPasses_modEq (a b : Nat) {n : Nat} (hodd : n % 2 = 1) (i : Nat) :
    montPasses a b n i * 2 ^ (32 * i) ≡ a % 2 ^ (32 * i) * b [MOD n] := by
  induction i with
  | zero => simp [montPasses, Nat.mod_one, Nat.ModEq.refl]
  | succ i ih =>
    obtain ⟨m, -, hpass⟩ := montPass_mul a b i (montPasses a b n i) hodd
    have hlimbs : a % 2 ^ (32 * (i + 1)) =
        a % 2 ^ (32 * i) + 2 ^ (32 * i) * (limbOf a i).toNat := by
      rw [Nat.mul_succ, pow_add, Nat.mod_mul, limbOf_toNat]
    calc montPasses a b n (i + 1) * 2 ^ (32 * (i + 1))
        = montPass a b n i (montPasses a b n i) * 2 ^ 32 * 2 ^ (32 * i) := by
          rw [montPasses, Nat.mul_succ, pow_add]
          ring
      _ = montPasses a b n i * 2 ^ (32 * i) + 2 ^ (32 * i) * (limbOf a i).toNat * b +
            n * (m * 2 ^ (32 * i)) := by
          rw [hpass]
          ring
      _ ≡ montPasses a b n i * 2 ^ (32 * i) + 2 ^ (32 * i) * (limbOf a i).toNat * b [MOD n] := by
          simp [Nat.ModEq]
      _ ≡ a % 2 ^ (32 * i) * b + 2 ^ (32 * i) * (limbOf a i).toNat * b [MOD n] := ih.add_right _
      _ = a % 2 ^ (32 * (i + 1)) * b := by
          rw [hlimbs]
          ring

theorem montPasses_lt {a b n : Nat} (hodd : n % 2 = 1) (hb : b < n) (i : Nat) :
    montPasses a b n i < 2 * n := by
  induction i with
  | zero =>
    rw [montPasses]
    omega
  | succ i ih =>
    obtain ⟨m, hm, hpass⟩ := montPass_mul a b i (montPasses a b n i) hodd
    have hlimb : (limbOf a i).toNat * b ≤ (2 ^ 32 - 1) * n :=
      Nat.mul_le_mul (by have := (limbOf a i).isLt; omega) hb.le
    have hcorr : m * n ≤ (2 ^ 32 - 1) * n := Nat.mul_le_mul_right n (by omega)
    rw [montPasses]
    omega

/-- The last value, less than `2N`, is reduced by one subtraction at most. -/
theorem montMulRef_eq_mod {limbs a b n : Nat} (h : montPasses a b n limbs < 2 * n) :
    montMulRef limbs a b n = montPasses a b n limbs % n := by
  simp only [montMulRef]
  split_ifs with hle
  · rw [Nat.mod_eq_sub_mod hle, Nat.mod_eq_of_lt (by omega)]
  · rw [Nat.mod_eq_of_lt (by omega)]

/-- Settles O54: past the last limb the value is the product without the radix. -/
theorem wordSerialMontgomeryAgrees : Obligations.WordSerialMontgomeryAgrees := by
  intro limbs a b n hodd hn ha hb
  refine ⟨?_, fun i _ => montPasses_lt hodd hb i⟩
  rw [montMulRef_eq_mod (montPasses_lt hodd hb limbs)]
  change montPasses a b n limbs ≡ a * b * rinv (32 * limbs) n [MOD n]
  have hproduct := montPasses_modEq a b hodd limbs
  rw [Nat.mod_eq_of_lt (ha.trans hn)] at hproduct
  calc montPasses a b n limbs
      = montPasses a b n limbs * 1 := (Nat.mul_one _).symm
    _ ≡ montPasses a b n limbs * (2 ^ (32 * limbs) * rinv (32 * limbs) n) [MOD n] :=
        (radix_mul_rinv_modEq hodd _).symm.mul_left _
    _ = montPasses a b n limbs * 2 ^ (32 * limbs) * rinv (32 * limbs) n :=
        (Nat.mul_assoc _ _ _).symm
    _ ≡ a * b * rinv (32 * limbs) n [MOD n] := hproduct.mul_right _

/-! Exponentiation over either reducer (43_modexp.md R191, R192). -/

/-- The loop over plain products: `i` passes square `r` `i` times and multiply by the power that the
low `i` bits of the exponent stand for. -/
theorem powLoop_mul (b e i r : Nat) :
    powLoop (· * ·) b e i r = r ^ 2 ^ i * b ^ (e % 2 ^ i) := by
  induction i generalizing r with
  | zero => simp [powLoop, Nat.mod_one]
  | succ i ih =>
    have hpass : (if e.testBit i then r * r * b else r * r) =
        r ^ 2 * b ^ (e.testBit i).toNat := by
      cases e.testBit i <;> simp [pow_two]
    simp only [powLoop, ih, hpass]
    rw [Nat.mod_pow_succ, Nat.toNat_testBit]
    ring

/-- A product that a representation carries over is carried over by the whole loop. -/
theorem powLoop_represented {mul : Nat → Nat → Nat} {rep : Nat → Nat}
    (hmul : ∀ x y, mul (rep x) (rep y) = rep (x * y)) (b e i r : Nat) :
    powLoop mul (rep b) e i (rep r) = rep (powLoop (· * ·) b e i r) := by
  induction i generalizing r with
  | zero => rfl
  | succ i ih =>
    simp only [powLoop, hmul, ← ih]
    split <;> rfl

theorem powLoop_represented_pow {mul : Nat → Nat → Nat} {rep : Nat → Nat}
    (hmul : ∀ x y, mul (rep x) (rep y) = rep (x * y)) (b e : Nat) :
    powLoop mul (rep b) e (bitlen e) (rep 1) = rep (b ^ e) := by
  rw [powLoop_represented hmul, powLoop_mul, one_pow, one_mul,
    Nat.mod_eq_of_lt (lt_two_pow_bitlen e)]

theorem modExpMont_eq {m : Nat} (hodd : m % 2 = 1) (width b e : Nat) :
    modExpMont width b e m = b ^ e % m := by
  rw [modExpMont, powLoop_represented_pow (rep := fun x => montIn width x m)
    fun x y => montMul_montIn width x y hodd]
  exact montOut_montIn width (b ^ e) hodd

/-- Two remainders of a modulus of the block have a product that Barrett's reduction covers. -/
theorem barrett_mul_mod {width m : Nat} (hm : 1 ≤ m) (hw : m < 2 ^ width) (x y : Nat) :
    barrett width (x % m * (y % m)) m = x * y % m := by
  have hx : x % m < 2 ^ width := (Nat.mod_lt x hm).trans hw
  have hy : y % m < 2 ^ width := (Nat.mod_lt y hm).trans hw
  rw [barrett_eq_mod _ hm, ← Nat.mul_mod]
  calc x % m * (y % m) < 2 ^ width * 2 ^ width := Nat.mul_lt_mul'' hx hy
    _ = 2 ^ (2 * width) := by rw [← pow_add, Nat.two_mul]

theorem modExpBarrett_eq {width b m : Nat} (hm : 1 ≤ m) (hw : m < 2 ^ width) (hb : b < 2 ^ width)
    (e : Nat) : modExpBarrett width b e m = b ^ e % m := by
  have hwide : 2 ^ width ≤ 2 ^ (2 * width) := Nat.pow_le_pow_right (by decide) (by omega)
  rw [modExpBarrett, barrett_eq_mod (hb.trans_le hwide) hm, barrett_eq_mod (by omega) hm]
  exact powLoop_represented_pow (rep := fun x => x % m) (fun x y => barrett_mul_mod hm hw x y) b e

/-- Settles O56: each path carries the plain power through its representation. -/
theorem exponentiationPathsAgree : Obligations.ExponentiationPathsAgree := by
  intro width b e m hm hw hb
  refine ⟨modExp_eq hm b e, ?_⟩
  rw [modExpEngine]
  split_ifs with hodd
  · exact modExpMont_eq hodd width b e
  · exact modExpBarrett_eq hm hw hb e

end Sys2Proof.Machine
end

section
/-! PROOFS. `LDR` and `RDR` (20_memory.md R74): a register loaded limb by limb, with its sign, and
read back. -/

namespace Sys2Proof.Machine

theorem bitAt_getLsbD (b : Bool) {i k : Nat} (hk : k < 32) :
    (bitAt b i).getLsbD k = (b && decide (k = i)) := by
  cases b <;> simp [bitAt, hk]

/-- `putBit` replaces one register's bit of the `SIGN` word. -/
theorem putBit_getLsbD (w : Word) (r q : Reg) (b : Bool) :
    (putBit w r b).getLsbD q.val = if q = r then b else w.getLsbD q.val := by
  have hq := q.isLt
  have hbit : (BitVec.twoPow 32 r.val).getLsbD q.val = decide (q = r) := by
    simp [Fin.ext_iff, eq_comm, show q.val < 32 by omega]
  rw [putBit, BitVec.getLsbD_or, BitVec.getLsbD_and, BitVec.getLsbD_not, hbit,
    bitAt_getLsbD b (by omega)]
  by_cases h : q = r
  · simp [h]
  · simp [h, Fin.val_inj, show q.val < 32 by omega]

section
variable {s : State}

theorem hostRead_sign (s : State) :
    hostRead (wordIndex 0x28) s = { s with rdata := s.signWord } := rfl

/-- The write of `SIGN` with one bit replaced changes one sign. -/
theorem hostWrite_sign_putBit (hb : s.busy = false) (r : Reg) (b : Bool) :
    hostWrite (wordIndex 0x28) (putBit s.signWord r b) s =
      { s with regs := s.regs.set r ⟨s.regs[r].mag, b⟩ } := by
  have hregs : (s.writeSigns (putBit s.signWord r b)).regs =
      s.regs.set r ⟨s.regs[r].mag, b⟩ := by
    apply Vector.ext
    intro k hk
    have hreg := State.writeSigns_reg (s := s) (d := putBit s.signWord r b) ⟨k, hk⟩
    rw [putBit_getLsbD, s.signWord_bit] at hreg
    refine hreg.trans ?_
    by_cases h : (⟨k, hk⟩ : Reg) = r
    · subst h
      simp
    · have hne : r.val ≠ k := fun e => h (Fin.ext e.symm)
      simp [h, hne]
  rw [hostWrite, s.locate_sign]
  refine (State.whenIdle_idle hb _).trans ?_
  rw [← hregs]
  rfl

/-- The limbs written make up the magnitude: above them the old one has no bits. -/
theorem loadLimbs_all (hw : s.legalWidth = true) (hb : s.busy = false) (r : Reg)
    (hr : s.regs[r].mag < 2 ^ (32 * s.limbs)) {mag : Nat} (hmag : mag < 2 ^ (32 * s.limbs)) :
    loadLimbs r mag s.limbs 0 s = { s with regs := s.regs.set r ⟨mag, s.regs[r].neg⟩ } := by
  obtain ⟨-, hL⟩ := State.legalWidth_limbs hw
  obtain ⟨m, hload, hbits⟩ := loadLimbs_spec r mag s.limbs 0 s hb hL (by omega)
  have hm : m = mag := by
    apply Nat.eq_of_testBit_eq
    intro k
    rw [hbits]
    split_ifs with hk
    · rfl
    · have hwide : 2 ^ (32 * s.limbs) ≤ 2 ^ k := Nat.pow_le_pow_right (by decide) (by omega)
      rw [Nat.testBit_lt_two_pow (hr.trans_le hwide), Nat.testBit_lt_two_pow (hmag.trans_le hwide)]
  rw [hload, hm]

/-- `LDR`: the register holds the value, and nothing else but the port changes. -/
theorem loadReg_eq (hw : s.legalWidth = true) (hb : s.busy = false) {r : Reg} {v : Int}
    (hr : s.regs[r].mag < 2 ^ (32 * s.limbs)) (hv : v.natAbs < 2 ^ (32 * s.limbs)) :
    ∃ d, loadReg r v s = { s.putReg r v with rdata := d } := by
  refine ⟨State.signWord { s with regs := s.regs.set r ⟨v.natAbs, s.regs[r].neg⟩ }, ?_⟩
  rw [loadReg]
  simp only [hostRead_sign, loadLimbs_all hw hb r hr hv]
  refine (hostWrite_sign_putBit ?_ r (decide (v < 0))).trans ?_
  · exact hb
  · simp [State.putReg]

/-- `RDR`: the value, and nothing but the port changes. -/
theorem readReg_eq (hw : s.legalWidth = true) (hb : s.busy = false) {r : Reg}
    (hr : s.regs[r].mag < 2 ^ (32 * s.limbs)) :
    readReg r s = (s.val r, { s with rdata := s.signWord }) := by
  obtain ⟨-, hL⟩ := State.legalWidth_limbs hw
  obtain ⟨d, hd⟩ := readLimbs_spec r s.limbs 0 s hb hL (by omega)
  rw [Nat.mul_zero, pow_zero, Nat.div_one, Nat.mul_one, Nat.mod_eq_of_lt hr] at hd
  simp only [readReg, hd, hostRead_sign, State.signWord_bit]
  rfl

theorem State.val_putReg_same (s : State) (r : Reg) (v : Int) : (s.putReg r v).val r = v :=
  s.val_wr_same r v

theorem State.putReg_bounded (hs : s.RegsBounded) {v : Int} (hv : v.natAbs < 2 ^ (32 * s.limbs))
    (r : Reg) : (s.putReg r v).RegsBounded :=
  hs.wr hv r

end

/-- Settles O57: what `LDR` leaves is a register with the value, and `RDR` yields a register's
value. -/
theorem loadedRegistersReadBack : Obligations.LoadedRegistersReadBack := by
  intro s r v hw hb hs hv
  obtain ⟨d, hload⟩ := loadReg_eq hw hb (hs r) hv
  refine ⟨⟨d, hload⟩, ?_⟩
  have hread := readReg_eq (s := loadReg r v s) (r := r) (hload ▸ hw) (hload ▸ hb)
    (hload ▸ State.putReg_bounded hs hv r r)
  rw [hread, hload]
  exact s.val_putReg_same r v

end Sys2Proof.Machine
end

section
/-! PROOFS. The Transcoder (46_host_procedures.md R250 to R253): bytes and integers, text and bytes,
each way. -/

namespace Sys2Proof.Machine

/-! Bytes and integers. -/

theorem bytesToInteger_append (bs : List Byte) (b : Byte) :
    bytesToInteger (bs ++ [b]) = 256 * bytesToInteger bs + b.toNat := by
  simp [bytesToInteger]

theorem bytesToInteger_zero_cons (bs : List Byte) :
    bytesToInteger (0#8 :: bs) = bytesToInteger bs := by
  simp [bytesToInteger]

theorem bytesToInteger_lt (bs : List Byte) : bytesToInteger bs < 256 ^ bs.length := by
  induction bs using List.reverseRecOn with
  | nil => simp [bytesToInteger]
  | append_singleton bs b ih =>
    have hb := b.isLt
    rw [bytesToInteger_append, List.length_append, List.length_singleton, pow_succ]
    omega

/-- The first byte is the most significant. -/
theorem bytesToInteger_cons (b : Byte) (bs : List Byte) :
    bytesToInteger (b :: bs) = b.toNat * 256 ^ bs.length + bytesToInteger bs := by
  induction bs using List.reverseRecOn with
  | nil => simp [bytesToInteger]
  | append_singleton bs c ih =>
    rw [← List.cons_append, bytesToInteger_append, ih, bytesToInteger_append, List.length_append,
      List.length_singleton, pow_succ]
    ring

/-- The lowest `len` bytes of `v`, the most significant first (46_host_procedures.md R251). -/
def bigEndian (len v : Nat) : List Byte :=
  (List.range len).map fun j => BitVec.ofNat 8 (v / 256 ^ (len - 1 - j))

theorem integerToBytes_eq (v : Nat) : integerToBytes v = bigEndian ((bitlen v + 7) / 8) v := rfl

theorem bigEndian_succ (len v : Nat) :
    bigEndian (len + 1) v = bigEndian len (v / 256) ++ [BitVec.ofNat 8 v] := by
  have hfront : ∀ j ∈ List.range len, BitVec.ofNat 8 (v / 256 ^ (len + 1 - 1 - j)) =
      BitVec.ofNat 8 (v / 256 / 256 ^ (len - 1 - j)) := by
    intro j hj
    rw [List.mem_range] at hj
    rw [Nat.div_div_eq_div_mul, ← pow_succ', show len - 1 - j + 1 = len + 1 - 1 - j by omega]
  rw [bigEndian, List.range_succ, List.map_append, List.map_congr_left hfront]
  simp [bigEndian]

theorem bytesToInteger_bigEndian (len v : Nat) :
    bytesToInteger (bigEndian len v) = v % 256 ^ len := by
  induction len generalizing v with
  | zero => simp [bigEndian, bytesToInteger, Nat.mod_one]
  | succ len ih =>
    rw [bigEndian_succ, bytesToInteger_append, ih, pow_succ', Nat.mod_mul, BitVec.toNat_ofNat]
    omega

theorem bigEndian_bytesToInteger (bs : List Byte) :
    bigEndian bs.length (bytesToInteger bs) = bs := by
  induction bs using List.reverseRecOn with
  | nil => rfl
  | append_singleton bs b ih =>
    have hb := b.isLt
    have hlow : BitVec.ofNat 8 (256 * bytesToInteger bs + b.toNat) = b := by
      apply BitVec.eq_of_toNat_eq
      rw [BitVec.toNat_ofNat]
      omega
    rw [List.length_append, List.length_singleton, bytesToInteger_append, bigEndian_succ, hlow,
      show (256 * bytesToInteger bs + b.toNat) / 256 = bytesToInteger bs by omega, ih]

theorem pow_256_eq (len : Nat) : 256 ^ len = 2 ^ (8 * len) := by
  rw [pow_mul]
  norm_num

theorem bytesToInteger_integerToBytes (v : Nat) : bytesToInteger (integerToBytes v) = v := by
  rw [integerToBytes_eq, bytesToInteger_bigEndian, pow_256_eq]
  exact Nat.mod_eq_of_lt ((lt_two_pow_bitlen v).trans_le
    (Nat.pow_le_pow_right (by decide) (by omega)))

/-- A sequence that does not begin with a zero byte is as short as its integer allows. -/
theorem bitlen_bytesToInteger {b : Byte} {bs : List Byte} (hb : b ≠ 0#8) :
    (bitlen (bytesToInteger (b :: bs)) + 7) / 8 = (b :: bs).length := by
  have hpos : 1 ≤ b.toNat :=
    Nat.one_le_iff_ne_zero.mpr fun h => hb (BitVec.eq_of_toNat_eq h)
  have hlo : 2 ^ (8 * bs.length) ≤ bytesToInteger (b :: bs) := by
    rw [bytesToInteger_cons, ← pow_256_eq]
    nlinarith [Nat.mul_le_mul_right (256 ^ bs.length) hpos]
  have hhi : bytesToInteger (b :: bs) < 2 ^ (8 * (bs.length + 1)) :=
    pow_256_eq (bs.length + 1) ▸ bytesToInteger_lt (b :: bs)
  have hne : bytesToInteger (b :: bs) ≠ 0 := by
    have : 0 < 2 ^ (8 * bs.length) := by positivity
    omega
  have hgt : 8 * bs.length < bitlen (bytesToInteger (b :: bs)) :=
    (Nat.pow_lt_pow_iff_right (by decide)).mp (hlo.trans_lt (lt_two_pow_bitlen _))
  have hle : bitlen (bytesToInteger (b :: bs)) - 1 < 8 * (bs.length + 1) :=
    (Nat.pow_lt_pow_iff_right (by decide)).mp ((two_pow_le_of_bitlen hne).trans_lt hhi)
  rw [List.length_cons]
  omega

theorem integerToBytes_bytesToInteger (bs : List Byte) :
    integerToBytes (bytesToInteger bs) = bs.dropWhile (· == 0#8) := by
  induction bs with
  | nil => rfl
  | cons b bs ih =>
    by_cases hb : b = 0#8
    · rw [hb, bytesToInteger_zero_cons, ih, List.dropWhile_cons_of_pos (by decide)]
    · rw [List.dropWhile_cons_of_neg (by simpa using hb), integerToBytes_eq,
        bitlen_bytesToInteger hb]
      exact bigEndian_bytesToInteger (b :: bs)

/-! Text and bytes. -/

theorem utf8_cons (c : Char) (text : List Char) : utf8 (c :: text) = utf8Char c ++ utf8 text := rfl

theorem utf8Char_ne_nil (c : Char) : utf8Char c ≠ [] := by
  unfold utf8Char
  dsimp only
  split_ifs <;> exact List.cons_ne_nil _ _

theorem length_le_length_utf8 (text : List Char) : text.length ≤ (utf8 text).length := by
  induction text with
  | nil => exact le_rfl
  | cons c text ih =>
    have := List.length_pos_of_ne_nil (utf8Char_ne_nil c)
    rw [utf8_cons, List.length_append, List.length_cons]
    omega

theorem utf8DecodeFuel_utf8 {fuel : Nat} {text : List Char} (h : text.length ≤ fuel) :
    utf8DecodeFuel fuel (utf8 text) = some text := by
  induction text generalizing fuel with
  | nil => cases fuel <;> rfl
  | cons c text ih =>
    obtain ⟨fuel, rfl⟩ := Nat.exists_eq_add_of_le' (show 1 ≤ fuel by simp at h; omega)
    have hhead := utf8Head_char c (utf8 text)
    obtain ⟨b, bs, hbytes⟩ := List.exists_cons_of_ne_nil (utf8Char_ne_nil c)
    rw [utf8_cons]
    rw [hbytes, List.cons_append] at hhead ⊢
    rw [utf8DecodeFuel, hhead]
    simp only [ih (fuel := fuel) (by simpa using h), Option.map_some]

theorem utf8Decode_utf8 (text : List Char) : utf8Decode (utf8 text) = some text :=
  utf8DecodeFuel_utf8 (length_le_length_utf8 text)

/-- Only U+0000 has a UTF-8 that begins with a zero byte. -/
theorem utf8Char_head_ne_zero {c : Char} (hc : c ≠ Char.ofNat 0) :
    (utf8Char c).head? ≠ some 0#8 := by
  have hpos : c.toNat ≠ 0 := fun h => hc (Char.ext (UInt32.toNat_inj.mp h))
  have hlt : c.toNat < 0x110000 := by
    obtain h | ⟨-, h⟩ := c.valid
    · exact h.trans (by decide)
    · exact h
  have hbyte {n : Nat} (h0 : 0 < n) (hn : n < 256) : BitVec.ofNat 8 n ≠ 0#8 := by
    intro h
    have := congrArg BitVec.toNat h
    rw [BitVec.toNat_ofNat, BitVec.toNat_ofNat] at this
    omega
  unfold utf8Char
  dsimp only
  split_ifs <;> (rw [List.head?_cons, ne_eq, Option.some_inj]; exact hbyte (by omega) (by omega))

theorem dropWhile_zero_utf8 {text : List Char} (h : text.head? ≠ some (Char.ofNat 0)) :
    (utf8 text).dropWhile (· == 0#8) = utf8 text := by
  cases text with
  | nil => rfl
  | cons c text =>
    have hc : c ≠ Char.ofNat 0 := fun hc => h (by rw [hc, List.head?_cons])
    have hhead := utf8Char_head_ne_zero hc
    obtain ⟨b, bs, hbytes⟩ := List.exists_cons_of_ne_nil (utf8Char_ne_nil c)
    rw [hbytes, List.head?_cons, ne_eq, Option.some_inj] at hhead
    rw [utf8_cons, hbytes, List.cons_append, List.dropWhile_cons_of_neg (by simpa using hhead)]

theorem decodeMessage_utf8 {text : List Char} (h : text.head? ≠ some (Char.ofNat 0)) :
    decodeMessage (bytesToInteger (utf8 text)) = .ok text := by
  rw [decodeMessage, integerToBytes_bytesToInteger, dropWhile_zero_utf8 h, utf8Decode_utf8]

theorem encodeMessage_of_lt {text : List Char} {n : Int}
    (h : (bytesToInteger (utf8 text) : Int) < n) :
    encodeMessage text n = .ok (bytesToInteger (utf8 text)) :=
  if_neg (by omega)

/-- Settles O58: the bytes of an integer are a minimal sequence, and a text that does not begin with
U+0000 has minimal bytes. -/
theorem transcoderRoundTrips : Obligations.TranscoderRoundTrips :=
  ⟨bytesToInteger_integerToBytes, integerToBytes_bytesToInteger, utf8Decode_utf8, fun _ _ htext =>
    ⟨fun hlt => ⟨encodeMessage_of_lt hlt, decodeMessage_utf8 htext⟩, fun hge => if_pos hge⟩⟩

end Sys2Proof.Machine
end

section
/-! PROOFS. The host's procedures (46_host_procedures.md R230, R255 to R257) over a bench they can
start on, and the round trips of the Cipher Engine (R260). -/

namespace Sys2Proof.Machine

/-! What a procedure keeps of a bench. -/

/-- From one bench to another: it is still one a procedure can start on, of the same width and
settings, the registers outside `ds` have their values, and the queue of words is at most
shortened. -/
structure Bench.Evolves (ds : List Reg) (b b' : Bench) : Prop where
  ready : b'.Ready
  limbs : b'.block.limbs = b.block.limbs
  vals : ∀ r, r ∉ ds → b'.block.val r = b.block.val r
  mrk : b'.block.mrk = b.block.mrk
  pbits : b'.block.pbits = b.block.pbits
  words : b'.block.rng <:+ b.block.rng

theorem Bench.Evolves.trans {ds ds' : List Reg} {b b' b'' : Bench} (h : b.Evolves ds b')
    (h' : b'.Evolves ds' b'') : b.Evolves (ds ++ ds') b'' where
  ready := h'.ready
  limbs := h'.limbs.trans h.limbs
  vals r hr := by
    rw [List.mem_append, not_or] at hr
    exact (h'.vals r hr.2).trans (h.vals r hr.1)
  mrk := h'.mrk.trans h.mrk
  pbits := h'.pbits.trans h.pbits
  words := h'.words.trans h.words

theorem Bench.Evolves.mono {ds ds' : List Reg} {b b' : Bench} (h : b.Evolves ds b')
    (hsub : ds ⊆ ds') : b.Evolves ds' b' :=
  { h with vals := fun r hr => h.vals r fun hmem => hr (hsub hmem) }

section
variable {b : Bench}

theorem Bench.Ready.evolves (hb : b.Ready) : b.Evolves [] b where
  ready := hb
  limbs := rfl
  vals _ _ := rfl
  mrk := rfl
  pbits := rfl
  words := List.suffix_refl _

theorem State.val_accept (s : State) (d : Word) (r : Reg) : (s.accept d).val r = s.val r := rfl

/-! `LDR` and `RDR`. -/

theorem procLoad_ok (hb : b.Ready) {v : Int} (hv : v.natAbs < 2 ^ (32 * b.block.limbs)) (r : Reg) :
    ∃ b', procLoad r v b = .ok () b' ∧ b.Evolves [r] b' ∧ b'.block.val r = v := by
  obtain ⟨hw, hidle, herr, hregs⟩ := hb
  obtain ⟨d, hload⟩ := loadReg_eq hw hidle (hregs r) hv
  refine ⟨{ b with block := { b.block.putReg r v with rdata := d } }, ?_, ?_,
    b.block.val_putReg_same r v⟩
  · rw [procLoad, if_pos ((b.block.fits_iff v).mpr hv), hload]
  · exact
      { ready := ⟨hw, hidle, herr, State.putReg_bounded hregs hv r⟩
        limbs := rfl
        vals := fun q hq => b.block.val_wr_other v fun h => hq (h ▸ List.mem_singleton_self q)
        mrk := rfl
        pbits := rfl
        words := List.suffix_refl _ }

theorem procLoad_inv (hb : b.Ready) {r : Reg} {v : Int} {u : Unit} {b' : Bench}
    (h : procLoad r v b = .ok u b') : b.Evolves [r] b' ∧ b'.block.val r = v := by
  by_cases hfits : b.block.fits v = true
  · obtain ⟨b'', hok, hevolves⟩ := procLoad_ok hb ((b.block.fits_iff v).mp hfits) r
    rw [hok] at h
    cases h
    exact hevolves
  · rw [procLoad, if_neg hfits] at h
    cases h

theorem procRead_ok (hb : b.Ready) (r : Reg) :
    ∃ b', procRead r b = .ok (b.block.val r) b' ∧ b.Evolves [] b' := by
  obtain ⟨hw, hidle, herr, hregs⟩ := hb
  refine ⟨{ b with block := { b.block with rdata := b.block.signWord } }, ?_, ?_⟩
  · rw [procRead, readReg_eq hw hidle (hregs r)]
  · exact { Bench.Ready.evolves ⟨hw, hidle, herr, hregs⟩ with
      ready := ⟨hw, hidle, herr, hregs⟩, vals := fun _ _ => rfl }

theorem procRead_inv (hb : b.Ready) {r : Reg} {v : Int} {b' : Bench}
    (h : procRead r b = .ok v b') : v = b.block.val r ∧ b.Evolves [] b' := by
  obtain ⟨b'', hok, hevolves⟩ := procRead_ok hb r
  rw [hok] at h
  cases h
  exact ⟨rfl, hevolves⟩

/-! `Run(C)`. -/

/-- A command consumes words from the front of the queue. -/
theorem exec_rng_suffix {i : Instr} {s t : State} (h : exec i s = .next t) : t.rng <:+ s.rng := by
  by_cases hsame : t.rng = s.rng
  · rw [hsame]
  · exact (exec_takes_words h hsame).1

/-- A completion without an error leaves a bench as ready as it was. -/
theorem evolves_of_exec (hb : b.Ready) {i : Instr} {t : State}
    (hexec : exec i (b.block.accept (encode i)) = .next t) (hidle : t.busy = false)
    (herr : t.err = false) (d : Word) :
    b.Evolves i.dests { b with block := { t with rdata := d } } := by
  obtain ⟨hw, -, -, hregs⟩ := hb
  obtain ⟨hlo, -⟩ := State.legalWidth_limbs hw
  obtain ⟨⟨hlimbs, -, -, -, -, hmrk, hpbits, -⟩, hkept, -⟩ :=
    commandsKeepEverythingElse i _ t hexec
  have hwords : t.rng <:+ b.block.rng :=
    exec_rng_suffix (s := b.block.accept (encode i)) hexec
  have hbounded : t.RegsBounded := exec_keeps_RegsBounded (s := b.block.accept (encode i))
    (by rw [State.accept_limbs]; omega) hregs hexec
  refine ⟨⟨?_, hidle, herr, ?_⟩, hlimbs, fun r hr => ?_, hmrk, hpbits, hwords⟩
  · rw [State.legalWidth] at hw ⊢
    exact hlimbs ▸ hw
  · exact hbounded
  · exact congrArg BigReg.val (hkept r hr)

/-- `Run(C)` yields a result exactly where the command completes without an error. -/
theorem procRun_inv (hb : b.Ready) {i : Instr} (hwf : i.wf = true) {w : Word} {b' : Bench}
    (h : procRun i b = .ok w b') :
    ∃ t, exec i (b.block.accept (encode i)) = .next t ∧ t.busy = false ∧ t.err = false ∧
      w = t.statusWord ∧ b' = { b with block := { t with rdata := t.statusWord } } := by
  obtain ⟨-, hidle, herr, -⟩ := hb
  obtain ⟨t, hturn⟩ := engineTurn_total (b.block.accept (encode i))
  have hwait : waitStatus (issue i b.block) = { t with rdata := t.statusWord } := by
    rw [issue_idle hidle herr, waitStatus, afterTurn, hturn, hostRead, t.locate_status]
    rfl
  have hdec : decode (b.block.accept (encode i)).cmdreg = .ok i := decodeOfEncodeIsIdentity i hwf
  rw [engineTurn_decoded rfl hdec] at hturn
  obtain ⟨h0, h2, -⟩ := t.statusWord_bits
  rw [procRun, hwait] at h
  simp only [h0, h2] at h
  split_ifs at h with hbusy hfailed
  obtain ⟨hw, hb'⟩ := Ran.ok.inj h
  exact ⟨t, hturn, Bool.eq_false_iff.mpr hbusy, Bool.eq_false_iff.mpr hfailed, hw.symm, hb'.symm⟩

theorem procRun_evolves (hb : b.Ready) {i : Instr} (hwf : i.wf = true) {w : Word} {b' : Bench}
    (h : procRun i b = .ok w b') : b.Evolves i.dests b' := by
  obtain ⟨t, hexec, hidle, herr, -, rfl⟩ := procRun_inv hb hwf h
  exact evolves_of_exec hb hexec hidle herr _

/-! `Run(MODEXP)` on loaded operands (46_host_procedures.md R255, R256). -/

theorem procRun_modexp_ok (hb : b.Ready) (rd : Reg) {ra rb rc : Reg} {base exponent modulus : Nat}
    (hbase : b.block.val ra = base) (hexponent : b.block.val rb = exponent)
    (hmodulus : b.block.val rc = modulus) (hpos : 1 ≤ modulus) :
    ∃ w b', procRun (.modexp rd ra rb rc) b = .ok w b' ∧ b.Evolves [rd] b' ∧
      b'.block.val rd = (modExp base exponent modulus : Nat) := by
  obtain ⟨-, hidle, herr, -⟩ := id hb
  have hexec := exec_modexp rd ra rb rc (b.block.accept (encode (.modexp rd ra rb rc)))
  rw [State.val_accept, State.val_accept, State.val_accept, hbase, hexponent, hmodulus,
    settle_writeInDomain (modexpDomain_iff.mpr (by omega))] at hexec
  have hok := procRun_ok hidle herr (decodeOfEncodeIsIdentity _ rfl) hexec rfl herr
  exact ⟨_, _, hok, procRun_evolves hb rfl hok, State.val_putReg_same _ _ _⟩

theorem procModexp_ok (hb : b.Ready) {ra rb rc : Reg} (rd : Reg) (hab : ra ≠ rb) (hac : ra ≠ rc)
    (hbc : rb ≠ rc) {base exponent modulus : Nat} (hpos : 1 ≤ modulus)
    (hbase : base < 2 ^ (32 * b.block.limbs)) (hexponent : exponent < 2 ^ (32 * b.block.limbs))
    (hmodulus : modulus < 2 ^ (32 * b.block.limbs)) :
    ∃ b', procModexp ra rb rc rd base exponent modulus b =
        .ok (modExp base exponent modulus : Nat) b' ∧
      b'.Ready ∧ b'.block.limbs = b.block.limbs := by
  obtain ⟨b1, hload1, h1, hval1⟩ := procLoad_ok hb (v := base) hbase ra
  obtain ⟨b2, hload2, h2, hval2⟩ := procLoad_ok h1.ready (v := exponent) (h1.limbs ▸ hexponent) rb
  obtain ⟨b3, hload3, h3, hval3⟩ :=
    procLoad_ok h2.ready (v := modulus) ((h1.trans h2).limbs ▸ hmodulus) rc
  have hra : b3.block.val ra = base := by
    rw [(h2.trans h3).vals ra (by simp [hab, hac]), hval1]
  have hrb : b3.block.val rb = exponent := by rw [h3.vals rb (by simp [hbc]), hval2]
  obtain ⟨w, b4, hrun, h4, hval4⟩ := procRun_modexp_ok h3.ready rd hra hrb hval3 hpos
  obtain ⟨b5, hread, h5⟩ := procRead_ok h4.ready rd
  refine ⟨b5, ?_, h5.ready, (((h1.trans h2).trans h3).trans (h4.trans h5)).limbs⟩
  simp only [procModexp, hload1, hload2, hload3, hrun, hread, hval4, Ran.andThen]

end

/-! The exponents undo each other (46_host_procedures.md R260). -/

/-- An exponent that is 1 modulo `p - 1` fixes every residue of the prime `p`. -/
theorem pow_modEq_self {p k : Nat} (hp : p.Prime) (hk : 1 ≤ k) (h : k ≡ 1 [MOD p - 1]) (m : Nat) :
    m ^ k ≡ m [MOD p] := by
  have := Fact.mk hp
  rw [← ZMod.natCast_eq_natCast_iff, Nat.cast_pow]
  obtain ⟨c, hc⟩ := (Nat.modEq_iff_dvd' hk).mp h.symm
  rw [show k = (p - 1) * c + 1 by omega, pow_succ, pow_mul]
  by_cases hm : (m : ZMod p) = 0
  · rw [hm, mul_zero]
  · rw [ZMod.pow_card_sub_one_eq_one hm, one_pow, one_mul]

section
variable {p q e d : Nat} (hp : p.Prime) (hq : q.Prime) (hpq : p ≠ q)
  (hed : e * d % ((p - 1) * (q - 1)) = 1 % ((p - 1) * (q - 1)))
include hp hq hpq hed

/-- Two different primes are not both 2, so their totient is above 1. -/
theorem exponents_pos : 1 ≤ e * d := by
  have hp2 := hp.two_le
  have hq2 := hq.two_le
  have htotient : 1 < (p - 1) * (q - 1) := by
    obtain h | h : 2 ≤ p - 1 ∨ 2 ≤ q - 1 := by omega
    · exact h.trans (Nat.le_mul_of_pos_right _ (by omega))
    · exact h.trans (Nat.le_mul_of_pos_left _ (by omega))
  by_contra hzero
  rw [show e * d = 0 by omega, Nat.zero_mod, Nat.mod_eq_of_lt htotient] at hed
  cases hed

theorem modExp_modExp {m : Nat} (hm : m < p * q) :
    modExp (modExp m e (p * q)) d (p * q) = m := by
  have hpos := exponents_pos hp hq hpq hed
  have hn : 1 ≤ p * q := Nat.mul_pos hp.pos hq.pos
  have hmodp : m ^ (e * d) ≡ m [MOD p] :=
    pow_modEq_self hp hpos (Nat.ModEq.of_mul_right (q - 1) hed) m
  have hmodq : m ^ (e * d) ≡ m [MOD q] :=
    pow_modEq_self hq hpos (Nat.ModEq.of_mul_left (p - 1) hed) m
  have hmod : m ^ (e * d) ≡ m [MOD p * q] :=
    (Nat.modEq_and_modEq_iff_modEq_mul ((Nat.coprime_primes hp hq).mpr hpq)).mp ⟨hmodp, hmodq⟩
  rw [modExp_eq hn, modExp_eq hn, ← Nat.pow_mod, ← pow_mul]
  exact Eq.trans hmod (Nat.mod_eq_of_lt hm)

end

/-! A key in use (46_host_procedures.md R255 to R257). -/

/-- The bytes of a text that is not empty and does not begin with U+0000 have a positive integer. -/
theorem bytesToInteger_utf8_pos {text : List Char} (hne : text ≠ [])
    (h : text.head? ≠ some (Char.ofNat 0)) : 0 < bytesToInteger (utf8 text) := by
  refine Nat.pos_of_ne_zero fun hzero => ?_
  have hbytes := integerToBytes_bytesToInteger (utf8 text)
  rw [hzero, dropWhile_zero_utf8 h] at hbytes
  have hlen := length_le_length_utf8 text
  rw [← hbytes] at hlen
  exact hne (List.eq_nil_of_length_eq_zero (Nat.le_zero.mp hlen))

section
variable {k : KeyUse} {b : Bench}

theorem KeyUse.encrypt_ok (hb : b.Ready) (hk : k.Fits b) {m : Nat} (hpos : 0 < m) (hm : m < k.n) :
    ∃ b', k.encrypt m b = .ok (modExp m k.e k.n : Nat) b' ∧ b'.Ready ∧
      b'.block.limbs = b.block.limbs := by
  obtain ⟨hab, hac, hbc, hn, he, -⟩ := hk
  rw [KeyUse.encrypt, encryptInteger, if_pos (by omega)]
  exact procModexp_ok hb k.rd hab hac hbc (by omega) (hm.trans hn) he hn

theorem KeyUse.decrypt_ok (hb : b.Ready) (hk : k.Fits b) {c : Nat} (hc : c < k.n) :
    ∃ b', k.decrypt c b = .ok (modExp c k.d k.n : Nat) b' ∧ b'.Ready ∧
      b'.block.limbs = b.block.limbs := by
  obtain ⟨hab, hac, hbc, hn, -, hd⟩ := hk
  exact procModexp_ok hb k.rd hab hac hbc (by omega) (hc.trans hn) hd hn

theorem KeyUse.encryptText_ok (hb : b.Ready) (hk : k.Fits b) {text : List Char} (hne : text ≠ [])
    (htext : text.head? ≠ some (Char.ofNat 0)) (hlt : bytesToInteger (utf8 text) < k.n) :
    ∃ b', k.encryptText text b = .ok (modExp (bytesToInteger (utf8 text)) k.e k.n : Nat) b' ∧
      b'.Ready ∧ b'.block.limbs = b.block.limbs := by
  obtain ⟨b', hok, hb'⟩ := KeyUse.encrypt_ok hb hk (bytesToInteger_utf8_pos hne htext) hlt
  refine ⟨b', ?_, hb'⟩
  rw [KeyUse.encryptText, encryptMessage, encodeMessage_of_lt (by omega)]
  exact hok

theorem KeyUse.decryptText_ok (hb : b.Ready) (hk : k.Fits b) {text : List Char}
    (htext : text.head? ≠ some (Char.ofNat 0)) {c : Nat} (hc : c < k.n)
    (hplain : modExp c k.d k.n = bytesToInteger (utf8 text)) :
    ∃ b', k.decryptText c b = .ok text b' ∧ b'.Ready ∧ b'.block.limbs = b.block.limbs := by
  obtain ⟨b', hok, hb'⟩ := KeyUse.decrypt_ok hb hk hc
  refine ⟨b', ?_, hb'⟩
  have hdecrypt : decryptInteger k.ra k.rb k.rc k.rd c k.d k.n b =
      .ok (modExp c k.d k.n : Nat) b' := hok
  simp only [KeyUse.decryptText, decryptMessage, hdecrypt, Ran.andThen, hplain, Int.toNat_natCast,
    decodeMessage_utf8 htext]

/-- What two exponents of a key do: the second undoes the first below the modulus. -/
def KeyUse.Undoes (k : KeyUse) : Prop := ∀ m < k.n, modExp (modExp m k.e k.n) k.d k.n = m

theorem KeyUse.cipher_lt {m : Nat} (hm : m < k.n) : modExp m k.e k.n < k.n := by
  rw [modExp_eq (by omega)]
  exact Nat.mod_lt _ (by omega)

theorem KeyUse.Fits.of_limbs {b' : Bench} (hk : k.Fits b)
    (h : b'.block.limbs = b.block.limbs) : k.Fits b' := by
  rw [KeyUse.Fits, h]
  exact hk

section
variable (hundoes : k.Undoes) (hb : b.Ready) (hk : k.Fits b)
include hundoes hb hk

theorem KeyUse.integersRoundTrip : k.IntegersRoundTrip b := by
  intro m hpos hm
  obtain ⟨b1, hencrypt, hb1, hlimbs⟩ := KeyUse.encrypt_ok hb hk hpos hm
  obtain ⟨b2, hdecrypt, -⟩ := KeyUse.decrypt_ok hb1 (hk.of_limbs hlimbs) (KeyUse.cipher_lt hm)
  rw [hundoes m hm] at hdecrypt
  exact ⟨b1, b2, hencrypt, hdecrypt⟩

theorem KeyUse.textsRoundTrip : k.TextsRoundTrip b := by
  intro text hne htext hlt
  obtain ⟨b1, hencrypt, hb1, hlimbs⟩ := KeyUse.encryptText_ok hb hk hne htext hlt
  obtain ⟨b2, hdecrypt, -⟩ := KeyUse.decryptText_ok hb1 (hk.of_limbs hlimbs) htext
    (KeyUse.cipher_lt hlt) (hundoes _ hlt)
  exact ⟨_, b1, b2, hencrypt, hdecrypt⟩

/-- Two texts have different ciphertexts because each comes back. -/
theorem KeyUse.scenarioHolds (hn : 18538 < k.n) : k.ScenarioHolds b := by
  have hHi : bytesToInteger (utf8 ['H', 'i']) = 18537 := by decide
  have hHj : bytesToInteger (utf8 ['H', 'j']) = 18538 := by decide
  obtain ⟨b1, henc1, hb1, hl1⟩ :=
    KeyUse.encryptText_ok hb hk (text := ['H', 'i']) (by decide) (by decide) (by omega)
  obtain ⟨b2, henc2, hb2, hl2⟩ := KeyUse.encryptText_ok hb1 (hk.of_limbs hl1) (text := ['H', 'i'])
    (by decide) (by decide) (by omega)
  have hk2 := hk.of_limbs (hl2.trans hl1)
  obtain ⟨b3, hdec, hb3, hl3⟩ := KeyUse.decryptText_ok hb2 hk2 (text := ['H', 'i']) (by decide)
    (KeyUse.cipher_lt (by omega)) (hundoes _ (by omega))
  obtain ⟨b4, henc3, -⟩ := KeyUse.encryptText_ok hb3 (hk2.of_limbs hl3) (text := ['H', 'j'])
    (by decide) (by decide) (by omega)
  refine ⟨_, _, b1, b2, b3, b4, henc1, henc2, hdec, henc3, fun heq => ?_⟩
  have hback := hundoes (bytesToInteger (utf8 ['H', 'j'])) (by omega)
  rw [Int.natCast_inj.mp heq, hundoes _ (by omega), hHi, hHj] at hback
  exact absurd hback (by decide)

end

theorem KeyUse.boundaryHolds (k : KeyUse) (b : Bench) : k.BoundaryHolds b := fun _ hout =>
  if_neg (by omega)

end

/-- Settles O59: for true primes the exponents undo each other, and the procedures compute the
powers. -/
theorem decryptionUndoesEncryption : Obligations.DecryptionUndoesEncryption := by
  intro p q e d hp hq hpq hed
  have hundoes : ∀ m < p * q, modExp (modExp m e (p * q)) d (p * q) = m :=
    fun m hm => modExp_modExp hp hq hpq hed hm
  refine ⟨hundoes, fun ra rb rc rd b hb hk => ?_⟩
  have hkey : KeyUse.Undoes ⟨ra, rb, rc, rd, p * q, e, d⟩ := hundoes
  exact ⟨KeyUse.integersRoundTrip hkey hb hk, KeyUse.boundaryHolds _ b,
    KeyUse.textsRoundTrip hkey hb hk, KeyUse.scenarioHolds hkey hb hk⟩

end Sys2Proof.Machine
end

section
/-! PROOFS. The key pair factory (46_host_procedures.md R235 to R242): what each command of the
procedure leaves, the exponent selector, and the invariants of the pair (R241). -/

namespace Sys2Proof.Machine

theorem Ran.andThen_eq_ok {α β : Type} {r : Ran α} {f : α → Bench → Ran β} {v : β} {b : Bench}
    (h : r.andThen f = .ok v b) : ∃ u b', r = .ok u b' ∧ f u b' = .ok v b := by
  cases r with
  | ok u b' => exact ⟨u, b', rfl, h⟩
  | failed e b' => cases h
  | hangs b' => cases h

/-! What a command's success says. -/

section
variable {b b' : Bench} {w : Word} (hb : b.Ready)
include hb

/-- `ADD`, `SUB` and `MUL` succeed with the exact result. -/
theorem procRun_checked {i : Instr} {rd : Reg} {v : Int} (hwf : i.wf = true)
    (hexec : ∀ s : State, (∀ r, s.val r = b.block.val r) →
      exec i s = settle s (writeChecked s rd v))
    (h : procRun i b = .ok w b') : b.Evolves i.dests b' ∧ b'.block.val rd = v := by
  refine ⟨procRun_evolves hb hwf h, ?_⟩
  obtain ⟨t, hrun, -, herr, -, rfl⟩ := procRun_inv hb hwf h
  rw [hexec _ fun r => b.block.val_accept _ r] at hrun
  obtain ⟨hfits, hover⟩ := settle_writeChecked rd (b.block.accept (encode i)) v
  obtain hlt | hge := Nat.lt_or_ge v.natAbs (2 ^ (32 * (b.block.accept (encode i)).limbs))
  · rw [hfits hlt] at hrun
    cases hrun
    exact State.val_putReg_same _ rd v
  · rw [hover hge] at hrun
    cases hrun
    cases herr

theorem procRun_mul {rd x y : Reg} (h : procRun (.mul rd x y) b = .ok w b') :
    b.Evolves [rd] b' ∧ b'.block.val rd = b.block.val x * b.block.val y :=
  procRun_checked hb rfl (fun s hs => by rw [exec_mul, hs, hs]) h

theorem procRun_sub {rd x y : Reg} (h : procRun (.sub rd x y) b = .ok w b') :
    b.Evolves [rd] b' ∧ b'.block.val rd = b.block.val x - b.block.val y :=
  procRun_checked hb rfl (fun s hs => by rw [exec_sub, hs, hs]) h

/-- `STATUS` after a `CMP` tells whether the values are equal. -/
theorem procRun_cmp {x y : Reg} (h : procRun (.cmp x y) b = .ok w b') :
    b.Evolves [] b' ∧ (w.getLsbD 5 = true ↔ b.block.val x = b.block.val y) := by
  refine ⟨procRun_evolves hb rfl h, ?_⟩
  obtain ⟨t, hrun, -, -, rfl, rfl⟩ := procRun_inv hb rfl h
  rw [exec_cmp] at hrun
  cases hrun
  obtain ⟨-, -, hzero⟩ := State.statusWord_bits _
  rw [hzero]
  exact decide_eq_true_iff

/-- `XGCD` succeeds with the gcd of non-negative values. -/
theorem procRun_xgcd {rd rx ry x y : Reg} (hwf : (Instr.xgcd rd rx ry x y).wf = true)
    (h : procRun (.xgcd rd rx ry x y) b = .ok w b') :
    b.Evolves [rd, rx, ry] b' ∧ b'.block.val rd = Int.gcd (b.block.val x) (b.block.val y) := by
  refine ⟨procRun_evolves hb hwf h, ?_⟩
  obtain ⟨t, hrun, -, herr, -, rfl⟩ := procRun_inv hb hwf h
  obtain ⟨hdx, hdy, -⟩ := distinctDests_iff.mp hwf
  by_cases hin : xgcdDomain (b.block.val x) (b.block.val y) = true
  · obtain ⟨hx, hy⟩ := xgcdDomain_iff.mp hin
    rw [exec_xgcd_of_val (s := b.block.accept _) hwf (a := (b.block.val x).toNat)
      (b := (b.block.val y).toNat) (Int.toNat_of_nonneg hx).symm
      (Int.toNat_of_nonneg hy).symm] at hrun
    cases hrun
    rw [← xgcd_fst_toNat hx hy]
    refine (State.val_wr_other _ _ hdy).trans ((State.val_wr_other _ _ hdx).trans ?_)
    exact State.val_wr_same _ rd _
  · rw [exec_xgcd_of_not_domain (s := b.block.accept _) hwf hin] at hrun
    cases hrun
    cases herr

/-- `MODINV` succeeds with an inverse, where there is one. -/
theorem procRun_modinv {rd x y : Reg} (h : procRun (.modinv rd x y) b = .ok w b') :
    b.Evolves [rd] b' ∧ ∃ a m : Nat, b.block.val x = a ∧ b.block.val y = m ∧ 1 ≤ m ∧
      Nat.gcd a m = 1 ∧ b'.block.val rd = (inverseMod a m : Nat) := by
  refine ⟨procRun_evolves hb rfl h, ?_⟩
  obtain ⟨t, hrun, -, herr, -, rfl⟩ := procRun_inv hb rfl h
  by_cases hin : modinvDomain (b.block.val x) (b.block.val y) = true
  · obtain ⟨hx, hy⟩ := modinvDomain_iff.mp hin
    obtain ⟨a, ha⟩ := Int.eq_ofNat_of_zero_le hx
    obtain ⟨m, hm⟩ := Int.eq_ofNat_of_zero_le (show 0 ≤ b.block.val y by omega)
    have hpos : 1 ≤ m := by omega
    rw [exec_modinv_of_val (s := b.block.accept _) (a := a) (m := m) ha hm hpos] at hrun
    split_ifs at hrun with hgcd
    · cases hrun
      exact ⟨a, m, ha, hm, hpos, hgcd, State.val_putReg_same _ rd _⟩
    · cases hrun
      cases herr
  · rw [exec_modinv_of_not_domain (s := b.block.accept _) hin] at hrun
    cases hrun
    cases herr

/-- `GENPRIME` succeeds with a candidate found on the words ready. -/
theorem procRun_genprime {rd : Reg} (h : procRun (.genprime rd) b = .ok w b') :
    b.Evolves [rd] b' ∧ ∃ c : Nat, b'.block.val rd = c ∧
      genPrime b.block.pbits.toNat b.block.mrk.toNat b.block.rng = some (c, b'.block.rng) := by
  refine ⟨procRun_evolves hb rfl h, ?_⟩
  obtain ⟨t, hrun, hidle, herr, -, rfl⟩ := procRun_inv hb rfl h
  by_cases hin : genprimeDomain b.block.pbits.toNat b.block.width = true
  · cases hfound : genPrime b.block.pbits.toNat b.block.mrk.toNat b.block.rng with
    | none =>
      rw [exec_genprime_of_starved (s := b.block.accept _) hin hfound] at hrun
      cases hrun
      cases hidle
    | some drawn =>
      rw [exec_genprime_of_found (s := b.block.accept _) hin hfound] at hrun
      cases hrun
      exact ⟨drawn.1, State.val_putReg_same _ rd _, rfl⟩
  · rw [exec_genprime_of_not_domain (s := b.block.accept _) hin] at hrun
    cases hrun
    cases herr

end

/-! The exponent selector (46_host_procedures.md R235, R236). -/

/-- The registers the selector works in (46_host_procedures.md R240). -/
def selectorRegs : List Reg := [4, 12, 13, 14]

theorem gcdWithPhi_inv {b b' : Bench} (hb : b.Ready) {e g : Int}
    (h : gcdWithPhi e b = .ok g b') :
    b.Evolves selectorRegs b' ∧ g = Int.gcd e (b.block.val 3) := by
  obtain ⟨_, b1, hload, h⟩ := Ran.andThen_eq_ok h
  obtain ⟨_, b2, hrun, hread⟩ := Ran.andThen_eq_ok h
  obtain ⟨h1, he⟩ := procLoad_inv hb hload
  obtain ⟨h2, hg⟩ := procRun_xgcd h1.ready (by decide) hrun
  obtain ⟨hval, h3⟩ := procRead_inv h2.ready hread
  refine ⟨(h1.trans (h2.trans h3)).mono (by decide), ?_⟩
  rw [hval, hg, he, h1.vals 3 (by decide)]

theorem procDraw_inv {d : List Word → Draw Nat} {b b' : Bench} (hb : b.Ready) {v : Nat}
    (h : procDraw d b = .ok v b') : b.Evolves [] b' ∧ ∃ rest, d b.hostRng = some (v, rest) := by
  unfold procDraw at h
  split at h
  · cases h
  · next u rest hdraw =>
    cases h
    exact ⟨{ hb.evolves with ready := hb, vals := fun _ _ => rfl }, rest, hdraw⟩

/-- The loop ends with a drawn exponent that is coprime to `R3`. -/
theorem selectLoop_inv {d : List Word → Draw Nat} {P : Nat → Prop}
    (hdraw : ∀ {ws v rest}, d ws = some (v, rest) → P v) {fuel : Nat} {b b' : Bench} (hb : b.Ready)
    {e : Int} (h : selectLoop d fuel b = .ok e b') :
    b.Evolves selectorRegs b' ∧ (∃ v : Nat, P v ∧ e = v) ∧ Int.gcd e (b.block.val 3) = 1 := by
  induction fuel generalizing b with
  | zero => cases h
  | succ fuel ih =>
    obtain ⟨v, b1, hv, h⟩ := Ran.andThen_eq_ok h
    obtain ⟨g, b2, hgcd, h⟩ := Ran.andThen_eq_ok h
    obtain ⟨h1, rest, hdrawn⟩ := procDraw_inv hb hv
    obtain ⟨h2, hg⟩ := gcdWithPhi_inv h1.ready hgcd
    have h12 : b.Evolves selectorRegs b2 := (h1.trans h2).mono (by decide)
    rw [h1.vals 3 (by decide)] at hg
    split_ifs at h with hone
    · cases h
      rw [hone] at hg
      exact ⟨h12, ⟨v, hdraw hdrawn, rfl⟩, by exact_mod_cast hg.symm⟩
    · obtain ⟨h3, hfound, hcoprime⟩ := ih h2.ready h
      rw [h12.vals 3 (by decide)] at hcoprime
      exact ⟨(h12.trans h3).mono (by decide), hfound, hcoprime⟩

theorem drawMap_some {f : Nat → Nat} {d : List Word → Draw Nat} {ws rest : List Word} {v : Nat}
    (h : drawMap f d ws = some (v, rest)) : ∃ u, d ws = some (u, rest) ∧ v = f u := by
  unfold drawMap at h
  split at h
  · cases h
  · next u rest' hdraw =>
    cases h
    exact ⟨u, hdraw, rfl⟩

section
variable {b b' : Bench} (hb : b.Ready) {phi : Nat} (hphi : 65537 < phi)
  (hval : b.block.val 3 = phi) {eBits : Option Nat} {e : Int}
include hb hphi hval

/-- Both ranges of the random exponent lie in `[2, phi)`. -/
theorem selectRandom_inv (h : selectRandom phi eBits b = .ok e b') :
    b.Evolves selectorRegs b' ∧ ExponentSelected phi e := by
  have selected {d : List Word → Draw Nat} {fuel : Nat}
      (hdraw : ∀ {ws v rest}, d ws = some (v, rest) → 2 ≤ v ∧ v < phi)
      (hloop : selectLoop d fuel b = .ok e b') :
      b.Evolves selectorRegs b' ∧ ExponentSelected phi e := by
    obtain ⟨hevolves, ⟨v, ⟨hlo, hhi⟩, rfl⟩, hcoprime⟩ := selectLoop_inv hdraw hb hloop
    rw [hval] at hcoprime
    exact ⟨hevolves, by omega, by omega, hcoprime⟩
  cases eBits with
  | some k =>
    simp only [selectRandom] at h
    split_ifs at h with hrange
    refine selected (fun hdrawn => ?_) h
    obtain ⟨u, hu, rfl⟩ := drawMap_some hdrawn
    have hlo := candidate_gt (show 2 ≤ k by omega) u
    have hhi := candidate_lt (show 1 ≤ k by omega) (randBits_lt hu)
    have hpow : 2 ^ k ≤ 2 ^ (bitlen phi - 1) := Nat.pow_le_pow_right (by decide) (by omega)
    have htop := two_pow_le_of_bitlen (show phi ≠ 0 by omega)
    have hpos : 0 < 2 ^ (k - 1) := by positivity
    omega
  | none =>
    refine selected (fun hdrawn => ?_) h
    obtain ⟨u, hu, rfl⟩ := drawMap_some hdrawn
    have hrange := randRange_range (by omega) hu
    omega

theorem selectFixed_inv (h : selectFixed phi eBits b = .ok e b') :
    b.Evolves selectorRegs b' ∧ ExponentSelected phi e := by
  obtain ⟨g, b1, hgcd, h⟩ := Ran.andThen_eq_ok h
  obtain ⟨h1, hg⟩ := gcdWithPhi_inv hb hgcd
  split_ifs at h with hone
  · cases h
    rw [hone, hval] at hg
    exact ⟨h1, by omega, by omega, by exact_mod_cast hg.symm⟩
  · obtain ⟨h2, hselected⟩ :=
      selectRandom_inv h1.ready hphi ((h1.vals 3 (by decide)).trans hval) h
    exact ⟨(h1.trans h2).mono (by decide), hselected⟩

theorem exponent_selected {useRandomE : Bool}
    (h : (if useRandomE then selectRandom phi eBits b else selectFixed phi eBits b) = .ok e b') :
    b.Evolves selectorRegs b' ∧ ExponentSelected phi e := by
  cases useRandomE with
  | true => exact selectRandom_inv hb hphi hval h
  | false => exact selectFixed_inv hb hphi hval h

end

/-! The primes (46_host_procedures.md R240). -/

theorem setBits_idle {s : State} (hb : s.busy = false) (w : Word) :
    setBits w s = { s with pbits := w.setWidth 16 } :=
  State.whenIdle_idle hb _

theorem setRounds_setBits_idle {s : State} (hb : s.busy = false) (rounds : Option Word) (w : Word) :
    setRounds rounds (setBits w s) =
      { s with pbits := w.setWidth 16, mrk := (setRounds rounds s).mrk } := by
  cases rounds with
  | none => exact setBits_idle hb w
  | some k =>
    have hset {t : State} (ht : t.busy = false) :
        setRounds (some k) t = { t with mrk := k.setWidth 16 } := State.whenIdle_idle ht _
    rw [setBits_idle hb, hset hb, hset (t := { s with pbits := w.setWidth 16 }) hb]

/-- The bench with `PBITS` and `MRK` set. -/
def Bench.configured (b : Bench) (bits : Nat) (rounds : Option Word) : Bench :=
  { b with block := setRounds rounds (setBits (BitVec.ofNat 32 bits) b.block) }

theorem Bench.Ready.configured {b : Bench} (hb : b.Ready) {bits : Nat} (hbits : bits < 2 ^ 16)
    (rounds : Option Word) :
    (b.configured bits rounds).Ready ∧ (b.configured bits rounds).block.pbits.toNat = bits ∧
      (b.configured bits rounds).block.mrk = (setRounds rounds b.block).mrk ∧
      (b.configured bits rounds).block.rng = b.block.rng := by
  obtain ⟨-, hidle, -⟩ := id hb
  have hset := setRounds_setBits_idle hidle rounds (BitVec.ofNat 32 bits)
  have hpbits : ((BitVec.ofNat 32 bits).setWidth 16).toNat = bits := by
    rw [BitVec.toNat_setWidth, BitVec.toNat_ofNat]
    omega
  rw [Bench.configured, hset]
  exact ⟨hb, hpbits, rfl, rfl⟩

/-- The second prime differs from the first in `R0`, and was found on words behind the first's. -/
theorem secondPrime_inv {fuel : Nat} {b b' : Bench} (hb : b.Ready) {u : Unit}
    (h : secondPrime fuel b = .ok u b') :
    b.Evolves [1] b' ∧ b'.block.val 1 ≠ b.block.val 0 ∧ ∃ q : Nat, b'.block.val 1 = q ∧
      ∃ ws rest, ws <:+ b.block.rng ∧
        genPrime b.block.pbits.toNat b.block.mrk.toNat ws = some (q, rest) := by
  induction fuel generalizing b with
  | zero => cases h
  | succ fuel ih =>
    obtain ⟨_, b1, hgen, h⟩ := Ran.andThen_eq_ok h
    obtain ⟨status, b2, hcmp, h⟩ := Ran.andThen_eq_ok h
    obtain ⟨h1, q, hq, hfound⟩ := procRun_genprime hb hgen
    obtain ⟨h2, hequal⟩ := procRun_cmp h1.ready hcmp
    have h12 : b.Evolves [1] b2 := (h1.trans h2).mono (by decide)
    split_ifs at h with hsame
    · obtain ⟨h3, hne, q', hq', ws, rest, hws, hfound'⟩ := ih h2.ready h
      rw [h12.vals 0 (by decide)] at hne
      rw [h12.mrk, h12.pbits] at hfound'
      exact ⟨(h12.trans h3).mono (by decide), hne, q', hq', ws, rest, hws.trans h12.words, hfound'⟩
    · cases h
      rw [hequal, h1.vals 0 (by decide)] at hsame
      have hval : b'.block.val 1 = b1.block.val 1 := h2.vals 1 (by decide)
      exact ⟨h12, by rwa [hval], q, by rw [hval, hq], b.block.rng, b1.block.rng,
        List.suffix_refl _, hfound⟩

/-! The arithmetic of a pair (46_host_procedures.md R241). -/

section
variable {bits p q : Nat} (hbits : 16 ≤ bits) (hp : 2 ^ (bits - 1) + 1 ≤ p)
  (hq : 2 ^ (bits - 1) + 1 ≤ q)
include hbits hp hq

theorem totient_ge : 2 ^ (2 * bits - 2) ≤ (p - 1) * (q - 1) := by
  calc 2 ^ (2 * bits - 2) = 2 ^ (bits - 1) * 2 ^ (bits - 1) := by
        rw [← pow_add]
        congr 1
        omega
    _ ≤ (p - 1) * (q - 1) := Nat.mul_le_mul (by omega) (by omega)

theorem totient_ge_two_pow_thirty : 2 ^ 30 ≤ (p - 1) * (q - 1) :=
  (Nat.pow_le_pow_right (by decide) (by omega)).trans (totient_ge hbits hp hq)

theorem bitlen_modulus (hp' : p < 2 ^ bits) (hq' : q < 2 ^ bits) :
    bitlen (p * q) = 2 * bits - 1 ∨ bitlen (p * q) = 2 * bits := by
  have hlo : 2 ^ (2 * bits - 2) ≤ p * q :=
    (totient_ge hbits hp hq).trans (Nat.mul_le_mul (Nat.sub_le p 1) (Nat.sub_le q 1))
  have hhi : p * q < 2 ^ (2 * bits) := by
    rw [Nat.two_mul, pow_add]
    exact Nat.mul_lt_mul'' hp' hq'
  obtain hlt | hge := Nat.lt_or_ge (p * q) (2 ^ (2 * bits - 1))
  · exact .inl (bitlen_eq_of_bounds (by omega) hlo hlt)
  · exact .inr (bitlen_eq_of_bounds (by omega) hge hhi)

end

/-- An inverse modulo `phi > 1` is a second exponent. -/
theorem inverse_is_exponent {e phi : Nat} (hphi : 1 < phi) (hgcd : Nat.gcd e phi = 1) :
    1 ≤ inverseMod e phi ∧ inverseMod e phi < phi ∧ e * inverseMod e phi % phi = 1 := by
  have hone : e * inverseMod e phi % phi = 1 :=
    Eq.trans (mul_inverseMod_modEq (by omega) hgcd) (Nat.mod_eq_of_lt hphi)
  refine ⟨Nat.one_le_iff_ne_zero.mpr fun hzero => ?_, inverseMod_lt (by omega) e, hone⟩
  rw [hzero, Nat.mul_zero, Nat.zero_mod] at hone
  cases hone

/-! The factory. -/

/-- What a pair that the factory ends with is: two primes found one after the other on the block's
words, and the results of the commands on them. -/
structure KeyPair.Built (bits rounds : Nat) (stream : List Word) (k : KeyPair) : Prop where
  length : 16 ≤ bits
  primes : ∃ (p q : Nat) (restP ws restQ : List Word), k.p = p ∧ k.q = q ∧ p ≠ q ∧
    genPrime bits rounds stream = some (p, restP) ∧ ws <:+ restP ∧
    genPrime bits rounds ws = some (q, restQ)
  modulus : k.n = k.p * k.q
  totient : k.phi = (k.p - 1) * (k.q - 1)
  selected : ExponentSelected k.phi k.e
  inverse : ∃ e phi : Nat, k.e = e ∧ k.phi = phi ∧ Nat.gcd e phi = 1 ∧
    k.d = (inverseMod e phi : Nat)

/-- The two primes, in `R0` and `R1`, found one after the other on the words of the queue. -/
theorem primes_found {b0 b1 b2 : Bench} {w : Word} {u : Unit} {fuel : Nat} (hb : b0.Ready)
    (hgen : procRun (.genprime 0) b0 = .ok w b1) (hsecond : secondPrime fuel b1 = .ok u b2) :
    b2.Ready ∧ ∃ (p q : Nat) (restP ws restQ : List Word), b2.block.val 0 = p ∧
      b2.block.val 1 = q ∧ p ≠ q ∧
      genPrime b0.block.pbits.toNat b0.block.mrk.toNat b0.block.rng = some (p, restP) ∧
      ws <:+ restP ∧ genPrime b0.block.pbits.toNat b0.block.mrk.toNat ws = some (q, restQ) := by
  obtain ⟨h1, p, hp, hfoundP⟩ := procRun_genprime hb hgen
  obtain ⟨h2, hne, q, hq, ws, restQ, hws, hfoundQ⟩ := secondPrime_inv h1.ready hsecond
  rw [hp, hq] at hne
  rw [h1.pbits, h1.mrk] at hfoundQ
  exact ⟨h2.ready, p, q, b1.block.rng, ws, restQ, (h2.vals 0 (by decide)).trans hp, hq,
    fun heq => hne (by rw [heq]), hfoundP, hws, hfoundQ⟩

/-- The commands between the primes and the exponent: `R2` gets the modulus, `R3` the totient. -/
theorem totient_computed {b2 b3 b4 b5 b6 b7 : Bench} {u : Unit} {w4 w5 w6 w7 : Word}
    (hb : b2.Ready) (hone : procLoad 15 1 b2 = .ok u b3)
    (hmul : procRun (.mul 2 0 1) b3 = .ok w4 b4) (hsubP : procRun (.sub 12 0 15) b4 = .ok w5 b5)
    (hsubQ : procRun (.sub 13 1 15) b5 = .ok w6 b6)
    (htotient : procRun (.mul 3 12 13) b6 = .ok w7 b7) :
    b2.Evolves [15, 2, 12, 13, 3] b7 ∧
      b7.block.val 2 = b2.block.val 0 * b2.block.val 1 ∧
      b7.block.val 3 = (b2.block.val 0 - 1) * (b2.block.val 1 - 1) := by
  obtain ⟨h3, hval15⟩ := procLoad_inv hb hone
  obtain ⟨h4, hval2⟩ := procRun_mul h3.ready hmul
  obtain ⟨h5, hval12⟩ := procRun_sub h4.ready hsubP
  obtain ⟨h6, hval13⟩ := procRun_sub h5.ready hsubQ
  obtain ⟨h7, hval3⟩ := procRun_mul h6.ready htotient
  have h24 := h3.trans h4
  have h25 := h24.trans h5
  refine ⟨(h25.trans (h6.trans h7)).mono (by decide), ?_, ?_⟩
  · rw [(h5.trans (h6.trans h7)).vals 2 (by decide), hval2, h3.vals 0 (by decide),
      h3.vals 1 (by decide)]
  · rw [hval3, h6.vals 12 (by decide), hval12, hval13, h24.vals 0 (by decide),
      h25.vals 1 (by decide), (h4.trans h5).vals 15 (by decide), h4.vals 15 (by decide), hval15]

/-- The end of the factory: the inverse of the exponent, and the pair read back. -/
theorem pair_read {b9 b10 b11 b12 b13 b14 b15 : Bench} {u : Unit} {w : Word} {e p q n d : Int}
    (hb : b9.Ready) (hload : procLoad 4 e b9 = .ok u b10)
    (hmodinv : procRun (.modinv 5 4 3) b10 = .ok w b11) (hp : procRead 0 b11 = .ok p b12)
    (hq : procRead 1 b12 = .ok q b13) (hn : procRead 2 b13 = .ok n b14)
    (hd : procRead 5 b14 = .ok d b15) :
    p = b9.block.val 0 ∧ q = b9.block.val 1 ∧ n = b9.block.val 2 ∧
      ∃ a phi : Nat, e = a ∧ b9.block.val 3 = phi ∧ Nat.gcd a phi = 1 ∧
        d = (inverseMod a phi : Nat) := by
  obtain ⟨h10, hval4⟩ := procLoad_inv hb hload
  obtain ⟨h11, a, phi, ha, hphi, -, hgcd, hval5⟩ := procRun_modinv h10.ready hmodinv
  obtain ⟨rfl, h12⟩ := procRead_inv h11.ready hp
  obtain ⟨rfl, h13⟩ := procRead_inv h12.ready hq
  obtain ⟨rfl, h14⟩ := procRead_inv h13.ready hn
  obtain ⟨rfl, -⟩ := procRead_inv h14.ready hd
  have h911 := h10.trans h11
  have h912 := h911.trans h12
  refine ⟨h911.vals 0 (by decide), h912.vals 1 (by decide), (h912.trans h13).vals 2 (by decide),
    a, phi, hval4 ▸ ha, h10.vals 3 (by decide) ▸ hphi, hgcd, ?_⟩
  rw [((h12.trans h13).trans h14).vals 5 (by decide), hval5]

theorem generateKeypair_built {bits : Nat} {useRandomE : Bool} {eBits : Option Nat}
    {rounds : Option Word} {b b' : Bench} {k : KeyPair} (hb : b.Ready)
    (h : generateKeypair bits useRandomE eBits rounds b = .ok k b') :
    k.Built bits (setRounds rounds b.block).mrk.toNat b.block.rng := by
  obtain ⟨-, hL⟩ := State.legalWidth_limbs hb.1
  unfold generateKeypair at h
  rw [State.width_eq] at h
  by_cases hrange : bits < 16 ∨ 32 * b.block.limbs < 2 * bits
  · rw [if_pos hrange] at h
    cases h
  rw [if_neg hrange] at h
  obtain ⟨hb0, hpbits, hmrk, hrng⟩ := hb.configured (bits := bits) (by omega) rounds
  obtain ⟨_, b1, hgen, h⟩ := Ran.andThen_eq_ok h
  obtain ⟨_, b2, hsecond, h⟩ := Ran.andThen_eq_ok h
  obtain ⟨_, b3, hone, h⟩ := Ran.andThen_eq_ok h
  obtain ⟨_, b4, hmul, h⟩ := Ran.andThen_eq_ok h
  obtain ⟨_, b5, hsubP, h⟩ := Ran.andThen_eq_ok h
  obtain ⟨_, b6, hsubQ, h⟩ := Ran.andThen_eq_ok h
  obtain ⟨_, b7, htotient, h⟩ := Ran.andThen_eq_ok h
  obtain ⟨phi, b8, hphi, h⟩ := Ran.andThen_eq_ok h
  obtain ⟨e, b9, hselect, h⟩ := Ran.andThen_eq_ok h
  obtain ⟨_, b10, hload, h⟩ := Ran.andThen_eq_ok h
  obtain ⟨_, b11, hmodinv, h⟩ := Ran.andThen_eq_ok h
  obtain ⟨p', b12, hreadP, h⟩ := Ran.andThen_eq_ok h
  obtain ⟨q', b13, hreadQ, h⟩ := Ran.andThen_eq_ok h
  obtain ⟨n', b14, hreadN, h⟩ := Ran.andThen_eq_ok h
  obtain ⟨d', b15, hreadD, h⟩ := Ran.andThen_eq_ok h
  obtain ⟨hb2, p, q, restP, ws, restQ, hp, hq, hne, hfoundP, hws, hfoundQ⟩ :=
    primes_found hb0 hgen hsecond
  obtain ⟨h27, hval2, hval3⟩ := totient_computed hb2 hone hmul hsubP hsubQ htotient
  obtain ⟨rfl, h8⟩ := procRead_inv h27.ready hphi
  rw [hpbits, hmrk, hrng] at hfoundP
  rw [hpbits, hmrk] at hfoundQ
  have hboundP := (genPrime_bounds (by omega) hfoundP).1
  have hboundQ := (genPrime_bounds (by omega) hfoundQ).1
  have hlarge := totient_ge_two_pow_thirty (by omega) hboundP hboundQ
  have hphiNat : b7.block.val 3 = ((p - 1) * (q - 1) : Nat) := by
    rw [hval3, hp, hq, Nat.cast_mul, Nat.cast_sub (Nat.one_le_of_lt hboundP),
      Nat.cast_sub (Nat.one_le_of_lt hboundQ), Nat.cast_one]
  rw [hphiNat, Int.toNat_natCast] at hselect
  obtain ⟨h9, hexponent⟩ := exponent_selected h8.ready (by omega)
    ((h8.vals 3 (by decide)).trans hphiNat) hselect
  have h79 := h8.trans h9
  have h29 := h27.trans h79
  obtain ⟨rfl, rfl, rfl, a, m, ha, hm, hgcd, hd⟩ :=
    pair_read h9.ready hload hmodinv hreadP hreadQ hreadN hreadD
  cases h
  have hp9 : b9.block.val 0 = b2.block.val 0 := h29.vals 0 (by decide)
  have hq9 : b9.block.val 1 = b2.block.val 1 := h29.vals 1 (by decide)
  exact
    { length := by omega
      primes := ⟨p, q, restP, ws, restQ, hp9.trans hp, hq9.trans hq, hne, hfoundP, hws, hfoundQ⟩
      modulus := by
        change b9.block.val 2 = b9.block.val 0 * b9.block.val 1
        rw [h79.vals 2 (by decide), hval2, hp9, hq9]
      totient := by
        change b7.block.val 3 = (b9.block.val 0 - 1) * (b9.block.val 1 - 1)
        rw [hval3, hp9, hq9]
      selected := hphiNat ▸ hexponent
      inverse := ⟨a, m, ha, (h79.vals 3 (by decide)).symm.trans hm, hgcd, hd⟩ }

theorem KeyPair.Built.numbers {bits rounds : Nat} {stream : List Word} {k : KeyPair}
    (h : k.Built bits rounds stream) : k.Numbers bits := by
  obtain ⟨hbits, ⟨p, q, restP, ws, restQ, hp, hq, hpq, hfoundP, -, hfoundQ⟩, hn, htotient,
    ⟨helo, hehi, hcoprime⟩, a, phi, ha, hphi, hgcd, hd⟩ := h
  obtain ⟨hploB, hphiB⟩ := genPrime_bounds (by omega) hfoundP
  obtain ⟨hqloB, hqhiB⟩ := genPrime_bounds (by omega) hfoundQ
  have hphiNat : phi = (p - 1) * (q - 1) := by
    zify [Nat.one_le_of_lt hploB, Nat.one_le_of_lt hqloB]
    rw [← hphi, htotient, hp, hq]
  have hlarge := totient_ge_two_pow_thirty hbits hploB hqloB
  have hge := totient_ge hbits hploB hqloB
  have hlen := bitlen_modulus hbits hploB hqloB hphiB hqhiB
  rw [← hphiNat] at hlarge hge
  obtain ⟨hdlo, hdhi, hed⟩ := inverse_is_exponent (by omega) hgcd
  have hmodulus : k.n.toNat = p * q := by rw [hn, hp, hq, ← Nat.cast_mul, Int.toNat_natCast]
  refine ⟨?_, ?_, ?_, ?_, ?_, hn, hmodulus ▸ hlen, htotient, ?_, ?_, helo, hehi, hcoprime, ?_, ?_,
    ?_⟩
  · rw [hp, hq]
    exact_mod_cast hpq
  · rw [hp]
    exact_mod_cast hploB
  · rw [hp]
    exact_mod_cast hphiB
  · rw [hq]
    exact_mod_cast hqloB
  · rw [hq]
    exact_mod_cast hqhiB
  · rw [hphi]
    exact_mod_cast hge
  · rw [hphi]
    exact_mod_cast hlarge
  · rw [hd]
    exact_mod_cast hdlo
  · rw [hd, hphi]
    exact_mod_cast hdhi
  · rw [ha, hd, hphi]
    exact_mod_cast hed

theorem KeyPair.Built.oraclePassed {bits rounds : Nat} {stream : List Word} {k : KeyPair}
    (h : k.Built bits rounds stream) : k.OraclePassed rounds stream := by
  obtain ⟨p, q, restP, ws, restQ, hp, hq, -, hfoundP, hws, hfoundQ⟩ := h.primes
  obtain ⟨-, -, -, wp, hwp, hpassP⟩ := genPrimeLoop_found hfoundP
  obtain ⟨-, -, -, wq, hwq, hpassQ⟩ := genPrimeLoop_found hfoundQ
  exact ⟨wp, restP, wq, restQ, hwp, hp ▸ hpassP, hwq.trans hws, hq ▸ hpassQ⟩

/-- Settles O60: every step of the factory is inverted, and the rest is arithmetic. -/
theorem keyPairsMeetTheirInvariants : Obligations.KeyPairsMeetTheirInvariants := by
  intro bits useRandomE eBits rounds b b' k hb h
  have hbuilt := generateKeypair_built hb h
  exact ⟨hbuilt.numbers, hbuilt.selected, hbuilt.oraclePassed, fun hrounds =>
    ⟨hbuilt.numbers, _, hrounds, _, hbuilt.oraclePassed⟩⟩

end Sys2Proof.Machine
end
